-- ==== Sys2Proof/Word.lean ====
section
/-! DEFINITION. The word types of the Chip8le core: what `spec/00_scope.md` R4 and R6 give a width. -/

namespace Sys2Proof

/-- An 8-bit cell: a general register, a timer, a byte of memory (R20, R22, R27, R28). -/
abbrev Byte := BitVec 8

/-- A 16-bit cell: an instruction word, `I`, `pc`, a stack entry, an input mask (R24, R25, R26, R30, R31, R90). -/
abbrev Word := BitVec 16

/-- The 12-bit address operand `NNN` (R92). -/
abbrev Addr12 := BitVec 12

/-- A 4-bit operand that is a count or is ignored, `N` (R92). -/
abbrev Nibble := BitVec 4

/-- A register index, 0 to 15; it is a 4-bit field, so it is always in range (R20). -/
abbrev Reg := Fin 16

/-- A key index, 0 to 15 (R30). -/
abbrev Key := Fin 16

/-- The flag register `VF` is register 15 (R4 `FLAG_REG`, R21). -/
abbrev flagReg : Reg := 15

end Sys2Proof
end

