-- ==== Sys2Proof/Config.lean ====
section
/-! DEFINITION. What is fixed for the machine: the sizes of `spec/00_scope.md` R4, its parameters with their
default values, and the one free value of the spec, the random byte. -/

namespace Sys2Proof

/-- `MEM_SIZE`: bytes of memory (R4, R22). -/
def memSize : Nat := 4096

/-- `PROG_BASE`: where the program image is copied and where `pc` starts (R4, R41). -/
def progBase : Nat := 512

/-- `MAX_IMAGE`: the longest program image, 4096 - 512 bytes (R4, R246). -/
def maxImage : Nat := 3584

/-- The size of the font region, 16 glyphs of 5 bytes at address 0 (R4 `FONT_BASE`, `GLYPH_H`; R23). -/
def fontSize : Nat := 80

/-- `GLYPH_H`: bytes of one glyph (R4). -/
def glyphHeight : Nat := 5

/-- `CYCLES_PER_TICK`: the budget of one tick (R4, R231). -/
def cyclesPerTick : Nat := 8

/-- `INSTR_COST`: what every dispatched instruction costs (R4, R232). -/
def instrCost : Nat := 2

/-- `SHIFT_SRC`: which register the two shifts read (R4, R150). -/
inductive ShiftSrc where
  /-- shift `V[X]` in place -/
  | x
  /-- shift `V[Y]` into `V[X]` -/
  | y
  deriving DecidableEq, Repr

/-- The default bytes of `FONT`, one row per glyph 0 to F (R23).
PRESUMED: the spec marks the bytes as general knowledge, not in source (log 5). -/
def defaultFont : Vector Byte 80 :=
  #v[0xF0, 0x90, 0x90, 0x90, 0xF0,
     0x20, 0x60, 0x20, 0x20, 0x70,
     0xF0, 0x10, 0xF0, 0x80, 0xF0,
     0xF0, 0x10, 0xF0, 0x10, 0xF0,
     0x90, 0x90, 0xF0, 0x10, 0x10,
     0xF0, 0x80, 0xF0, 0x10, 0xF0,
     0xF0, 0x80, 0xF0, 0x90, 0xF0,
     0xF0, 0x10, 0x20, 0x40, 0x40,
     0xF0, 0x90, 0xF0, 0x90, 0xF0,
     0xF0, 0x90, 0xF0, 0x10, 0xF0,
     0xF0, 0x90, 0xF0, 0x90, 0x90,
     0xE0, 0x90, 0xE0, 0x90, 0xE0,
     0xF0, 0x80, 0x80, 0x80, 0xF0,
     0xE0, 0x90, 0x90, 0x90, 0xE0,
     0xF0, 0x80, 0xF0, 0x80, 0xF0,
     0xF0, 0x80, 0xF0, 0x80, 0x80]

/-- The parameters of R4 that a machine of this design may set, with the defaults R4 states. A machine carries one
`Config` in its state and no step changes it, so a claim about every state holds for every setting (log 4). -/
structure Config where
  /-- `FONT`: the 80 bytes reset writes at address 0 (R23). -/
  font : Vector Byte 80 := defaultFont
  /-- `DISP_W`: columns of the display (R4, R29). -/
  dispW : Nat := 64
  /-- `DISP_H`: rows of the display (R4, R29). -/
  dispH : Nat := 32
  /-- `SHIFT_SRC` (R4, R150). -/
  shiftSrc : ShiftSrc := ShiftSrc.x
  deriving DecidableEq, Repr

/-- The configuration in which every parameter has its default of R4. -/
def Config.default : Config := {}

/-- `mem[a]` right after reset: `FONT[a]` in the font region, 0 elsewhere (R40, R66). It is what an address of
memory that the list does not hold reads as (log 30). -/
def Config.resetByte (c : Config) (a : Nat) : Byte :=
  if h : a < 80 then c.font[a] else 0

/-- FREE VALUE (R161, U10, log 6): the `n`-th random byte the host supplies. It has no body, so nothing can be
proved of it: a claim about `RND` holds for every value of every draw. DESIGN CHOICE (N22, log 6): it is one constant
of the count of draws, so two runs that have drawn equally often draw equal bytes; whether two runs agree is left open
by the spec, and a claim that compares two runs must not rest on it. -/
opaque Config.randomByte : Nat → Byte

end Sys2Proof
end

