-- ==== Sys2Proof/Syntax.lean ====
section
/-! DEFINITION. The instruction set: one constructor per row of `spec/opcode_table.json`, in the table's order
(`spec/30_encoding.md` R95). -/

namespace Sys2Proof

/-- The 33 instructions of the opcode map (R95). `x`, `y` are register indices, `kk` the 8-bit constant, `nnn` the
12-bit address, `n` the 4-bit row count, `ign` the low nibble that families 5 and 9 ignore (R98). -/
inductive Instr where
  /-- `0nnn` SYS nnn, with `00E0` CLS and `00EE` RET (R210) -/
  | sys (nnn : Addr12)
  /-- `1nnn` JP nnn (R120) -/
  | jp (nnn : Addr12)
  /-- `2nnn` CALL nnn (R211) -/
  | call (nnn : Addr12)
  /-- `3xkk` SE Vx, kk (R121) -/
  | seImm (x : Reg) (kk : Byte)
  /-- `4xkk` SNE Vx, kk (R122) -/
  | sneImm (x : Reg) (kk : Byte)
  /-- `5xy-` SE Vx, Vy (R123) -/
  | seReg (x y : Reg) (ign : Nibble)
  /-- `6xkk` LD Vx, kk (R130) -/
  | ldImm (x : Reg) (kk : Byte)
  /-- `7xkk` ADD Vx, kk (R131) -/
  | addImm (x : Reg) (kk : Byte)
  /-- `8xy0` LD Vx, Vy (R140) -/
  | ldReg (x y : Reg)
  /-- `8xy1` OR Vx, Vy (R141) -/
  | orReg (x y : Reg)
  /-- `8xy2` AND Vx, Vy (R142) -/
  | andReg (x y : Reg)
  /-- `8xy3` XOR Vx, Vy (R143) -/
  | xorReg (x y : Reg)
  /-- `8xy4` ADD Vx, Vy (R144) -/
  | addReg (x y : Reg)
  /-- `8xy5` SUB Vx, Vy (R145) -/
  | subReg (x y : Reg)
  /-- `8xy6` SHR Vx, Vy (R146) -/
  | shr (x y : Reg)
  /-- `8xy7` SUBN Vx, Vy (R147) -/
  | subn (x y : Reg)
  /-- `8xyE` SHL Vx, Vy (R148) -/
  | shl (x y : Reg)
  /-- `9xy-` SNE Vx, Vy (R124) -/
  | sneReg (x y : Reg) (ign : Nibble)
  /-- `Annn` LD I, nnn (R160) -/
  | ldIndex (nnn : Addr12)
  /-- `Bnnn` JP V0, nnn (R212) -/
  | jpV0 (nnn : Addr12)
  /-- `Cxkk` RND Vx, kk (R161) -/
  | rnd (x : Reg) (kk : Byte)
  /-- `Dxyn` DRW Vx, Vy, n (R170) -/
  | drw (x y : Reg) (n : Nibble)
  /-- `Ex9E` SKP Vx (R180) -/
  | skp (x : Reg)
  /-- `ExA1` SKNP Vx (R181) -/
  | sknp (x : Reg)
  /-- `Fx07` LD Vx, DT (R190) -/
  | ldFromDt (x : Reg)
  /-- `Fx0A` LD Vx, K (R191) -/
  | ldKey (x : Reg)
  /-- `Fx15` LD DT, Vx (R192) -/
  | ldToDt (x : Reg)
  /-- `Fx18` LD ST, Vx (R193) -/
  | ldToSt (x : Reg)
  /-- `Fx1E` ADD I, Vx (R194) -/
  | addIndex (x : Reg)
  /-- `Fx29` LD F, Vx (R195) -/
  | ldGlyph (x : Reg)
  /-- `Fx33` LD B, Vx (R196) -/
  | ldBcd (x : Reg)
  /-- `Fx55` LD [I], Vx (R197) -/
  | storeRegs (x : Reg)
  /-- `Fx65` LD Vx, [I] (R198) -/
  | loadRegs (x : Reg)
  deriving DecidableEq, Repr

end Sys2Proof
end

