-- ==== Sys2Proof/WellFormed.lean ====
section
/-! DEFINITION. Which instructions and which program images are well formed. -/

namespace Sys2Proof

/-- Every instruction of `Instr` is well formed: each operand's type is exactly its encoding field's range (R92, R93:
registers 0 to 15, constants 0 to 255, addresses 0 to 4095, counts 0 to 15), so no operand can be out of range. -/
def Instr.wellFormed : Instr → Bool
  | .sys _ => true
  | .jp _ => true
  | .call _ => true
  | .seImm _ _ => true
  | .sneImm _ _ => true
  | .seReg _ _ _ => true
  | .ldImm _ _ => true
  | .addImm _ _ => true
  | .ldReg _ _ => true
  | .orReg _ _ => true
  | .andReg _ _ => true
  | .xorReg _ _ => true
  | .addReg _ _ => true
  | .subReg _ _ => true
  | .shr _ _ => true
  | .subn _ _ => true
  | .shl _ _ => true
  | .sneReg _ _ _ => true
  | .ldIndex _ => true
  | .jpV0 _ => true
  | .rnd _ _ => true
  | .drw _ _ _ => true
  | .skp _ => true
  | .sknp _ => true
  | .ldFromDt _ => true
  | .ldKey _ => true
  | .ldToDt _ => true
  | .ldToSt _ => true
  | .addIndex _ => true
  | .ldGlyph _ => true
  | .ldBcd _ => true
  | .storeRegs _ => true
  | .loadRegs _ => true

/-- A program image the host may load: at most 3584 bytes (R246). -/
def imageFits (image : List Byte) : Bool :=
  image.length ≤ maxImage

end Sys2Proof
end

