-- ==== Sys2Proof/Decode.lean ====
section
/-! DEFINITION. Decoding and encoding of instruction words, from `spec/30_encoding.md`: the fields (R92), the two-step
decoder (R95, R97), the encoder, the opcode map as rows of mask and match (R95), and the assembly spelling (R102). -/

namespace Sys2Proof

/-! ### Byte order and fields -/

/-- The word of two consecutive bytes, high byte first (R61). -/
def wordOfBytes (hi lo : Byte) : Word := hi ++ lo

/-- The two bytes of a word in the order they stand in memory, high byte first (R61, R90). -/
def bytesOfWord (w : Word) : List Byte := [w.extractLsb' 8 8, w.extractLsb' 0 8]

/-- `FAM = w[15:12]`, the opcode family (R91, R92). -/
def fieldFam (w : Word) : Nibble := w.extractLsb' 12 4

/-- `X = w[11:8]` (R92; PRESUMED, the spec's G1, log 8). -/
def fieldX (w : Word) : Reg := (w.extractLsb' 8 4).toFin

/-- `Y = w[7:4]` (R92; PRESUMED, the spec's G1, log 8). -/
def fieldY (w : Word) : Reg := (w.extractLsb' 4 4).toFin

/-- `N = w[3:0]` (R92). -/
def fieldN (w : Word) : Nibble := w.extractLsb' 0 4

/-- `KK = w[7:0]` (R92). -/
def fieldKK (w : Word) : Byte := w.extractLsb' 0 8

/-- `NNN = w[11:0]` (R92). -/
def fieldNNN (w : Word) : Addr12 := w.extractLsb' 0 12

/-! ### The decoder -/

/-- Why a word is no instruction. -/
inductive WordReject where
  /-- The word matches no row of the opcode map: an unlisted sub-case of family 8, E or F (R97). -/
  | unlisted (w : Word)
  /-- The family is not one of the 16; it cannot occur (R100). -/
  | noFamily (w : Word)
  deriving DecidableEq, Repr

/-- Why a list of bytes does not begin with an instruction. -/
inductive DecodeReject where
  /-- Fewer than the two bytes every instruction has (R90). -/
  | truncated
  /-- The first two bytes are a word that is no instruction. -/
  | word (r : WordReject)
  deriving DecidableEq, Repr

/-- Family 8, by the low nibble (R95; the unlisted values R97). -/
def decodeAlu (w : Word) : Except WordReject Instr :=
  match (fieldN w).toNat with
  | 0x0 => .ok (.ldReg (fieldX w) (fieldY w))
  | 0x1 => .ok (.orReg (fieldX w) (fieldY w))
  | 0x2 => .ok (.andReg (fieldX w) (fieldY w))
  | 0x3 => .ok (.xorReg (fieldX w) (fieldY w))
  | 0x4 => .ok (.addReg (fieldX w) (fieldY w))
  | 0x5 => .ok (.subReg (fieldX w) (fieldY w))
  | 0x6 => .ok (.shr (fieldX w) (fieldY w))
  | 0x7 => .ok (.subn (fieldX w) (fieldY w))
  | 0xE => .ok (.shl (fieldX w) (fieldY w))
  | _ => .error (.unlisted w)

/-- Family E, by the low byte (R95; the unlisted values R97). -/
def decodeKeySkip (w : Word) : Except WordReject Instr :=
  match (fieldKK w).toNat with
  | 0x9E => .ok (.skp (fieldX w))
  | 0xA1 => .ok (.sknp (fieldX w))
  | _ => .error (.unlisted w)

/-- Family F, by the low byte (R95, R199; the unlisted values R97). -/
def decodeMisc (w : Word) : Except WordReject Instr :=
  match (fieldKK w).toNat with
  | 0x07 => .ok (.ldFromDt (fieldX w))
  | 0x0A => .ok (.ldKey (fieldX w))
  | 0x15 => .ok (.ldToDt (fieldX w))
  | 0x18 => .ok (.ldToSt (fieldX w))
  | 0x1E => .ok (.addIndex (fieldX w))
  | 0x29 => .ok (.ldGlyph (fieldX w))
  | 0x33 => .ok (.ldBcd (fieldX w))
  | 0x55 => .ok (.storeRegs (fieldX w))
  | 0x65 => .ok (.loadRegs (fieldX w))
  | _ => .error (.unlisted w)

/-- Decoding is a function of the word alone: first by the family, then, for families 8, E and F, by the low nibble or
the low byte (R95). -/
def decodeWord (w : Word) : Except WordReject Instr :=
  match (fieldFam w).toNat with
  | 0x0 => .ok (.sys (fieldNNN w))
  | 0x1 => .ok (.jp (fieldNNN w))
  | 0x2 => .ok (.call (fieldNNN w))
  | 0x3 => .ok (.seImm (fieldX w) (fieldKK w))
  | 0x4 => .ok (.sneImm (fieldX w) (fieldKK w))
  | 0x5 => .ok (.seReg (fieldX w) (fieldY w) (fieldN w))
  | 0x6 => .ok (.ldImm (fieldX w) (fieldKK w))
  | 0x7 => .ok (.addImm (fieldX w) (fieldKK w))
  | 0x8 => decodeAlu w
  | 0x9 => .ok (.sneReg (fieldX w) (fieldY w) (fieldN w))
  | 0xA => .ok (.ldIndex (fieldNNN w))
  | 0xB => .ok (.jpV0 (fieldNNN w))
  | 0xC => .ok (.rnd (fieldX w) (fieldKK w))
  | 0xD => .ok (.drw (fieldX w) (fieldY w) (fieldN w))
  | 0xE => decodeKeySkip w
  | 0xF => decodeMisc w
  | _ => .error (.noFamily w)

/-- Decode the instruction at the front of a list of bytes, and give back the rest: two bytes, high byte first, no
other length (R90). -/
def decode : List Byte → Except DecodeReject (Instr × List Byte)
  | hi :: lo :: rest =>
    match decodeWord (wordOfBytes hi lo) with
    | .ok i => .ok (i, rest)
    | .error r => .error (.word r)
  | _ => .error .truncated

/-! ### The encoder -/

/-- Format `A`: family and 12-bit address (R94). -/
def encodeA (fam : Nibble) (nnn : Addr12) : Word := fam ++ nnn

/-- Format `XK`: family, register, constant (R94). -/
def encodeXK (fam : Nibble) (x : Reg) (kk : Byte) : Word := fam ++ (BitVec.ofFin x : Nibble) ++ kk

/-- Formats `XY` and `XYN`: family, two registers, low nibble (R94). -/
def encodeXYN (fam : Nibble) (x y : Reg) (n : Nibble) : Word :=
  fam ++ (BitVec.ofFin x : Nibble) ++ (BitVec.ofFin y : Nibble) ++ n

/-- The word of an instruction (R94, R95). -/
def encode : Instr → Word
  | .sys nnn => encodeA 0x0 nnn
  | .jp nnn => encodeA 0x1 nnn
  | .call nnn => encodeA 0x2 nnn
  | .seImm x kk => encodeXK 0x3 x kk
  | .sneImm x kk => encodeXK 0x4 x kk
  | .seReg x y ign => encodeXYN 0x5 x y ign
  | .ldImm x kk => encodeXK 0x6 x kk
  | .addImm x kk => encodeXK 0x7 x kk
  | .ldReg x y => encodeXYN 0x8 x y 0x0
  | .orReg x y => encodeXYN 0x8 x y 0x1
  | .andReg x y => encodeXYN 0x8 x y 0x2
  | .xorReg x y => encodeXYN 0x8 x y 0x3
  | .addReg x y => encodeXYN 0x8 x y 0x4
  | .subReg x y => encodeXYN 0x8 x y 0x5
  | .shr x y => encodeXYN 0x8 x y 0x6
  | .subn x y => encodeXYN 0x8 x y 0x7
  | .shl x y => encodeXYN 0x8 x y 0xE
  | .sneReg x y ign => encodeXYN 0x9 x y ign
  | .ldIndex nnn => encodeA 0xA nnn
  | .jpV0 nnn => encodeA 0xB nnn
  | .rnd x kk => encodeXK 0xC x kk
  | .drw x y n => encodeXYN 0xD x y n
  | .skp x => encodeXK 0xE x 0x9E
  | .sknp x => encodeXK 0xE x 0xA1
  | .ldFromDt x => encodeXK 0xF x 0x07
  | .ldKey x => encodeXK 0xF x 0x0A
  | .ldToDt x => encodeXK 0xF x 0x15
  | .ldToSt x => encodeXK 0xF x 0x18
  | .addIndex x => encodeXK 0xF x 0x1E
  | .ldGlyph x => encodeXK 0xF x 0x29
  | .ldBcd x => encodeXK 0xF x 0x33
  | .storeRegs x => encodeXK 0xF x 0x55
  | .loadRegs x => encodeXK 0xF x 0x65

/-- The bytes of an instruction as they stand in memory (R61, R90). -/
def encodeBytes (i : Instr) : List Byte := bytesOfWord (encode i)

/-! ### The opcode map -/

/-- A row of the opcode map: a word `w` is of this row when `w &&& mask = pattern` (R95). -/
structure OpcodeRow where
  mask : Word
  pattern : Word
  deriving DecidableEq, Repr

/-- The word is of the row (R95). -/
def OpcodeRow.isOf (r : OpcodeRow) (w : Word) : Bool := w &&& r.mask == r.pattern

/-- Families 0 to 7 of the opcode map (R95). -/
def opcodeRowsLow : List OpcodeRow :=
  [⟨0xF000, 0x0000⟩, ⟨0xF000, 0x1000⟩, ⟨0xF000, 0x2000⟩, ⟨0xF000, 0x3000⟩,
   ⟨0xF000, 0x4000⟩, ⟨0xF000, 0x5000⟩, ⟨0xF000, 0x6000⟩, ⟨0xF000, 0x7000⟩]

/-- Family 8 of the opcode map (R95). -/
def opcodeRowsAlu : List OpcodeRow :=
  [⟨0xF00F, 0x8000⟩, ⟨0xF00F, 0x8001⟩, ⟨0xF00F, 0x8002⟩, ⟨0xF00F, 0x8003⟩, ⟨0xF00F, 0x8004⟩,
   ⟨0xF00F, 0x8005⟩, ⟨0xF00F, 0x8006⟩, ⟨0xF00F, 0x8007⟩, ⟨0xF00F, 0x800E⟩]

/-- Families 9 to D of the opcode map (R95). -/
def opcodeRowsHigh : List OpcodeRow :=
  [⟨0xF000, 0x9000⟩, ⟨0xF000, 0xA000⟩, ⟨0xF000, 0xB000⟩, ⟨0xF000, 0xC000⟩, ⟨0xF000, 0xD000⟩]

/-- Families E and F of the opcode map (R95). -/
def opcodeRowsSelector : List OpcodeRow :=
  [⟨0xF0FF, 0xE09E⟩, ⟨0xF0FF, 0xE0A1⟩, ⟨0xF0FF, 0xF007⟩, ⟨0xF0FF, 0xF00A⟩, ⟨0xF0FF, 0xF015⟩, ⟨0xF0FF, 0xF018⟩,
   ⟨0xF0FF, 0xF01E⟩, ⟨0xF0FF, 0xF029⟩, ⟨0xF0FF, 0xF033⟩, ⟨0xF0FF, 0xF055⟩, ⟨0xF0FF, 0xF065⟩]

/-- The 33 rows of the opcode map, in its order (R95). -/
def opcodeRows : List OpcodeRow :=
  opcodeRowsLow ++ opcodeRowsAlu ++ opcodeRowsHigh ++ opcodeRowsSelector

/-- The row an instruction stands in (R95). -/
def rowOf : Instr → OpcodeRow
  | .sys _ => ⟨0xF000, 0x0000⟩
  | .jp _ => ⟨0xF000, 0x1000⟩
  | .call _ => ⟨0xF000, 0x2000⟩
  | .seImm _ _ => ⟨0xF000, 0x3000⟩
  | .sneImm _ _ => ⟨0xF000, 0x4000⟩
  | .seReg _ _ _ => ⟨0xF000, 0x5000⟩
  | .ldImm _ _ => ⟨0xF000, 0x6000⟩
  | .addImm _ _ => ⟨0xF000, 0x7000⟩
  | .ldReg _ _ => ⟨0xF00F, 0x8000⟩
  | .orReg _ _ => ⟨0xF00F, 0x8001⟩
  | .andReg _ _ => ⟨0xF00F, 0x8002⟩
  | .xorReg _ _ => ⟨0xF00F, 0x8003⟩
  | .addReg _ _ => ⟨0xF00F, 0x8004⟩
  | .subReg _ _ => ⟨0xF00F, 0x8005⟩
  | .shr _ _ => ⟨0xF00F, 0x8006⟩
  | .subn _ _ => ⟨0xF00F, 0x8007⟩
  | .shl _ _ => ⟨0xF00F, 0x800E⟩
  | .sneReg _ _ _ => ⟨0xF000, 0x9000⟩
  | .ldIndex _ => ⟨0xF000, 0xA000⟩
  | .jpV0 _ => ⟨0xF000, 0xB000⟩
  | .rnd _ _ => ⟨0xF000, 0xC000⟩
  | .drw _ _ _ => ⟨0xF000, 0xD000⟩
  | .skp _ => ⟨0xF0FF, 0xE09E⟩
  | .sknp _ => ⟨0xF0FF, 0xE0A1⟩
  | .ldFromDt _ => ⟨0xF0FF, 0xF007⟩
  | .ldKey _ => ⟨0xF0FF, 0xF00A⟩
  | .ldToDt _ => ⟨0xF0FF, 0xF015⟩
  | .ldToSt _ => ⟨0xF0FF, 0xF018⟩
  | .addIndex _ => ⟨0xF0FF, 0xF01E⟩
  | .ldGlyph _ => ⟨0xF0FF, 0xF029⟩
  | .ldBcd _ => ⟨0xF0FF, 0xF033⟩
  | .storeRegs _ => ⟨0xF0FF, 0xF055⟩
  | .loadRegs _ => ⟨0xF0FF, 0xF065⟩

/-! ### The assembly spelling -/

/-- One hexadecimal digit, as the spec writes them. -/
def hexDigit (n : Nat) : String :=
  match n with
  | 0 => "0" | 1 => "1" | 2 => "2" | 3 => "3" | 4 => "4" | 5 => "5" | 6 => "6" | 7 => "7"
  | 8 => "8" | 9 => "9" | 10 => "A" | 11 => "B" | 12 => "C" | 13 => "D" | 14 => "E" | _ => "F"

/-- A number in hexadecimal with `0x` and `k` digits (R102). -/
def hexNumber : Nat → Nat → String
  | 0, _ => "0x"
  | k + 1, n => hexNumber k (n / 16) ++ hexDigit (n % 16)

/-- `V0` to `VF` (R20, R102). -/
def regName (r : Reg) : String := "V" ++ hexDigit r.val

/-- The assembly text of an instruction (R102; PRESUMED names that carry no meaning, the spec's G3, log 10). -/
def assembly : Instr → String
  | .sys nnn => "SYS " ++ hexNumber 3 nnn.toNat
  | .jp nnn => "JP " ++ hexNumber 3 nnn.toNat
  | .call nnn => "CALL " ++ hexNumber 3 nnn.toNat
  | .seImm x kk => "SE " ++ regName x ++ ", " ++ hexNumber 2 kk.toNat
  | .sneImm x kk => "SNE " ++ regName x ++ ", " ++ hexNumber 2 kk.toNat
  | .seReg x y _ => "SE " ++ regName x ++ ", " ++ regName y
  | .ldImm x kk => "LD " ++ regName x ++ ", " ++ hexNumber 2 kk.toNat
  | .addImm x kk => "ADD " ++ regName x ++ ", " ++ hexNumber 2 kk.toNat
  | .ldReg x y => "LD " ++ regName x ++ ", " ++ regName y
  | .orReg x y => "OR " ++ regName x ++ ", " ++ regName y
  | .andReg x y => "AND " ++ regName x ++ ", " ++ regName y
  | .xorReg x y => "XOR " ++ regName x ++ ", " ++ regName y
  | .addReg x y => "ADD " ++ regName x ++ ", " ++ regName y
  | .subReg x y => "SUB " ++ regName x ++ ", " ++ regName y
  | .shr x y => "SHR " ++ regName x ++ ", " ++ regName y
  | .subn x y => "SUBN " ++ regName x ++ ", " ++ regName y
  | .shl x y => "SHL " ++ regName x ++ ", " ++ regName y
  | .sneReg x y _ => "SNE " ++ regName x ++ ", " ++ regName y
  | .ldIndex nnn => "LD I, " ++ hexNumber 3 nnn.toNat
  | .jpV0 nnn => "JP V0, " ++ hexNumber 3 nnn.toNat
  | .rnd x kk => "RND " ++ regName x ++ ", " ++ hexNumber 2 kk.toNat
  | .drw x y n => "DRW " ++ regName x ++ ", " ++ regName y ++ ", " ++ hexNumber 1 n.toNat
  | .skp x => "SKP " ++ regName x
  | .sknp x => "SKNP " ++ regName x
  | .ldFromDt x => "LD " ++ regName x ++ ", DT"
  | .ldKey x => "LD " ++ regName x ++ ", K"
  | .ldToDt x => "LD DT, " ++ regName x
  | .ldToSt x => "LD ST, " ++ regName x
  | .addIndex x => "ADD I, " ++ regName x
  | .ldGlyph x => "LD F, " ++ regName x
  | .ldBcd x => "LD B, " ++ regName x
  | .storeRegs x => "LD [I], " ++ regName x
  | .loadRegs x => "LD " ++ regName x ++ ", [I]"

/-! ### The host's question: the instruction of a word numbered as the opcode table numbers it -/

/-- The instruction the decoder reads from bits `w` of an instruction whose table row has `nbits` bits. Every
instruction here is one 16-bit word, so the bits above `nbits` are zeros of that word; it is laid out high byte first. -/
def decodeTableWord (nbits w : Nat) : Option Instr :=
  match decode (bytesOfWord (BitVec.ofNat 16 (w % 2 ^ nbits))) with
  | .ok (i, _) => some i
  | .error _ => none

end Sys2Proof
end

