-- ==== Sys2Proof/Machine/State.lean ====
section
/-! DEFINITION. The state of the Chip8le core (`spec/10_state.md`), the reasons a step can stop, and the state after
reset (R40, R300). State is plain data. -/

namespace Sys2Proof.Machine

/-- The causes of a fault, the seven of R270, each with what it records. `raise` stores one in `State.fault`; `step`
answers one as its outcome when the core is faulted and the host has no further move, since the core then has no step
(R272). Every one is SAFE: the spec makes the condition fatal, and the model stops where the hardware stops. -/
inductive Fault where
  /-- code 1: dispatch of a word of family 0, 2 or B, or of an unlisted sub-case; raised by `execSys`, `execCall`,
  `execJpV0` and `dispatchWord` (R210 to R213). Safe. -/
  | unimplemented (w : Word)
  /-- code 2: an access to memory at 4096 or more; raised by `memRead`, `memWrite` and `fetch` (R63). Safe. -/
  | outOfBoundsMemory (addr : Nat)
  /-- code 3: a cell off the display; raised by `dispWrite` (R65). Safe. -/
  | outOfBoundsDisplay (x y : Nat)
  /-- code 4: a key index above 15; raised by `execSkp` and `execSknp` (R182). Safe. -/
  | outOfBoundsKey (k : Byte)
  /-- code 5: no one raises it, because nothing pushes or pops (R26, R286). Safe. -/
  | outOfBoundsStack
  /-- code 6: no one raises it, because a register index is a 4-bit field (R20, R286). Safe. -/
  | outOfBoundsRegister
  /-- code 7: a family outside the table; raised by `dispatchWord` for a rejection that no word has (R100). Safe. -/
  | internalConsistency
  deriving DecidableEq, Repr

/-- Why the model has no step. Each refuses a move of the HOST for which the spec gives no step; no instruction is
refused. Every one is SAFE: the model stops where the spec gives no run. -/
inductive Refusal where
  /-- `exec`'s arm of an instruction that has no meaning yet; no arm answers it now. Safe. -/
  | notModelled (mnemonic : String)
  /-- `hostTick`: the host raised `Tick` while a tick is in progress (R230, R244, R245). Safe. -/
  | tickInProgress
  /-- `hostLoad`: the host loaded an image a second time or after the first tick (R244, R246, R301). Safe. -/
  | loadNotAllowed
  /-- `hostReset`: the host raised `Reset` inside a tick, or after the first tick of a core that is neither stopped nor
  faulted (R244, R245, R251). Safe. -/
  | resetNotAllowed
  /-- `hostLoad`: the image is longer than 3584 bytes (R246). Safe. -/
  | imageTooLong
  deriving DecidableEq, Repr

/-- Memory: the (address, byte) pairs that differ from the reset contents, by rising address (log 30). -/
abbrev Memory := List Host.Cell

/-- The display grid: its lit cells as (row, column) pairs, rising; every other cell is unlit (R29, log 27). -/
abbrev Display := List (Nat × Nat)

/-- Where the core is in its tick (R35, R244): `budget` and `in_tick` of R40. -/
inductive TickPhase where
  /-- not in a tick -/
  | idle
  /-- in the cycle loop with `budget` cycle-units left -/
  | looping (budget : Nat)
  /-- the loop has been left early with `budget` unused; the end-of-tick actions are next -/
  | left (budget : Nat)
  deriving DecidableEq, Repr

/-- Which host events of the boot order have happened since `Reset` (R245, R246, R301). The MODEL's own (log 3). -/
inductive BootPhase where
  /-- reset, no image loaded, no tick raised -/
  | fresh
  /-- an image has been loaded, no tick raised -/
  | loaded
  /-- a tick has been raised -/
  | started
  deriving DecidableEq, Repr

/-- One move of the host (R245). -/
inductive HostMove where
  /-- the host does nothing here and the core takes its next step, if it is in a tick -/
  | pass
  /-- `Reset` (R251) -/
  | reset
  /-- `Load(image)` (R246) -/
  | load (image : List Byte)
  /-- `Tick` (R249) -/
  | tick
  /-- `KeyDown(k)` (R247) -/
  | keyDown (k : Key)
  /-- `KeyUp(k)` (R248) -/
  | keyUp (k : Key)
  /-- `Stop` (R250) -/
  | stop
  deriving DecidableEq, Repr

/-- An output event of the core (R245). -/
inductive Output where
  /-- `Frame(disp)`, the display handed to the renderer (R243) -/
  | frame (grid : Display)
  /-- `Fault(cause)` (R252, R271) -/
  | fault (cause : Fault)
  deriving DecidableEq, Repr

/-- The scheduler states of R34, a function of the state (`State.sched`). -/
inductive SchedState where
  | running
  | awaitingInput
  | stopped
  deriving DecidableEq, Repr

/-- The whole state of the machine. -/
structure State where
  /-- the configuration, which no step changes (R4, R39) -/
  cfg : Config
  /-- `V[0]` to `V[15]`; `V[15]` is the flag register (R20, R21) -/
  regs : Vector Byte 16
  /-- `mem` (R22) -/
  mem : Memory
  /-- `I` (R24) -/
  index : Word
  /-- `pc` (R25) -/
  pc : Word
  /-- `stack[0]` to `stack[255]` (R26) -/
  stack : Vector Word 256
  /-- `sp`, 0 to 256 (R26) -/
  sp : Fin 257
  /-- `dt` (R27) -/
  dt : Byte
  /-- `st` (R28) -/
  st : Byte
  /-- `disp` (R29) -/
  disp : Display
  /-- `held_mask` (R30) -/
  heldMask : Word
  /-- `pressed_mask` (R31) -/
  pressedMask : Word
  /-- `await_key` (R32) -/
  awaitKey : Option Reg
  /-- `stopped` (R33) -/
  stopped : Bool
  /-- `budget` and `in_tick` (R35) -/
  tick : TickPhase
  /-- `fault` (R36) -/
  fault : Option Fault
  /-- MODEL: how far the boot order has gone (log 3) -/
  boot : BootPhase
  /-- MODEL: how many random bytes have been drawn (log 6) -/
  draws : Nat
  /-- MODEL: the host's next moves, oldest first (log 2) -/
  hostMoves : List HostMove
  /-- MODEL: the output events so far, newest first (log 7) -/
  outputs : List Output
  deriving DecidableEq, Repr

/-- The state right after `Reset` (R40, R300), with the default configuration, no host move waiting and no output. -/
def State.reset : State where
  cfg := Config.default
  regs := Vector.replicate 16 0
  mem := []
  index := 0
  pc := 512
  stack := Vector.replicate 256 0
  sp := 0
  dt := 0
  st := 0
  disp := []
  heldMask := 0
  pressedMask := 0
  awaitKey := none
  stopped := false
  tick := .idle
  fault := none
  boot := .fresh
  draws := 0
  hostMoves := []
  outputs := []

/-- The scheduler state, a function of `stopped` and `await_key` (R34). -/
def State.sched (s : State) : SchedState :=
  if s.stopped then .stopped else if s.awaitKey.isSome then .awaitingInput else .running

end Sys2Proof.Machine
end

