-- ==== Sys2Proof/Machine/Ops.lean ====
section
/-! DEFINITION. The named operations over the state: registers, `pc`, memory, the display, raising a fault, the random
draw (`spec/10_state.md`, `spec/20_memory.md`, `spec/60_exceptions.md`). Every meaning is built from these. -/

namespace Sys2Proof.Machine

/-! ### Registers and single fields -/

/-- `V[r]` (R7, R20). -/
def State.reg (s : State) (r : Reg) : Byte := s.regs[r]

/-- `V[r] <- v` (R7, R20). -/
def State.setReg (s : State) (r : Reg) (v : Byte) : State := { s with regs := s.regs.set r v }

/-- `pc <- a` (R8, R25). -/
def State.setPc (s : State) (a : Word) : State := { s with pc := a }

/-- `I <- a` (R24). -/
def State.setIndex (s : State) (a : Word) : State := { s with index := a }

/-- `dt <- v` (R27). -/
def State.setDt (s : State) (v : Byte) : State := { s with dt := v }

/-- `st <- v` (R28). -/
def State.setSt (s : State) (v : Byte) : State := { s with st := v }

/-- `await_key <- k` (R32). -/
def State.setAwait (s : State) (k : Option Reg) : State := { s with awaitKey := k }

/-- The phase of the tick: `budget` and `in_tick` (R35, R244). -/
def State.setTick (s : State) (p : TickPhase) : State := { s with tick := p }

/-- `pc <- pc + 2`: the scheduler's advance, and a taken skip's own 2 (R125, R238). -/
def State.advance (s : State) : State := s.setPc (s.pc + 2)

/-- The advance of a skip: 2, and 2 more when the condition holds (R25, R125). -/
def State.skipIf (s : State) (c : Bool) : State := if c then s.advance.advance else s.advance

/-! ### Memory as a list -/

/-- The byte at `a`: what is listed, else the reset contents of `a` (R22, R66; log 30). -/
def Memory.read (c : Config) (m : Memory) (a : Nat) : Byte :=
  match m.find? (fun e => e.1 == a) with
  | some e => e.2
  | none => c.resetByte a

/-- Put one cell before the first cell of a higher address. -/
def Memory.insertCell (e : Host.Cell) : Memory → Memory
  | [] => [e]
  | d :: m => if e.1 < d.1 then e :: d :: m else d :: Memory.insertCell e m

/-- `mem[a] <- v` in canonical form: the cell is listed unless `v` is what an unlisted `a` reads as (R64; log 30). -/
def Memory.write (c : Config) (m : Memory) (a : Nat) (v : Byte) : Memory :=
  if v = c.resetByte a then m.filter (fun e => e.1 != a)
  else Memory.insertCell (a, v) (m.filter (fun e => e.1 != a))

/-- The canonical form: addresses strictly rising and below 4096, no cell equal to its reset contents. -/
abbrev Memory.wf (c : Config) (m : Memory) : Prop :=
  m.Pairwise (fun d e => d.1 < e.1) ∧ ∀ e ∈ m, e.1 < memSize ∧ e.2 ≠ c.resetByte e.1

/-- `mem[a]` (R22). -/
def State.byteAt (s : State) (a : Nat) : Byte := Memory.read s.cfg s.mem a

/-- `mem[a] <- v`, for an address that is in bounds (R64). -/
def State.setByte (s : State) (a : Nat) (v : Byte) : State := { s with mem := Memory.write s.cfg s.mem a v }

/-! ### The display as a list of lit cells -/

/-- The order of the display's cells: by row, then by column. -/
abbrev Display.before (p q : Nat × Nat) : Prop := p.1 < q.1 ∨ (p.1 = q.1 ∧ p.2 < q.2)

/-- Put one lit cell before the first cell that comes after it. -/
def Display.insertCell (p : Nat × Nat) : Display → Display
  | [] => [p]
  | q :: d => if Display.before p q then p :: q :: d else q :: Display.insertCell p d

/-- `disp[y][x]` (R29). -/
def Display.read (d : Display) (x y : Nat) : Bool := d.contains (y, x)

/-- `disp[y][x] <- b`, an overwrite (R65, R170). -/
def Display.write (d : Display) (x y : Nat) (b : Bool) : Display :=
  if b then Display.insertCell (y, x) (d.filter (fun q => q != (y, x))) else d.filter (fun q => q != (y, x))

/-- The canonical form: cells in strictly rising order, all on the grid. -/
abbrev Display.wf (c : Config) (d : Display) : Prop :=
  d.Pairwise Display.before ∧ ∀ q ∈ d, q.1 < c.dispH ∧ q.2 < c.dispW

/-- `disp[y][x]` (R29). -/
def State.cellAt (s : State) (x y : Nat) : Bool := Display.read s.disp x y

/-- `disp[y][x] <- b`, for a cell that is on the grid (R65). -/
def State.setCell (s : State) (x y : Nat) (b : Bool) : State := { s with disp := Display.write s.disp x y b }

/-! ### Raising a fault -/

/-- `raise c` (R271): the cause is recorded, the output `Fault(c)` is emitted, and the tick is abandoned without its
end-of-tick actions (R240). `pc` stays at the faulting instruction (R273). There is no handler and nothing is saved
(R272); the only way out is `Reset` (R251). -/
def State.raise (s : State) (c : Fault) : State :=
  { s with fault := some c, tick := .idle, outputs := .fault c :: s.outputs }

/-! ### Accesses that may raise -/

/-- The outcome of accesses in the order written: done with a value, or stopped by a `raise` with the accesses before
it performed (R8, R70, R273). -/
inductive Attempt (α : Type) where
  /-- every access so far succeeded -/
  | done (value : α) (s : State)
  /-- an access raised `c` in the state `s` -/
  | raised (c : Fault) (s : State)
  deriving DecidableEq, Repr

/-- Go on after `done`; a `raise` skips everything after it (R8). -/
def Attempt.andThen {α β : Type} (m : Attempt α) (f : α → State → Attempt β) : Attempt β :=
  match m with
  | .done a s => f a s
  | .raised c s => .raised c s

/-- Do `f` for each number of the list in turn; a `raise` skips the rest (R8, R70). -/
def forEach (f : Nat → State → Attempt Unit) : List Nat → State → Attempt Unit
  | [], s => .done () s
  | k :: ks, s => (f k s).andThen (fun _ t => forEach f ks t)

/-- `MemRead(addr, 1)` (R62, R63). -/
def memRead (a : Nat) (s : State) : Attempt Byte :=
  if memSize ≤ a then .raised (.outOfBoundsMemory a) s else .done (s.byteAt a) s

/-- `MemRead(addr, 2)`, big-endian (R61, R62, R63). -/
def memReadWord (a : Nat) (s : State) : Attempt Word :=
  if memSize ≤ a + 1 then .raised (.outOfBoundsMemory (a + 1)) s
  else .done (wordOfBytes (s.byteAt a) (s.byteAt (a + 1))) s

/-- `MemWrite(addr, 1, v)` (R64). -/
def memWrite (a : Nat) (v : Byte) (s : State) : Attempt Unit :=
  if memSize ≤ a then .raised (.outOfBoundsMemory a) s else .done () (s.setByte a v)

/-- `DispWrite(x, y, b)` (R65). -/
def dispWrite (x y : Nat) (b : Bool) (s : State) : Attempt Unit :=
  if s.cfg.dispW ≤ x ∨ s.cfg.dispH ≤ y then .raised (.outOfBoundsDisplay x y) s else .done () (s.setCell x y b)

/-- Fetch: the word at `pc` (R237). -/
def fetch (s : State) : Attempt Word := memReadWord s.pc.toNat s

/-! ### How a handler ends -/

/-- A handler that returned normally without rerouting: the scheduler advances `pc` (R238). -/
def finish (s : State) : Host.Outcome State Fault Refusal := .next s.advance

/-- A handler that raised: the fault is taken (R240, R271). -/
def takeFault (c : Fault) (s : State) : Host.Outcome State Fault Refusal := .next (s.raise c)

/-- A handler made of accesses: advance when all succeeded, else take the fault where it was raised (R238, R240). -/
def conclude (m : Attempt Unit) : Host.Outcome State Fault Refusal :=
  match m with
  | .done _ s => finish s
  | .raised c s => takeFault c s

/-! ### The random draw -/

/-- `draw_random_byte()`: the free byte of this draw (R8, R161, log 6). DESIGN CHOICE: it depends on the count of draws
alone, so two runs at equal counts draw equal bytes, on which the spec says nothing (R161, N22; log 6). -/
def State.randomByte (s : State) : Byte := Config.randomByte s.draws

/-- Count one draw, so that the next one is another free byte (R161, U10). -/
def State.countDraw (s : State) : State := { s with draws := s.draws + 1 }

end Sys2Proof.Machine
end

