-- ==== Sys2Proof/Machine/Flags.lean ====
section
/-! DEFINITION. The results and flags of the five ALU operations that write `VF` (`spec/42_alu.md` R144 to R149), each
computed in unbounded integers and then reduced. -/

namespace Sys2Proof.Machine

/-- `s mod 256` of the exact sum `s = a + b` (R144; R131 too). -/
def addResult (a b : Byte) : Byte := BitVec.ofNat 8 (a.toNat + b.toNat)

/-- 1 if the exact sum passes 255, else 0 (R144). -/
def carryFlag (a b : Byte) : Byte := if a.toNat + b.toNat > 255 then 1 else 0

/-- The exact difference `a - b`, -255 to 255 (R145, R147). -/
def exactDiff (a b : Byte) : Int := (a.toNat : Int) - (b.toNat : Int)

/-- `d mod 256` of the exact difference (R145, R147). -/
def subResult (a b : Byte) : Byte := BitVec.ofInt 8 (exactDiff a b)

/-- 1 if the exact difference is strictly positive, else 0: 0 on equal operands (R145, R147, R313). -/
def positiveFlag (a b : Byte) : Byte := if exactDiff a b > 0 then 1 else 0

/-- `s >> 1` (R146). -/
def shrResult (a : Byte) : Byte := a >>> 1

/-- The bit shifted out, `s & 1` (R146). -/
def shrFlag (a : Byte) : Byte := a &&& 1

/-- `(s << 1) mod 256` (R148). -/
def shlResult (a : Byte) : Byte := a <<< 1

/-- `(s & 0x80) >> 4`: 8 or 0, never 1 (R148, C9). -/
def shlFlag (a : Byte) : Byte := (a &&& 0x80) >>> 4

/-- Write the result to `V[X]` and then the flag to `V[15]`, so that with `X = 15` the flag remains (R149). -/
def State.setResultFlag (s : State) (x : Reg) (result flag : Byte) : State :=
  (s.setReg x result).setReg flagReg flag

end Sys2Proof.Machine
end

