-- ==== Sys2Proof/Machine/Operands.lean ====
section
/-! DEFINITION. The operand forms: what the fields of an instruction stand for (`spec/30_encoding.md` R93 and the
instruction rules). -/

namespace Sys2Proof.Machine

/-- `NNN` as a value of `pc` or `I`: an absolute byte address, bits 15 to 12 zero (R93, R120, R160). -/
def addrOperand (nnn : Addr12) : Word := nnn.setWidth 16

/-- `src` of the two shifts: `V[X]` or `V[Y]` as `SHIFT_SRC` says (R150). -/
def shiftSource (x y : Reg) (s : State) : Byte :=
  match s.cfg.shiftSrc with
  | .x => s.reg x
  | .y => s.reg y

/-- The effective address `I + off`: an exact sum, reduced by nothing (R77). -/
def indexAddr (s : State) (off : Nat) : Nat := s.index.toNat + off

/-- `I + V[X]` modulo 65536 (R194). -/
def indexPlus (x : Reg) (s : State) : Word := BitVec.ofNat 16 (s.index.toNat + (s.reg x).toNat)

/-- The address of the glyph of `V[X]`: `V[X] * 5`, with no masking (R195). -/
def glyphAddr (x : Reg) (s : State) : Word := BitVec.ofNat 16 ((s.reg x).toNat * glyphHeight)

/-- The hundreds digit of a byte (R196). -/
def bcdHundreds (v : Byte) : Byte := BitVec.ofNat 8 (v.toNat / 100)

/-- The tens digit of a byte (R196). -/
def bcdTens (v : Byte) : Byte := BitVec.ofNat 8 (v.toNat / 10 % 10)

/-- The ones digit of a byte (R196). -/
def bcdOnes (v : Byte) : Byte := BitVec.ofNat 8 (v.toNat % 10)

/-- Bit `col` of a sprite byte, column 0 being the most significant (R170). -/
def spriteBit (b : Byte) (col : Nat) : Bool := b.getLsbD (7 - col)

/-- Whether key `k` is in a mask (R30, R180). -/
def keyIn (mask : Word) (k : Nat) : Bool := mask.getLsbD k

/-- `lowest_set_index(m)`: the least `k` with bit `k` set (R6); 0 for the empty mask, where nothing asks. -/
def lowestSetIndex (m : Word) : Key := ((List.finRange 16).find? (fun k => m.getLsbD k.val)).getD 0

end Sys2Proof.Machine
end

