-- ==== Sys2Proof/Machine/Alu.lean ====
section
/-! DEFINITION. Register-to-register ALU (`spec/42_alu.md`): family 8. Sources are read first, then the result is written,
then, for sub-opcodes 4 to 7 and E, the flag (R149). -/

namespace Sys2Proof.Machine

/-- `LD Vx, Vy` (R140). -/
def execLdReg (x y : Reg) (s : State) : Host.Outcome State Fault Refusal :=
  finish (s.setReg x (s.reg y))

/-- `OR Vx, Vy` (R141); `VF` is left as it was. -/
def execOrReg (x y : Reg) (s : State) : Host.Outcome State Fault Refusal :=
  finish (s.setReg x (s.reg x ||| s.reg y))

/-- `AND Vx, Vy` (R142); `VF` is left as it was. -/
def execAndReg (x y : Reg) (s : State) : Host.Outcome State Fault Refusal :=
  finish (s.setReg x (s.reg x &&& s.reg y))

/-- `XOR Vx, Vy` (R143); `VF` is left as it was. -/
def execXorReg (x y : Reg) (s : State) : Host.Outcome State Fault Refusal :=
  finish (s.setReg x (s.reg x ^^^ s.reg y))

/-- `ADD Vx, Vy` (R144): flag 1 when the sum passes 255. -/
def execAddReg (x y : Reg) (s : State) : Host.Outcome State Fault Refusal :=
  finish (s.setResultFlag x (addResult (s.reg x) (s.reg y)) (carryFlag (s.reg x) (s.reg y)))

/-- `SUB Vx, Vy` (R145): flag 1 when `V[X] > V[Y]`, 0 on equal operands. -/
def execSubReg (x y : Reg) (s : State) : Host.Outcome State Fault Refusal :=
  finish (s.setResultFlag x (subResult (s.reg x) (s.reg y)) (positiveFlag (s.reg x) (s.reg y)))

/-- `SHR Vx, Vy` (R146, R150): flag the old bit 0 of the source. -/
def execShr (x y : Reg) (s : State) : Host.Outcome State Fault Refusal :=
  finish (s.setResultFlag x (shrResult (shiftSource x y s)) (shrFlag (shiftSource x y s)))

/-- `SUBN Vx, Vy` (R147): `V[Y] - V[X]`, flag 1 when `V[Y] > V[X]`. -/
def execSubn (x y : Reg) (s : State) : Host.Outcome State Fault Refusal :=
  finish (s.setResultFlag x (subResult (s.reg y) (s.reg x)) (positiveFlag (s.reg y) (s.reg x)))

/-- `SHL Vx, Vy` (R148, R150): flag 8 when bit 7 of the source was 1, else 0. -/
def execShl (x y : Reg) (s : State) : Host.Outcome State Fault Refusal :=
  finish (s.setResultFlag x (shlResult (shiftSource x y s)) (shlFlag (shiftSource x y s)))

end Sys2Proof.Machine
end

