-- ==== Sys2Proof/Machine/ConstantOps.lean ====
section
/-! DEFINITION. Set-constant and add-constant (`spec/41_constant_ops.md`): families 6 and 7. -/

namespace Sys2Proof.Machine

/-- `LD Vx, kk` (R130): `V[X] <- KK`. -/
def execLdImm (x : Reg) (kk : Byte) (s : State) : Host.Outcome State Fault Refusal :=
  finish (s.setReg x kk)

/-- `ADD Vx, kk` (R131): `V[X] <- (V[X] + KK) mod 256`, no flag. -/
def execAddImm (x : Reg) (kk : Byte) (s : State) : Host.Outcome State Fault Refusal :=
  finish (s.setReg x (addResult (s.reg x) kk))

end Sys2Proof.Machine
end

