-- ==== Sys2Proof/Machine/Draw.lean ====
section
/-! DEFINITION. Draw sprite (`spec/44_draw.md`): family D. -/

namespace Sys2Proof.Machine

/-- The eight cell writes of one sprite row, the most significant bit first (R170). -/
def drawRowCells (x0 y : Nat) (b : Byte) (s : State) : Attempt Unit :=
  forEach (fun col t => dispWrite (x0 + col) y (spriteBit b col) t) (List.range 8) s

/-- One sprite row: the read of its byte, then its cell writes (R70, R170). -/
def drawRow (x0 y0 row : Nat) (s : State) : Attempt Unit :=
  (memRead (indexAddr s row) s).andThen (fun b t => drawRowCells x0 (y0 + row) b t)

/-- `DRW Vx, Vy, n` (R170 to R172): overwrite, no flag, no clipping; `V[X]` and `V[Y]` are read once, first. -/
def execDrw (x y : Reg) (n : Nibble) (s : State) : Host.Outcome State Fault Refusal :=
  conclude (forEach (drawRow (s.reg x).toNat (s.reg y).toNat) (List.range n.toNat) s)

end Sys2Proof.Machine
end

