-- ==== Sys2Proof/Machine/IndexRandom.lean ====
section
/-! DEFINITION. Set-index and random (`spec/43_index_random.md`): families A and C. -/

namespace Sys2Proof.Machine

/-- `LD I, nnn` (R160). -/
def execLdIndex (nnn : Addr12) (s : State) : Host.Outcome State Fault Refusal :=
  finish (s.setIndex (addrOperand nnn))

/-- `RND Vx, kk` (R161): `V[X] <- r & KK`, `r` the free byte of this draw (log 6). -/
def execRnd (x : Reg) (kk : Byte) (s : State) : Host.Outcome State Fault Refusal :=
  finish (s.countDraw.setReg x (s.randomByte &&& kk))

end Sys2Proof.Machine
end

