-- ==== Sys2Proof/Machine/JumpSkip.lean ====
section
/-! DEFINITION. Jump and skip instructions (`spec/40_jump_and_skip.md`): families 1, 3, 4, 5 and 9. -/

namespace Sys2Proof.Machine

/-- `JP nnn` (R120): `pc <- NNN`, rerouted, so the scheduler adds nothing. -/
def execJp (nnn : Addr12) (s : State) : Host.Outcome State Fault Refusal :=
  .next (s.setPc (addrOperand nnn))

/-- `SE Vx, kk` (R121): skip when `V[X] = KK`. -/
def execSeImm (x : Reg) (kk : Byte) (s : State) : Host.Outcome State Fault Refusal :=
  .next (s.skipIf (s.reg x == kk))

/-- `SNE Vx, kk` (R122): skip when `V[X] != KK`. -/
def execSneImm (x : Reg) (kk : Byte) (s : State) : Host.Outcome State Fault Refusal :=
  .next (s.skipIf (s.reg x != kk))

/-- `SE Vx, Vy` (R123): skip when `V[X] = V[Y]`; the low nibble of the word is ignored (R98, log 15). -/
def execSeReg (x y : Reg) (_ign : Nibble) (s : State) : Host.Outcome State Fault Refusal :=
  .next (s.skipIf (s.reg x == s.reg y))

/-- `SNE Vx, Vy` (R124): skip when `V[X] != V[Y]`; the low nibble of the word is ignored (R98, log 15). -/
def execSneReg (x y : Reg) (_ign : Nibble) (s : State) : Host.Outcome State Fault Refusal :=
  .next (s.skipIf (s.reg x != s.reg y))

end Sys2Proof.Machine
end

