-- ==== Sys2Proof/Machine/KeySkip.lean ====
section
/-! DEFINITION. Skip on key (`spec/45_key_skip.md`): family E. -/

namespace Sys2Proof.Machine

/-- The test both key skips make: the key index is the whole of `V[X]`, and above 15 it raises (R182, log 19); else
skip when the key is held as `want` says. -/
def skipOnKey (x : Reg) (want : Bool) (s : State) : Host.Outcome State Fault Refusal :=
  if 15 < (s.reg x).toNat then takeFault (.outOfBoundsKey (s.reg x)) s
  else .next (s.skipIf (keyIn s.heldMask (s.reg x).toNat == want))

/-- `SKP Vx` (R180): skip when the key is held. -/
def execSkp (x : Reg) (s : State) : Host.Outcome State Fault Refusal := skipOnKey x true s

/-- `SKNP Vx` (R181): skip when the key is not held. -/
def execSknp (x : Reg) (s : State) : Host.Outcome State Fault Refusal := skipOnKey x false s

end Sys2Proof.Machine
end

