-- ==== Sys2Proof/Machine/TimerMemory.lean ====
section
/-! DEFINITION. The timer, key-wait, index and memory group (`spec/46_timer_memory_group.md`): family F. -/

namespace Sys2Proof.Machine

/-- `LD Vx, DT` (R190). -/
def execLdFromDt (x : Reg) (s : State) : Host.Outcome State Fault Refusal :=
  finish (s.setReg x s.dt)

/-- `LD Vx, K` (R191): only `await_key <- Some(X)`; the scheduler captures the key (R236). -/
def execLdKey (x : Reg) (s : State) : Host.Outcome State Fault Refusal :=
  finish (s.setAwait (some x))

/-- `LD DT, Vx` (R192). -/
def execLdToDt (x : Reg) (s : State) : Host.Outcome State Fault Refusal :=
  finish (s.setDt (s.reg x))

/-- `LD ST, Vx` (R193). -/
def execLdToSt (x : Reg) (s : State) : Host.Outcome State Fault Refusal :=
  finish (s.setSt (s.reg x))

/-- `ADD I, Vx` (R194): modulo 65536, no flag, no fault. -/
def execAddIndex (x : Reg) (s : State) : Host.Outcome State Fault Refusal :=
  finish (s.setIndex (indexPlus x s))

/-- `LD F, Vx` (R195): `I <- V[X] * 5`. -/
def execLdGlyph (x : Reg) (s : State) : Host.Outcome State Fault Refusal :=
  finish (s.setIndex (glyphAddr x s))

/-- `LD B, Vx` (R196): hundreds, tens and ones at `I`, `I + 1`, `I + 2`, in that order (R70). -/
def execLdBcd (x : Reg) (s : State) : Host.Outcome State Fault Refusal :=
  conclude ((memWrite (indexAddr s 0) (bcdHundreds (s.reg x)) s).andThen (fun _ t =>
    (memWrite (indexAddr s 1) (bcdTens (s.reg x)) t).andThen (fun _ u =>
      memWrite (indexAddr s 2) (bcdOnes (s.reg x)) u)))

/-- One step of the bulk store: `MemWrite(I + i, 1, V[i])` (R197). -/
def storeOne (i : Nat) (s : State) : Attempt Unit :=
  memWrite (indexAddr s i) (s.reg (Fin.ofNat 16 i)) s

/-- `LD [I], Vx` (R197): registers 0 to X, ascending; `I` is not changed. -/
def execStoreRegs (x : Reg) (s : State) : Host.Outcome State Fault Refusal :=
  conclude (forEach storeOne (List.range (x.val + 1)) s)

/-- One step of the bulk load: `V[i] <- MemRead(I + i, 1)` (R198). -/
def loadOne (i : Nat) (s : State) : Attempt Unit :=
  (memRead (indexAddr s i) s).andThen (fun b t => .done () (t.setReg (Fin.ofNat 16 i) b))

/-- `LD Vx, [I]` (R198): registers 0 to X, ascending; `I` is not changed. -/
def execLoadRegs (x : Reg) (s : State) : Host.Outcome State Fault Refusal :=
  conclude (forEach loadOne (List.range (x.val + 1)) s)

end Sys2Proof.Machine
end

