-- ==== Sys2Proof/Machine/Unimplemented.lean ====
section
/-! DEFINITION. Unimplemented families (`spec/47_unimplemented.md`): executing one raises `Unimplemented(w)` with the
instruction word, and changes nothing else (R214). -/

namespace Sys2Proof.Machine

/-- `SYS nnn`, with `CLS` and `RET` (R210). -/
def execSys (nnn : Addr12) (s : State) : Host.Outcome State Fault Refusal :=
  takeFault (.unimplemented (encode (.sys nnn))) s

/-- `CALL nnn` (R211). -/
def execCall (nnn : Addr12) (s : State) : Host.Outcome State Fault Refusal :=
  takeFault (.unimplemented (encode (.call nnn))) s

/-- `JP V0, nnn` (R212). -/
def execJpV0 (nnn : Addr12) (s : State) : Host.Outcome State Fault Refusal :=
  takeFault (.unimplemented (encode (.jpV0 nnn))) s

end Sys2Proof.Machine
end

