-- ==== Sys2Proof/Machine/Scheduler.lean ====
section
/-! DEFINITION. The tick scheduler (`spec/48_tick_scheduler.md` R230 to R244): dispatch of a fetched word, the small
steps TickStart, Iterate and TickEnd, and the whole tick as one procedure (R230). -/

namespace Sys2Proof.Machine

/-! ### Dispatch -/

/-- `Execute(w)` with the advance (R238): the one instruction the word is, else `Unimplemented(w)` for an unlisted
sub-case (R213); the rejection of a family outside the table, which no word has, would be `InternalConsistency` (R100). -/
def dispatchWord (w : Word) (s : State) : Host.Outcome State Fault Refusal :=
  match decodeWord w with
  | .ok i => exec i s
  | .error (.unlisted u) => takeFault (.unimplemented u) s
  | .error (.noFamily _) => takeFault .internalConsistency s

/-! ### The small steps (R244) -/

/-- `budget <- budget - 2` after an instruction that returned normally (R239). A raised fault has left the tick. -/
def State.charge (s : State) : State :=
  match s.tick with
  | .idle => s
  | .looping b => s.setTick (.looping (b - instrCost))
  | .left _ => s

/-- Deduct the cost of the instruction whose outcome this is (R239). -/
def chargeOutcome (o : Host.Outcome State Fault Refusal) : Host.Outcome State Fault Refusal :=
  match o with
  | .next s => .next s.charge
  | .fault c => .fault c
  | .refused r => .refused r

/-- Key capture (R236): the lowest pressed key goes to the latched register and the wait ends; `pressed_mask`, `pc` and
the budget stay. -/
def State.capture (s : State) (r : Reg) : State :=
  (s.setReg r (BitVec.ofNat 8 (lowestSetIndex s.pressedMask).val)).setAwait none

/-- Fetch, dispatch, advance and deduct, as one step (R237 to R239). -/
def fetchDispatch (s : State) : Host.Outcome State Fault Refusal :=
  match fetch s with
  | .raised c t => takeFault c t
  | .done w t => chargeOutcome (dispatchWord w t)

/-- One iteration of the cycle loop, in the order of R233: the stopped test (R234), the wait (R235, R236), and only
then the fetch. -/
def iterate (b : Nat) (s : State) : Host.Outcome State Fault Refusal :=
  if s.stopped then .next (s.setTick (.left b))
  else
    match s.awaitKey with
    | some r => if s.pressedMask = 0 then .next (s.setTick (.left b)) else .next (s.capture r)
    | none => fetchDispatch s

/-- The end-of-tick actions (R241 to R243): both timers down by 1 modulo 256, the pressed mask cleared, the frame
handed out. -/
def State.endOfTick (s : State) : State :=
  { s with dt := s.dt - 1, st := s.st - 1, pressedMask := 0, outputs := .frame s.disp :: s.outputs }

/-- `TickStart` (R231): nothing at all when faulted or stopped; else the loop with the full budget. That a tick has
been raised is recorded for the boot order (R245, R246). -/
def State.tickStart (s : State) : State :=
  if s.fault.isSome || s.stopped then { s with boot := .started }
  else { s with boot := .started, tick := .looping cyclesPerTick }

/-- The core's next step inside a tick (R244): an iteration while the budget can pay for an instruction (R232), else
`TickEnd`. Outside a tick, and after a fault, it has none and nothing changes (R230, R272). -/
def coreStep (s : State) : Host.Outcome State Fault Refusal :=
  if s.fault.isSome then .next s
  else
    match s.tick with
    | .idle => .next s
    | .looping b => if instrCost ≤ b then iterate b s else .next (s.endOfTick.setTick .idle)
    | .left _ => .next (s.endOfTick.setTick .idle)

/-! ### The tick as one procedure (R230) -/

/-- The cycle loop of R230 with budget `b`, for at most `fuel` iterations: it answers the state in which the loop was
left, by its condition, by a `break` or by a `raise`. -/
def tickLoop : Nat → Nat → State → Host.Outcome State Fault Refusal
  | 0, _, s => .next s
  | fuel + 1, b, s =>
    if b < instrCost then .next s
    else if s.stopped then .next s
    else
      match s.awaitKey with
      | some r => if s.pressedMask = 0 then .next s else tickLoop fuel b (s.capture r)
      | none =>
        match fetch s with
        | .raised c t => takeFault c t
        | .done w t =>
          match dispatchWord w t with
          | .next u => if u.fault.isSome then .next u else tickLoop fuel (b - instrCost) u
          | .fault c => .fault c
          | .refused r => .refused r

/-- Iterations that are always enough: four instructions, a key capture before each and after the last, and the one
that leaves the loop (R232, R236). -/
def tickFuel : Nat := 10

/-- `procedure Tick()` of R230, with no host event inside it. -/
def tickProcedure (s : State) : Host.Outcome State Fault Refusal :=
  if s.fault.isSome || s.stopped then .next s
  else
    match tickLoop tickFuel cyclesPerTick s with
    | .next t => if t.fault.isSome then .next t else .next t.endOfTick
    | .fault c => .fault c
    | .refused r => .refused r

end Sys2Proof.Machine
end

