-- ==== Sys2Proof/Machine/HostEvents.lean ====
section
/-! DEFINITION. The host interface (`spec/48_tick_scheduler.md` R245 to R252): what each move of the host does, and the
next step of the machine, the host's move if one waits, else the core's. -/

namespace Sys2Proof.Machine

/-- The mask with only bit `k` (R30). -/
def keyBit (k : Key) : Word := 1#16 <<< k.val

/-- `Reset` (R251, R300): every piece of state at its reset value. What is not state of the core stays: the
configuration, the count of draws, the host's further moves and the outputs already emitted (log 28). -/
def State.doReset (s : State) : State :=
  { State.reset with cfg := s.cfg, draws := s.draws, hostMoves := s.hostMoves, outputs := s.outputs }

/-- Whether the host may raise `Reset`: in no tick (R244), and either before the run, that is before the first `Tick`
(R244, R245), or to start a new run of a stopped or faulted machine (R245, R251; log 37). -/
def State.resetAllowed (s : State) : Bool :=
  s.tick == .idle && (s.boot != .started || s.stopped || s.fault.isSome)

/-- `Reset` (R251, R300) where it is allowed; elsewhere the spec gives no step (R244, R245; log 37). -/
def hostReset (s : State) : Host.Outcome State Fault Refusal :=
  if s.resetAllowed then .next s.doReset else .refused .resetNotAllowed

/-- Copy bytes to memory from address `a` on (R41, R246). -/
def State.copyBytes : List Byte → Nat → State → State
  | [], _, s => s
  | v :: vs, a, s => State.copyBytes vs (a + 1) (s.setByte a v)

/-- `Load(image)` (R246): the image verbatim at 512; once, after `Reset` and before the first `Tick` (R245, R301), and
no longer than 3584 bytes. Otherwise the spec gives no step (log 3). -/
def hostLoad (image : List Byte) (s : State) : Host.Outcome State Fault Refusal :=
  if s.boot ≠ .fresh then .refused .loadNotAllowed
  else if imageFits image then .next { State.copyBytes image progBase s with boot := .loaded }
  else .refused .imageTooLong

/-- `Tick` (R231, R249): it starts a tick when none is in progress (R230, R245); inside one the spec gives no step
(log 3). -/
def hostTick (s : State) : Host.Outcome State Fault Refusal :=
  match s.tick with
  | .idle => .next s.tickStart
  | .looping _ => .refused .tickInProgress
  | .left _ => .refused .tickInProgress

/-- `KeyDown(k)` (R247): on a key that is up, both masks; on a key already down, nothing. -/
def State.keyDown (s : State) (k : Key) : State :=
  if keyIn s.heldMask k.val then s
  else { s with heldMask := s.heldMask ||| keyBit k, pressedMask := s.pressedMask ||| keyBit k }

/-- `KeyUp(k)` (R248): the held bit only. -/
def State.keyUp (s : State) (k : Key) : State := { s with heldMask := s.heldMask &&& ~~~(keyBit k) }

/-- `Stop` (R250). -/
def State.stop (s : State) : State := { s with stopped := true }

/-- One move of the host (R245). -/
def hostMove (m : HostMove) (s : State) : Host.Outcome State Fault Refusal :=
  match m with
  | .pass => coreStep s
  | .reset => hostReset s
  | .load image => hostLoad image s
  | .tick => hostTick s
  | .keyDown k => .next (s.keyDown k)
  | .keyUp k => .next (s.keyUp k)
  | .stop => .next s.stop

/-- The step when no host move waits: inside a tick the core's; outside it the host raises the next `Tick`, as it is
assumed to go on doing (R249, log 2). A faulted core has no step, so the machine stops with its fault (R272, log 20). -/
def autoStep (s : State) : Host.Outcome State Fault Refusal :=
  match s.fault with
  | some c => .fault c
  | none =>
    match s.tick with
    | .idle => hostTick s
    | .looping _ => coreStep s
    | .left _ => coreStep s

/-- The next step of the machine: the host's oldest waiting move if there is one (log 2). -/
def machineStep (s : State) : Host.Outcome State Fault Refusal :=
  match s.hostMoves with
  | m :: rest => hostMove m { s with hostMoves := rest }
  | [] => autoStep s

/-- Store a byte for `placeWord`; an address outside memory holds nothing. -/
def State.pokeByte (s : State) (a : Nat) (v : Byte) : State := if a < memSize then s.setByte a v else s

/-- `s` with the word's bytes at `pc`, in a tick with the full budget, so that the next step fetches and runs it: the
core must not be faulted, stopped or waiting for a key, and no host move may come first (log 1). -/
def placeWord (w : Word) (s : State) : State :=
  { (s.pokeByte s.pc.toNat (w.extractLsb' 8 8)).pokeByte (s.pc.toNat + 1) (w.extractLsb' 0 8) with
    awaitKey := none, stopped := false, tick := .looping cyclesPerTick, fault := none, boot := .started, hostMoves := [] }

end Sys2Proof.Machine
end

