-- ==== Sys2Proof/Machine/Step.lean ====
section
/-! DEFINITION. The step of the machine and the placing of one instruction for the host's question. Both only call
what the other files of Machine define. -/

namespace Sys2Proof.Machine

/-- One step: a host move, or one of the core's small steps of R244. -/
def step (s : State) : Host.Outcome State Fault Refusal := machineStep s

/-- `s` with the instruction of bits `w`, numbered as the opcode table numbers them, placed where `step` fetches, and
all that its being the very next step takes (log 1). -/
def State.withFetchWord (s : State) (nbits w : Nat) : State := placeWord (BitVec.ofNat 16 (w % 2 ^ nbits)) s

end Sys2Proof.Machine
end

