-- ==== Sys2Proof/Safety.lean ====
section
/-! DEFINITION. The terms the claims are stated in: the invariant of the machine, what an instruction may write, what
it may raise (`spec/60_exceptions.md` R284), which fields two states may differ in, and the operands of a word as
numbers. -/

namespace Sys2Proof.Machine

/-! ### The invariant -/

/-- What every step keeps, from any state that has it. -/
structure MachineInv (s : State) : Prop where
  /-- memory is in canonical form, with no cell beyond 4095 (R22, log 30) -/
  memory : Memory.wf s.cfg s.mem
  /-- the display is in canonical form, with no cell off the grid (R29, log 27) -/
  display : Display.wf s.cfg s.disp
  /-- `pc` never exceeds 4098 (R25) -/
  pcBound : s.pc.toNat ≤ 4098
  /-- the budget is 0, 2, 4, 6 or 8 (R35, R239) -/
  budget : ∀ b, s.tick = .looping b ∨ s.tick = .left b → b ≤ 8 ∧ b % 2 = 0
  /-- a faulted core is in no tick (R240, R271) -/
  faultIdle : s.fault ≠ none → s.tick = .idle
  /-- the causes 5, 6 and 7 never arise (R286) -/
  causes : s.fault ≠ some .outOfBoundsStack ∧ s.fault ≠ some .outOfBoundsRegister ∧
    s.fault ≠ some .internalConsistency
  /-- a core in a tick, or faulted, has seen a first tick (R301; the marker is the model's own, log 3) -/
  bootOrder : s.tick ≠ .idle ∨ s.fault ≠ none → s.boot = .started
  /-- the call stack is dead state (R26, R317) -/
  stackDead : s.stack = Vector.replicate 256 0 ∧ s.sp = 0

/-- The core can dispatch an instruction at its next step: in the cycle loop with a budget that pays for it, not
faulted, not stopped, not waiting, and no host move first (R231 to R234). -/
def CanDispatch (s : State) (b : Nat) : Prop :=
  s.fault = none ∧ s.stopped = false ∧ s.awaitKey = none ∧ s.tick = .looping b ∧ 2 ≤ b ∧ s.hostMoves = []

/-! ### Frames: which fields may differ -/

/-- `t` is `s` but for `pc`. -/
def OnlyPc (s t : State) : Prop := t = { s with pc := t.pc }

/-- `t` is `s` but for the general registers and `pc`. -/
def OnlyRegsPc (s t : State) : Prop := t = { s with regs := t.regs, pc := t.pc }

/-- `t` is `s` but for the general registers, `pc` and the model's count of draws (log 6). -/
def OnlyRegsPcDraws (s t : State) : Prop := t = { s with regs := t.regs, pc := t.pc, draws := t.draws }

/-- `t` is `s` but for `I` and `pc`. -/
def OnlyIndexPc (s t : State) : Prop := t = { s with index := t.index, pc := t.pc }

/-- `t` is `s` but for memory and `pc`. -/
def OnlyMemPc (s t : State) : Prop := t = { s with mem := t.mem, pc := t.pc }

/-- `t` is `s` but for the display and `pc`. -/
def OnlyDispPc (s t : State) : Prop := t = { s with disp := t.disp, pc := t.pc }

/-- Every register but those of `p` reads as before. -/
def RegsKept (s t : State) (p : Reg → Prop) : Prop := ∀ r, ¬ p r → t.reg r = s.reg r

/-- `t` is `s` after `raise c` with nothing else changed: the cause recorded, the tick abandoned, the output emitted,
`pc` at the faulting instruction (R214, R271, R273). -/
def RaisedOnly (s t : State) (c : Fault) : Prop :=
  t = { s with fault := some c, tick := .idle, outputs := .fault c :: s.outputs }

/-! ### What an instruction may write and raise -/

/-- The general registers an instruction has as destinations, `VF` included where it is a flag (R20, R21). -/
def writesReg : Instr → Reg → Prop
  | .sys _, _ => False
  | .jp _, _ => False
  | .call _, _ => False
  | .seImm _ _, _ => False
  | .sneImm _ _, _ => False
  | .seReg _ _ _, _ => False
  | .ldImm x _, r => r = x
  | .addImm x _, r => r = x
  | .ldReg x _, r => r = x
  | .orReg x _, r => r = x
  | .andReg x _, r => r = x
  | .xorReg x _, r => r = x
  | .addReg x _, r => r = x ∨ r = flagReg
  | .subReg x _, r => r = x ∨ r = flagReg
  | .shr x _, r => r = x ∨ r = flagReg
  | .subn x _, r => r = x ∨ r = flagReg
  | .shl x _, r => r = x ∨ r = flagReg
  | .sneReg _ _ _, _ => False
  | .ldIndex _, _ => False
  | .jpV0 _, _ => False
  | .rnd x _, r => r = x
  | .drw _ _ _, _ => False
  | .skp _, _ => False
  | .sknp _, _ => False
  | .ldFromDt x, r => r = x
  | .ldKey _, _ => False
  | .ldToDt _, _ => False
  | .ldToSt _, _ => False
  | .addIndex _, _ => False
  | .ldGlyph _, _ => False
  | .ldBcd _, _ => False
  | .storeRegs _, _ => False
  | .loadRegs x, r => r ≤ x

/-- How many bytes an instruction stores, from `I` on (R60, R70). -/
def bytesStored : Instr → Nat
  | .ldBcd _ => 3
  | .storeRegs x => x.val + 1
  | .sys _ | .jp _ | .call _ | .seImm _ _ | .sneImm _ _ | .seReg _ _ _ | .ldImm _ _ | .addImm _ _ | .ldReg _ _ => 0
  | .orReg _ _ | .andReg _ _ | .xorReg _ _ | .addReg _ _ | .subReg _ _ | .shr _ _ | .subn _ _ | .shl _ _ => 0
  | .sneReg _ _ _ | .ldIndex _ | .jpV0 _ | .rnd _ _ | .drw _ _ _ | .skp _ | .sknp _ | .ldFromDt _ | .ldKey _ => 0
  | .ldToDt _ | .ldToSt _ | .addIndex _ | .ldGlyph _ | .loadRegs _ => 0

/-- The causes an instruction may raise (R284). -/
def mayRaise : Instr → Fault → Prop
  | .sys nnn, c => c = .unimplemented (encode (.sys nnn))
  | .jp _, _ => False
  | .call nnn, c => c = .unimplemented (encode (.call nnn))
  | .seImm _ _, _ => False
  | .sneImm _ _, _ => False
  | .seReg _ _ _, _ => False
  | .ldImm _ _, _ => False
  | .addImm _ _, _ => False
  | .ldReg _ _, _ => False
  | .orReg _ _, _ => False
  | .andReg _ _, _ => False
  | .xorReg _ _, _ => False
  | .addReg _ _, _ => False
  | .subReg _ _, _ => False
  | .shr _ _, _ => False
  | .subn _ _, _ => False
  | .shl _ _, _ => False
  | .sneReg _ _ _, _ => False
  | .ldIndex _, _ => False
  | .jpV0 nnn, c => c = .unimplemented (encode (.jpV0 nnn))
  | .rnd _ _, _ => False
  | .drw _ _ _, c => (∃ a, c = .outOfBoundsMemory a ∧ 4096 ≤ a) ∨ ∃ x y, c = .outOfBoundsDisplay x y
  | .skp _, c => ∃ k, c = .outOfBoundsKey k ∧ 15 < k.toNat
  | .sknp _, c => ∃ k, c = .outOfBoundsKey k ∧ 15 < k.toNat
  | .ldFromDt _, _ => False
  | .ldKey _, _ => False
  | .ldToDt _, _ => False
  | .ldToSt _, _ => False
  | .addIndex _, _ => False
  | .ldGlyph _, _ => False
  | .ldBcd _, c => ∃ a, c = .outOfBoundsMemory a ∧ 4096 ≤ a
  | .storeRegs _, c => ∃ a, c = .outOfBoundsMemory a ∧ 4096 ≤ a
  | .loadRegs _, c => ∃ a, c = .outOfBoundsMemory a ∧ 4096 ≤ a

/-- The six skips, and when each skips (R121 to R124, R180, R181). -/
def skips : Instr → State → Option Bool
  | .seImm x kk, s => some (s.reg x == kk)
  | .sneImm x kk, s => some (s.reg x != kk)
  | .seReg x y _, s => some (s.reg x == s.reg y)
  | .sneReg x y _, s => some (s.reg x != s.reg y)
  | .skp x, s => some (keyIn s.heldMask (s.reg x).toNat)
  | .sknp x, s => some (!keyIn s.heldMask (s.reg x).toNat)
  | .sys _, _ | .jp _, _ | .call _, _ | .ldImm _ _, _ | .addImm _ _, _ | .ldReg _ _, _ | .orReg _ _, _ => none
  | .andReg _ _, _ | .xorReg _ _, _ | .addReg _ _, _ | .subReg _ _, _ | .shr _ _, _ | .subn _ _, _ => none
  | .shl _ _, _ | .ldIndex _, _ | .jpV0 _, _ | .rnd _ _, _ | .drw _ _ _, _ | .ldFromDt _, _ | .ldKey _, _ => none
  | .ldToDt _, _ | .ldToSt _, _ | .addIndex _, _ | .ldGlyph _, _ | .ldBcd _, _ | .storeRegs _, _ => none
  | .loadRegs _, _ => none

/-- `pc` after an instruction that raised nothing, the "net" line of its rule (R25, R125). -/
def netPc (i : Instr) (s : State) : Word :=
  match i with
  | .jp nnn => BitVec.ofNat 16 nnn.toNat
  | _ =>
    match skips i s with
    | some true => s.pc + 4
    | some false => s.pc + 2
    | none => s.pc + 2

/-! ### The operands of a word as numbers (R92) -/

/-- `X` of a word: the second nibble from the top. -/
def opX (w : Word) : Reg := Fin.ofNat 16 (w.toNat / 256)

/-- `Y` of a word: the third nibble from the top. -/
def opY (w : Word) : Reg := Fin.ofNat 16 (w.toNat / 16)

/-- `N` of a word: its low nibble. -/
def opN (w : Word) : Nibble := BitVec.ofNat 4 w.toNat

/-- `KK` of a word: its low byte. -/
def opKK (w : Word) : Byte := BitVec.ofNat 8 w.toNat

/-- `NNN` of a word: its low 12 bits. -/
def opNNN (w : Word) : Addr12 := BitVec.ofNat 12 w.toNat

/-- Every word with `pattern` under `mask` decodes to the instruction that `f` makes of it (R95). -/
def Encodes (mask pattern : Word) (f : Word → Instr) : Prop :=
  ∀ w : Word, w &&& mask = pattern → decodeWord w = .ok (f w)

/-- The words of no row (R97): family 8 with low nibble 8 to D or F, family E and family F with another low byte. -/
def IsUnlisted (w : Word) : Prop :=
  (w.toNat / 4096 = 8 ∧ w.toNat % 16 ∈ [8, 9, 10, 11, 12, 13, 15]) ∨
  (w.toNat / 4096 = 14 ∧ w.toNat % 256 ∉ [0x9E, 0xA1]) ∨
  (w.toNat / 4096 = 15 ∧ w.toNat % 256 ∉ [0x07, 0x0A, 0x15, 0x18, 0x1E, 0x29, 0x33, 0x55, 0x65])

/-- The decimal digits of `V[X]` that `LD B, Vx` stores: hundreds, tens, ones (R196). -/
def bcdDigit (v : Byte) (k : Nat) : Nat :=
  match k with
  | 0 => v.toNat / 100
  | 1 => v.toNat / 10 % 10
  | _ => v.toNat % 10

/-- A fetch at `p` in `t` reads a word in which every byte stored at `addr k`, `k` up to `last`, is `byte k`: the high
byte where it stands at `p`, the low byte where it stands at `p + 1` (R61, R74). -/
def FetchSees (t : State) (p : Word) (last : Nat) (addr byte : Nat → Nat) : Prop :=
  ∃ w : Word, fetch (t.setPc p) = .done w (t.setPc p) ∧
    (∀ k ≤ last, addr k = p.toNat → w.toNat / 256 = byte k) ∧
    (∀ k ≤ last, addr k = p.toNat + 1 → w.toNat % 256 = byte k)

/-- The sprite rectangle of `DRW`: columns from `V[X]` and rows from `V[Y]`, 8 by `n` (R170). -/
abbrev InSprite (x0 y0 n cx cy : Nat) : Prop := x0 ≤ cx ∧ cx < x0 + 8 ∧ y0 ≤ cy ∧ cy < y0 + n

end Sys2Proof.Machine
end

