-- ==== Sys2Proof/Certificates/Slice0/Obligations.lean ====
section
/-! DEFINITION. The statements about the model, each taken from a numbered rule of `spec/`. -/

open Sys2Proof Sys2Proof.Machine

/-! ### Encoding (`spec/30_encoding.md`) -/

/-- Every instruction, with every operand at every value its field admits, is decoded from its own bytes, whatever
bytes follow (R90, R92, R94, R95). -/
def Obligations.DecodeOfEncodeIsIdentity : Prop :=
  ∀ (i : Instr) (rest : List Byte), i.wellFormed = true → decode (encodeBytes i ++ rest) = .ok (i, rest)

/-- A word that decodes is the word of what it decodes to: decoding drops no bit of it (R92, R94, R95). -/
def Obligations.EncodeOfDecodeIsIdentity : Prop :=
  ∀ (w : Word) (i : Instr), decodeWord w = .ok i → encode i = w

/-- A word of a row of the opcode map decodes to an instruction of that row, and a word that decodes is of the row of
its instruction (R95). -/
def Obligations.OpcodeRowsAgreeWithDecoder : Prop :=
  (∀ (w : Word) (r : OpcodeRow), r ∈ opcodeRows → r.isOf w = true → ∃ i, decodeWord w = .ok i ∧ rowOf i = r) ∧
  (∀ (w : Word) (i : Instr), decodeWord w = .ok i → rowOf i ∈ opcodeRows ∧ (rowOf i).isOf w = true)

/-- No two rows of the opcode map match one word, and a word that matches no row is one of the unlisted sub-cases
(R96; the spec marks R96 as its own inference from the masks). -/
def Obligations.OpcodeRowsNeverOverlap : Prop :=
  (∀ (w : Word) (r q : OpcodeRow), r ∈ opcodeRows → q ∈ opcodeRows → r.isOf w = true → q.isOf w = true → r = q) ∧
  (∀ w : Word, (∀ r ∈ opcodeRows, r.isOf w = false) ↔ IsUnlisted w)

/-- The decoder rejects exactly the unlisted sub-cases, naming the word, and no word is outside the 16 families
(R97, R100; R97 is the spec's decision D10, log 16). -/
def Obligations.ExactlyTheUnlistedWordsAreRejected : Prop :=
  (∀ w : Word, decodeWord w = .error (.unlisted w) ↔ IsUnlisted w) ∧
  (∀ (w : Word) (e : WordReject), decodeWord w = .error e → e = .unlisted w)

/-- Words written out from R95, one or more of each of the 16 families, decode to the instructions they stand for, and an
unlisted word of family 8 is rejected (R95; the positions of the operands are R92's, general knowledge, log 8). -/
def Obligations.WrittenOutWordsDecode : Prop :=
  decodeWord 0x00E0 = .ok (.sys 0x0E0) ∧ decodeWord 0x1234 = .ok (.jp 0x234) ∧
  decodeWord 0x2345 = .ok (.call 0x345) ∧ decodeWord 0x332A = .ok (.seImm 3 0x2A) ∧
  decodeWord 0x442B = .ok (.sneImm 4 0x2B) ∧ decodeWord 0x5127 = .ok (.seReg 1 2 7) ∧
  decodeWord 0x6AFE = .ok (.ldImm 10 0xFE) ∧ decodeWord 0x7B05 = .ok (.addImm 11 0x05) ∧
  decodeWord 0x8F14 = .ok (.addReg 15 1) ∧ decodeWord 0x812E = .ok (.shl 1 2) ∧
  decodeWord 0x912F = .ok (.sneReg 1 2 15) ∧ decodeWord 0xA2F0 = .ok (.ldIndex 0x2F0) ∧
  decodeWord 0xB201 = .ok (.jpV0 0x201) ∧ decodeWord 0xC30F = .ok (.rnd 3 0x0F) ∧
  decodeWord 0xD345 = .ok (.drw 3 4 5) ∧ decodeWord 0xE49E = .ok (.skp 4) ∧
  decodeWord 0xF255 = .ok (.storeRegs 2) ∧ decodeWord 0x8128 = .error (.unlisted 0x8128)

/-! ### The step (`spec/48_tick_scheduler.md`) -/

/-- Fetch reads the two bytes at `pc`, high byte first, and changes no state; with `pc + 1` at 4096 or more it raises
`OutOfBoundsMemory(pc + 1)`. There is no other condition on `pc` (R237). -/
def Obligations.FetchIsBigEndianAndNeverWraps : Prop :=
  ∀ s : State,
    (s.pc.toNat + 1 < 4096 → ∃ w : Word, fetch s = .done w s ∧
      w.toNat = (s.byteAt s.pc.toNat).toNat * 256 + (s.byteAt (s.pc.toNat + 1)).toNat) ∧
    (4096 ≤ s.pc.toNat + 1 → fetch s = .raised (.outOfBoundsMemory (s.pc.toNat + 1)) s)

/-- When the core can dispatch and the bytes at `pc` decode to a well-formed instruction, the step is that instruction
with its cost deducted from the budget (R237 to R239); and the same when the host's next move is `pass`, a move no rule
has: it is the model's own way to say that the host does nothing before the core's step (DESIGN CHOICE, log 2). -/
def Obligations.StepRunsTheDecodedInstruction : Prop :=
  ∀ (s : State) (b : Nat) (i : Instr), CanDispatch s b → s.pc.toNat + 1 < 4096 → i.wellFormed = true →
    decode [s.byteAt s.pc.toNat, s.byteAt (s.pc.toNat + 1)] = .ok (i, []) →
    step s = chargeOutcome (exec i s) ∧
    ∀ rest, step { s with hostMoves := .pass :: rest } = chargeOutcome (exec i { s with hostMoves := rest })

/-- An instruction that raises nothing leaves the budget to the scheduler, which deducts exactly 2 for it; one that
raises has left the tick (R239, R240). -/
def Obligations.EveryInstructionCostsTwo : Prop :=
  ∀ (i : Instr) (s t : State) (b : Nat), s.fault = none → s.tick = .looping b → exec i s = .next t →
    (t.fault = none → t.charge.tick = .looping (b - 2)) ∧ (t.fault ≠ none → t.charge.tick = .idle)

/-- When the core can dispatch and the word at `pc` is an unlisted sub-case, the step raises `Unimplemented(w)` and
changes nothing else (R213, R214; that such words fault is the spec's decision D10, log 16). -/
def Obligations.UnlistedWordRaisesUnimplemented : Prop :=
  ∀ (s : State) (b : Nat), CanDispatch s b → s.pc.toNat + 1 < 4096 →
    IsUnlisted (wordOfBytes (s.byteAt s.pc.toNat) (s.byteAt (s.pc.toNat + 1))) →
    ∃ t, step s = .next t ∧
      RaisedOnly s t (.unimplemented (wordOfBytes (s.byteAt s.pc.toNat) (s.byteAt (s.pc.toNat + 1))))

/-- When the core can dispatch and `pc` is 4095 or more, the step takes the fetch's fault and changes nothing else
(R63, R237, R240). -/
def Obligations.FetchBeyondMemoryRaises : Prop :=
  ∀ (s : State) (b : Nat), CanDispatch s b → 4095 ≤ s.pc.toNat →
    ∃ t, step s = .next t ∧ RaisedOnly s t (.outOfBoundsMemory (s.pc.toNat + 1))

/-- The start of a tick, raised by the host when no tick is in progress: it does nothing at all to a faulted or stopped
core, else it sets the full budget of 8 (R231, the spec's decisions D16 and D17, logs 20 and 21); and with no host move
waiting a core that is not faulted gets the same tick (R249, the model's choice of log 2). The marker `boot` is the
model's own (log 3). -/
def Obligations.TickStartSetsTheBudget : Prop :=
  (∀ (s : State) (rest : List HostMove), s.hostMoves = .tick :: rest → s.tick = .idle →
    (s.fault ≠ none ∨ s.stopped = true → step s = .next { s with boot := .started, hostMoves := rest }) ∧
    (s.fault = none → s.stopped = false →
      step s = .next { s with boot := .started, tick := .looping 8, hostMoves := rest })) ∧
  (∀ s : State, s.hostMoves = [] → s.fault = none → s.tick = .idle →
    (s.stopped = true → step s = .next { s with boot := .started }) ∧
    (s.stopped = false → step s = .next { s with boot := .started, tick := .looping 8 }))

/-- A core whose `stopped` is set inside a tick leaves the loop at its next step and does nothing else, and the step after
it is exactly the end-of-tick actions: both timers down by 1, the pressed mask cleared, the frame out (R234, R241 to
R243, the spec's decision D17, log 21; the timers' wrap is D15, log 11). -/
def Obligations.StopLeavesTheLoop : Prop :=
  ∀ (s : State) (b : Nat), s.hostMoves = [] → s.fault = none → s.stopped = true → s.tick = .looping b → 2 ≤ b →
    step s = .next { s with tick := .left b } ∧
    step { s with tick := .left b } =
      .next { s with tick := .idle, dt := s.dt - 1, st := s.st - 1, pressedMask := 0,
                     outputs := .frame s.disp :: s.outputs }

/-- A waiting core with no newly pressed key leaves the loop without touching `pc`, the registers or the budget, and
the end-of-tick actions run as always (R235). -/
def Obligations.WaitingWithoutAKeyEndsTheTick : Prop :=
  ∀ (s : State) (b : Nat) (r : Reg), s.hostMoves = [] → s.fault = none → s.stopped = false → s.tick = .looping b →
    2 ≤ b → s.awaitKey = some r → s.pressedMask = 0 →
    step s = .next { s with tick := .left b } ∧
    step { s with tick := .left b } =
      .next { s with tick := .idle, dt := s.dt - 1, st := s.st - 1, outputs := .frame s.disp :: s.outputs }

/-- A waiting core with a newly pressed key writes the lowest pressed index to the latched register and ends the wait,
and changes nothing else: not `pc`, not `pressed_mask`, not the budget (R236, the spec's decision D18, log 22). -/
def Obligations.CaptureTakesTheLowestPressedKey : Prop :=
  ∀ (s : State) (b : Nat) (r : Reg), s.hostMoves = [] → s.fault = none → s.stopped = false → s.tick = .looping b →
    2 ≤ b → s.awaitKey = some r → s.pressedMask ≠ 0 →
    ∃ (t : State) (k : Nat), step s = .next t ∧ k < 16 ∧ s.pressedMask.getLsbD k = true ∧
      (∀ j < k, s.pressedMask.getLsbD j = false) ∧ (t.reg r).toNat = k ∧ RegsKept s t (· = r) ∧
      t = { s with regs := t.regs, awaitKey := none }

/-- The end of a tick, when the budget is spent or the loop was left: both timers go down by 1 modulo 256, the pressed
mask is cleared, the frame goes out, and nothing else changes (R232, R241 to R243; the wrap at zero is the spec's
decision D15, log 11). -/
def Obligations.EndOfTickActions : Prop :=
  ∀ (s : State) (b : Nat), s.hostMoves = [] → s.fault = none → (s.tick = .looping b ∧ b < 2) ∨ s.tick = .left b →
    ∃ t, step s = .next t ∧ t.dt.toNat = (s.dt.toNat + 255) % 256 ∧ t.st.toNat = (s.st.toNat + 255) % 256 ∧
      t.outputs = .frame s.disp :: s.outputs ∧
      t = { s with dt := t.dt, st := t.st, pressedMask := 0, tick := .idle, outputs := t.outputs }

/-- The small steps make up the tick: from a core in no tick, with no host move waiting, at most 12 steps do exactly
what `procedure Tick()` does, in every case: faulted by an instruction, stopped, waiting, capturing or running (R230;
R244, which the spec derives, log 34). The first of them is the tick raised because no host move waits (log 2), and it
sets the model's marker `boot` (log 3). -/
def Obligations.SmallStepsMakeUpTheTick : Prop :=
  ∀ s : State, s.fault = none → s.hostMoves = [] → s.tick = .idle →
    ∃ n, 0 < n ∧ n ≤ 12 ∧ Host.Core.run core n s = tickProcedure { s with boot := .started }

/-- A fault is terminal: of a faulted core that is in no tick and past its boot, no step but a host's `Reset` changes
the fault, the registers, memory, `I`, `pc`, the timers, the display, the wait or the outputs (R36, R272; a key event or
a stop still changes its mask or `stopped`, of which nothing is said here); and when the host has no move left the step
answers the fault (that the answer is the outcome fault is the model's choice, log 20; the marker `boot` is its own,
log 3). -/
def Obligations.FaultIsTerminal : Prop :=
  ∀ (s : State) (c : Fault), s.fault = some c → s.tick = .idle → s.boot = .started →
    (s.hostMoves = [] → step s = .fault c) ∧
    (∀ t, s.hostMoves.head? ≠ some .reset → step s = .next t →
      t.fault = some c ∧ t.outputs = s.outputs ∧ t.regs = s.regs ∧ t.mem = s.mem ∧ t.index = s.index ∧ t.pc = s.pc ∧
      t.dt = s.dt ∧ t.st = s.st ∧ t.disp = s.disp ∧ t.awaitKey = s.awaitKey ∧ t.tick = .idle)

/-! ### The host (`spec/48_tick_scheduler.md`, `spec/70_reset_and_hazards.md`) -/

/-- `Reset`. Its effect from any state: every register, timer, mask and stack entry 0, `I` 0, `FONT` at 0 to 79 and 0 in
the rest of memory, every cell unlit, nothing awaited, not stopped, not in a tick, no fault, `pc` 512 (R40, R300). The
host's move `reset` has that effect in no tick, before the first `Tick` or on a stopped or faulted core, and no step
inside a tick or on a core that has ticked and is neither (R244, R245; R251, the spec's decision D27, log 28; which
moments these are is the model's reading, and the refusal its form of "no step", log 37). -/
def Obligations.ResetZeroesAllState : Prop :=
  (∀ s : State, (∀ r, s.doReset.reg r = 0) ∧ s.doReset.index = 0 ∧ s.doReset.dt = 0 ∧ s.doReset.st = 0 ∧
    s.doReset.sp = 0 ∧ (∀ k (h : k < 256), s.doReset.stack[k] = 0) ∧
    (∀ a (h : a < 80), s.doReset.byteAt a = s.cfg.font[a]) ∧ (∀ a, 80 ≤ a → s.doReset.byteAt a = 0) ∧
    (∀ x y, s.doReset.cellAt x y = false) ∧ s.doReset.heldMask = 0 ∧ s.doReset.pressedMask = 0 ∧
    s.doReset.awaitKey = none ∧ s.doReset.stopped = false ∧ s.doReset.tick = .idle ∧ s.doReset.fault = none ∧
    s.doReset.pc = 512) ∧
  (∀ (s : State) (rest : List HostMove), s.hostMoves = .reset :: rest →
    (s.tick = .idle → s.boot ≠ .started ∨ s.stopped = true ∨ s.fault ≠ none →
      step s = .next ({ s with hostMoves := rest } : State).doReset) ∧
    (s.tick ≠ .idle → step s = .refused .resetNotAllowed) ∧
    (s.tick = .idle → s.boot = .started → s.stopped = false → s.fault = none →
      step s = .refused .resetNotAllowed))

/-- The reset state itself has the values of R40, with the default parameters of R4, the default `FONT` of R23 written out
(its bytes are general knowledge, log 5; the default `SHIFT_SRC` is the spec's decision D6, log 4); the fields `boot`,
`draws`, `hostMoves` and `outputs` are the model's own (logs 2, 3, 6 and 7). -/
def Obligations.ResetStateHasTheStatedValues : Prop :=
  (∀ r, State.reset.reg r = 0) ∧ State.reset.pc = 0x200 ∧ State.reset.index = 0 ∧ State.reset.sp = 0 ∧
  (∀ k (h : k < 256), State.reset.stack[k] = 0) ∧
  State.reset.dt = 0 ∧ State.reset.st = 0 ∧ (∀ x y, State.reset.cellAt x y = false) ∧ State.reset.heldMask = 0 ∧
  State.reset.pressedMask = 0 ∧ State.reset.awaitKey = none ∧ State.reset.stopped = false ∧
  State.reset.sched = .running ∧ State.reset.tick = .idle ∧ State.reset.fault = none ∧
  (∀ a, 80 ≤ a → State.reset.byteAt a = 0) ∧
  (∀ a (h : a < 80), State.reset.byteAt a = State.reset.cfg.font[a]) ∧ State.reset.cfg.dispW = 64 ∧
  State.reset.cfg.dispH = 32 ∧ State.reset.cfg.shiftSrc = .x ∧
  State.reset.cfg.font.toList =
    [0xF0, 0x90, 0x90, 0x90, 0xF0] ++ [0x20, 0x60, 0x20, 0x20, 0x70] ++ [0xF0, 0x10, 0xF0, 0x80, 0xF0] ++
    [0xF0, 0x10, 0xF0, 0x10, 0xF0] ++ [0x90, 0x90, 0xF0, 0x10, 0x10] ++ [0xF0, 0x80, 0xF0, 0x10, 0xF0] ++
    [0xF0, 0x80, 0xF0, 0x90, 0xF0] ++ [0xF0, 0x10, 0x20, 0x40, 0x40] ++ [0xF0, 0x90, 0xF0, 0x90, 0xF0] ++
    [0xF0, 0x90, 0xF0, 0x10, 0xF0] ++ [0xF0, 0x90, 0xF0, 0x90, 0x90] ++ [0xE0, 0x90, 0xE0, 0x90, 0xE0] ++
    [0xF0, 0x80, 0x80, 0x80, 0xF0] ++ [0xE0, 0x90, 0x90, 0x90, 0xE0] ++ [0xF0, 0x80, 0xF0, 0x80, 0xF0] ++
    [0xF0, 0x80, 0xF0, 0x80, 0x80]

/-- `Load(image)` right after `Reset` copies the image verbatim to 512 and changes no other byte and no other state; an
image over 3584 bytes, a second load and a load after the first tick have no step (R246, R301; the refusals and the
marker `boot` are the model's own, log 3). -/
def Obligations.LoadCopiesTheImageVerbatim : Prop :=
  ∀ (s : State) (image : List Byte) (rest : List HostMove), s.hostMoves = .load image :: rest →
    (s.boot = .fresh → image.length ≤ 3584 → ∃ t, step s = .next t ∧
      (∀ j (h : j < image.length), t.byteAt (512 + j) = image[j]) ∧
      (∀ a, a < 512 ∨ 512 + image.length ≤ a → t.byteAt a = s.byteAt a) ∧
      t = { s with mem := t.mem, boot := .loaded, hostMoves := rest }) ∧
    (s.boot = .fresh → 3584 < image.length → step s = .refused .imageTooLong) ∧
    (s.boot ≠ .fresh → step s = .refused .loadNotAllowed)

/-- `KeyDown(k)` on a key that is up sets bit `k` of both masks and nothing else; on a key already down it changes
nothing (R247, the spec's decision D19, log 23). -/
def Obligations.KeyDownSetsBothMasks : Prop :=
  ∀ (s : State) (k : Key) (rest : List HostMove), s.hostMoves = .keyDown k :: rest → ∃ t, step s = .next t ∧
    t = { s with heldMask := t.heldMask, pressedMask := t.pressedMask, hostMoves := rest } ∧
    (∀ j, t.heldMask.getLsbD j = (s.heldMask.getLsbD j || decide (j = k.val))) ∧
    (∀ j, t.pressedMask.getLsbD j =
      (s.pressedMask.getLsbD j || (decide (j = k.val) && !s.heldMask.getLsbD k.val)))

/-- `KeyUp(k)` clears bit `k` of the held mask and nothing else: the pressed mask keeps the press (R248, the spec's
decision D19, log 23). -/
def Obligations.KeyUpClearsTheHeldBit : Prop :=
  ∀ (s : State) (k : Key) (rest : List HostMove), s.hostMoves = .keyUp k :: rest → ∃ t, step s = .next t ∧
    t = { s with heldMask := t.heldMask, hostMoves := rest } ∧
    (∀ j, t.heldMask.getLsbD j = (s.heldMask.getLsbD j && !decide (j = k.val)))

/-- `Stop` sets `stopped` and nothing else; no instruction changes it, and no step but a host's `Reset` clears it; and a
second `Tick` inside a tick has no step (R249, R250; the refusal is the model's own, log 3). -/
def Obligations.OnlyResetClearsStopped : Prop :=
  (∀ (s : State) (rest : List HostMove), s.hostMoves = .stop :: rest →
    step s = .next { s with stopped := true, hostMoves := rest }) ∧
  (∀ (i : Instr) (s t : State), exec i s = .next t → t.stopped = s.stopped) ∧
  (∀ s t : State, s.stopped = true → s.hostMoves.head? ≠ some .reset → step s = .next t → t.stopped = true) ∧
  (∀ (s : State) (rest : List HostMove), s.hostMoves = .tick :: rest → s.tick ≠ .idle →
    step s = .refused .tickInProgress)

/-- The held mask changes by `KeyDown`, `KeyUp` and `Reset` alone: every other step, each instruction's among them, leaves
it as it was, and the pressed mask as it was or cleared; and no step at all changes the configuration (R30, R31, R39;
that the configuration stays over a `Reset` is the model's reading, log 28). -/
def Obligations.MasksChangeByKeyEventsAlone : Prop :=
  (∀ s t : State, step s = .next t → s.hostMoves.head? ≠ some .reset → (∀ k, s.hostMoves.head? ≠ some (.keyDown k)) →
    (∀ k, s.hostMoves.head? ≠ some (.keyUp k)) →
    t.heldMask = s.heldMask ∧ (t.pressedMask = s.pressedMask ∨ t.pressedMask = 0)) ∧
  (∀ s t : State, step s = .next t → t.cfg = s.cfg)

/-! ### Jump and skip (`spec/40_jump_and_skip.md`) -/

/-- `JP nnn`: `pc = NNN`, rerouted, nothing else changes; every word `1nnn` is one; it costs 2 like every instruction;
and with `NNN = 4095` the next fetch faults (R120). -/
def Obligations.JumpGoesToItsAddress : Prop :=
  (∀ (nnn : Addr12) (s : State), ∃ t, exec (.jp nnn) s = .next t ∧ t.pc.toNat = nnn.toNat ∧ OnlyPc s t ∧
    (∀ b, s.tick = .looping b → t.charge.tick = .looping (b - 2)) ∧
    (nnn = 4095 → fetch t = .raised (.outOfBoundsMemory 4096) t)) ∧
  Encodes 0xF000 0x1000 (fun w => .jp (opNNN w))

/-- `SE Vx, kk`: `pc = a + 4` when `V[X] = KK`, else `a + 2`; nothing else changes (R121). -/
def Obligations.SkipIfEqualConstant : Prop :=
  (∀ (x : Reg) (kk : Byte) (s : State), ∃ t, exec (.seImm x kk) s = .next t ∧ OnlyPc s t ∧
    ((s.reg x).toNat = kk.toNat → t.pc = s.pc + 4) ∧ ((s.reg x).toNat ≠ kk.toNat → t.pc = s.pc + 2)) ∧
  Encodes 0xF000 0x3000 (fun w => .seImm (opX w) (opKK w))

/-- `SNE Vx, kk`: `pc = a + 4` when `V[X] != KK`, else `a + 2`; nothing else changes (R122). -/
def Obligations.SkipIfNotEqualConstant : Prop :=
  (∀ (x : Reg) (kk : Byte) (s : State), ∃ t, exec (.sneImm x kk) s = .next t ∧ OnlyPc s t ∧
    ((s.reg x).toNat ≠ kk.toNat → t.pc = s.pc + 4) ∧ ((s.reg x).toNat = kk.toNat → t.pc = s.pc + 2)) ∧
  Encodes 0xF000 0x4000 (fun w => .sneImm (opX w) (opKK w))

/-- `SE Vx, Vy` and `SNE Vx, Vy`: the skip is taken exactly when the registers are equal, or differ; nothing but `pc`
changes; the low nibble of the word takes no part (R123, R124; R98's ignored nibble is the spec's decision D9, log 15). -/
def Obligations.SkipsOnTwoRegisters : Prop :=
  (∀ (x y : Reg) (ign : Nibble) (s : State), ∃ t, exec (.seReg x y ign) s = .next t ∧ OnlyPc s t ∧
    ((s.reg x).toNat = (s.reg y).toNat → t.pc = s.pc + 4) ∧ ((s.reg x).toNat ≠ (s.reg y).toNat → t.pc = s.pc + 2)) ∧
  (∀ (x y : Reg) (ign : Nibble) (s : State), ∃ t, exec (.sneReg x y ign) s = .next t ∧ OnlyPc s t ∧
    ((s.reg x).toNat ≠ (s.reg y).toNat → t.pc = s.pc + 4) ∧ ((s.reg x).toNat = (s.reg y).toNat → t.pc = s.pc + 2)) ∧
  Encodes 0xF000 0x5000 (fun w => .seReg (opX w) (opY w) (opN w)) ∧
  Encodes 0xF000 0x9000 (fun w => .sneReg (opX w) (opY w) (opN w))

/-! ### Constants (`spec/41_constant_ops.md`) -/

/-- `LD Vx, kk`: `V[X] = KK`, `pc = a + 2`, nothing else changes; `VF` only when it is the destination (R130). -/
def Obligations.SetRegisterToConstant : Prop :=
  (∀ (x : Reg) (kk : Byte) (s : State), ∃ t, exec (.ldImm x kk) s = .next t ∧ t.reg x = kk ∧
    RegsKept s t (· = x) ∧ t.pc = s.pc + 2 ∧ OnlyRegsPc s t) ∧
  Encodes 0xF000 0x6000 (fun w => .ldImm (opX w) (opKK w))

/-- `ADD Vx, kk`: `V[X] = (V[X] + KK) mod 256`, `pc = a + 2`, nothing else changes; `VF` is not written as a flag
(R131). -/
def Obligations.AddConstantWrapsWithoutFlag : Prop :=
  (∀ (x : Reg) (kk : Byte) (s : State), ∃ t, exec (.addImm x kk) s = .next t ∧
    (t.reg x).toNat = ((s.reg x).toNat + kk.toNat) % 256 ∧ RegsKept s t (· = x) ∧ t.pc = s.pc + 2 ∧ OnlyRegsPc s t) ∧
  Encodes 0xF000 0x7000 (fun w => .addImm (opX w) (opKK w))

/-! ### ALU (`spec/42_alu.md`) -/

/-- `LD Vx, Vy`: `V[X] = V[Y]`; no flag, nothing else changes but `pc` (R140). -/
def Obligations.CopyRegister : Prop :=
  (∀ (x y : Reg) (s : State), ∃ t, exec (.ldReg x y) s = .next t ∧ t.reg x = s.reg y ∧ RegsKept s t (· = x) ∧
    t.pc = s.pc + 2 ∧ OnlyRegsPc s t) ∧
  Encodes 0xF00F 0x8000 (fun w => .ldReg (opX w) (opY w))

/-- `OR`, `AND` and `XOR`: each bit of `V[X]` from the old bits of `V[X]` and `V[Y]`; `VF` is left as it was unless it
is the destination, nothing else changes but `pc` (R141, R142, R143). -/
def Obligations.LogicLeavesTheFlagAlone : Prop :=
  (∀ (x y : Reg) (s : State), ∃ t, exec (.orReg x y) s = .next t ∧
    (∀ k < 8, (t.reg x).getLsbD k = ((s.reg x).getLsbD k || (s.reg y).getLsbD k)) ∧ RegsKept s t (· = x) ∧
    t.pc = s.pc + 2 ∧ OnlyRegsPc s t) ∧
  (∀ (x y : Reg) (s : State), ∃ t, exec (.andReg x y) s = .next t ∧
    (∀ k < 8, (t.reg x).getLsbD k = ((s.reg x).getLsbD k && (s.reg y).getLsbD k)) ∧ RegsKept s t (· = x) ∧
    t.pc = s.pc + 2 ∧ OnlyRegsPc s t) ∧
  (∀ (x y : Reg) (s : State), ∃ t, exec (.xorReg x y) s = .next t ∧
    (∀ k < 8, (t.reg x).getLsbD k = ((s.reg x).getLsbD k ^^ (s.reg y).getLsbD k)) ∧ RegsKept s t (· = x) ∧
    t.pc = s.pc + 2 ∧ OnlyRegsPc s t) ∧
  Encodes 0xF00F 0x8001 (fun w => .orReg (opX w) (opY w)) ∧
  Encodes 0xF00F 0x8002 (fun w => .andReg (opX w) (opY w)) ∧
  Encodes 0xF00F 0x8003 (fun w => .xorReg (opX w) (opY w))

/-- `ADD Vx, Vy`: with `s` the exact sum of the old values, `V[X] = s mod 256` unless X is 15, and `V[15]` is 1 when `s`
passes 255, else 0, also when X is 15 (R144; that the flag is written last is R149, the spec's decision D7, log 13). -/
def Obligations.AddSetsCarry : Prop :=
  (∀ (x y : Reg) (s : State), ∃ t, exec (.addReg x y) s = .next t ∧
    (x ≠ 15 → (t.reg x).toNat = ((s.reg x).toNat + (s.reg y).toNat) % 256) ∧
    ((s.reg x).toNat + (s.reg y).toNat > 255 → t.reg 15 = 1) ∧
    ((s.reg x).toNat + (s.reg y).toNat ≤ 255 → t.reg 15 = 0) ∧
    RegsKept s t (fun r => r = x ∨ r = 15) ∧ t.pc = s.pc + 2 ∧ OnlyRegsPc s t) ∧
  Encodes 0xF00F 0x8004 (fun w => .addReg (opX w) (opY w))

/-- `SUB` and `SUBN`: the exact difference, of `V[X] - V[Y]` or `V[Y] - V[X]`, modulo 256 to `V[X]` unless X is 15, and
`V[15]` is 1 exactly when the difference is strictly positive, so 0 on equal operands (R145, R147; the flag last is
R149, the spec's decision D7, log 13; that "reverse" is `V[Y] - V[X]` is general knowledge, log 9). -/
def Obligations.SubtractFlagIsStrictlyPositive : Prop :=
  (∀ (x y : Reg) (s : State), ∃ t, exec (.subReg x y) s = .next t ∧
    (x ≠ 15 → (t.reg x).toNat = ((s.reg x).toNat + (256 - (s.reg y).toNat)) % 256) ∧
    ((s.reg y).toNat < (s.reg x).toNat → t.reg 15 = 1) ∧ ((s.reg x).toNat ≤ (s.reg y).toNat → t.reg 15 = 0) ∧
    RegsKept s t (fun r => r = x ∨ r = 15) ∧ t.pc = s.pc + 2 ∧ OnlyRegsPc s t) ∧
  (∀ (x y : Reg) (s : State), ∃ t, exec (.subn x y) s = .next t ∧
    (x ≠ 15 → (t.reg x).toNat = ((s.reg y).toNat + (256 - (s.reg x).toNat)) % 256) ∧
    ((s.reg x).toNat < (s.reg y).toNat → t.reg 15 = 1) ∧ ((s.reg y).toNat ≤ (s.reg x).toNat → t.reg 15 = 0) ∧
    RegsKept s t (fun r => r = x ∨ r = 15) ∧ t.pc = s.pc + 2 ∧ OnlyRegsPc s t) ∧
  Encodes 0xF00F 0x8005 (fun w => .subReg (opX w) (opY w)) ∧
  Encodes 0xF00F 0x8007 (fun w => .subn (opX w) (opY w))

/-- `SHR` and `SHL`, for both settings of `SHIFT_SRC`: the source halved, flag its old bit 0; the source doubled modulo
256, flag 8 when its bit 7 was set, else 0 (R146, R148; R150's parameter is the spec's decision D6, log 4; the flag
last is R149, decision D7, log 13). -/
def Obligations.ShiftsForBothSources : Prop :=
  (∀ (x y : Reg) (s : State) (src : Byte), src = (if s.cfg.shiftSrc = .x then s.reg x else s.reg y) →
    (∃ t, exec (.shr x y) s = .next t ∧ (x ≠ 15 → (t.reg x).toNat = src.toNat / 2) ∧
      (t.reg 15).toNat = src.toNat % 2 ∧ RegsKept s t (fun r => r = x ∨ r = 15) ∧ t.pc = s.pc + 2 ∧ OnlyRegsPc s t) ∧
    (∃ t, exec (.shl x y) s = .next t ∧ (x ≠ 15 → (t.reg x).toNat = src.toNat * 2 % 256) ∧
      (128 ≤ src.toNat → t.reg 15 = 8) ∧ (src.toNat < 128 → t.reg 15 = 0) ∧
      RegsKept s t (fun r => r = x ∨ r = 15) ∧ t.pc = s.pc + 2 ∧ OnlyRegsPc s t)) ∧
  Encodes 0xF00F 0x8006 (fun w => .shr (opX w) (opY w)) ∧
  Encodes 0xF00F 0x800E (fun w => .shl (opX w) (opY w))

/-! ### Index and random (`spec/43_index_random.md`) -/

/-- `LD I, nnn`: `I = NNN`, whatever `I` was; no flag, nothing else changes but `pc` (R160). -/
def Obligations.SetIndexRegister : Prop :=
  (∀ (nnn : Addr12) (s : State), ∃ t, exec (.ldIndex nnn) s = .next t ∧ t.index.toNat = nnn.toNat ∧
    t.pc = s.pc + 2 ∧ OnlyIndexPc s t) ∧
  Encodes 0xF000 0xA000 (fun w => .ldIndex (opNNN w))

/-- `RND Vx, kk`: `V[X]` is the free byte of this draw masked by `KK`, so every bit that is 0 in `KK` is 0 in `V[X]`,
and the next draw is another free byte (R161, the spec's decision D11, log 6: the draw's value is constrained by
nothing). -/
def Obligations.RandomIsMasked : Prop :=
  (∀ (x : Reg) (kk : Byte) (s : State), ∃ t, exec (.rnd x kk) s = .next t ∧
    (∀ k < 8, (t.reg x).getLsbD k = ((Config.randomByte s.draws).getLsbD k && kk.getLsbD k)) ∧
    RegsKept s t (· = x) ∧ t.draws = s.draws + 1 ∧ t.pc = s.pc + 2 ∧ OnlyRegsPcDraws s t) ∧
  Encodes 0xF000 0xC000 (fun w => .rnd (opX w) (opKK w))

/-! ### Draw (`spec/44_draw.md`) -/

/-- `DRW Vx, Vy, n` completes whenever `n = 0`, and with `n >= 1` when the sprite's bytes are in memory and its
rectangle is on the grid; then every cell of the rectangle is the sprite's bit, most significant first, every other
cell is as before, and nothing else changes but `pc`: no flag, no register, not `I`, no byte of memory (R170; the
closed condition is R171, which the spec derives). -/
def Obligations.DrawOverwritesItsRectangle : Prop :=
  (∀ (x y : Reg) (n : Nibble) (s : State),
    n = 0 ∨ (s.index.toNat + n.toNat ≤ 4096 ∧ (s.reg x).toNat + 8 ≤ s.cfg.dispW ∧
      (s.reg y).toNat + n.toNat ≤ s.cfg.dispH) →
    ∃ t, exec (.drw x y n) s = .next t ∧ t.pc = s.pc + 2 ∧ OnlyDispPc s t ∧
      (∀ cx cy, InSprite (s.reg x).toNat (s.reg y).toNat n.toNat cx cy →
        t.cellAt cx cy = (s.byteAt (indexAddr s (cy - (s.reg y).toNat))).getLsbD (7 - (cx - (s.reg x).toNat))) ∧
      (∀ cx cy, ¬ InSprite (s.reg x).toNat (s.reg y).toNat n.toNat cx cy → t.cellAt cx cy = s.cellAt cx cy)) ∧
  Encodes 0xF000 0xD000 (fun w => .drw (opX w) (opY w) (opN w))

/-- `DRW` in every other case raises, and the first failing access decides the class of the cause, the read of a row
before its cells; `pc` stays, and nothing changes but the display, the fault, the tick and the output (R172 and R273,
the spec's decision D20, log 24). -/
def Obligations.DrawOffTheGridRaises : Prop :=
  ∀ (x y : Reg) (n : Nibble) (s : State), n ≠ 0 →
    ¬ (s.index.toNat + n.toNat ≤ 4096 ∧ (s.reg x).toNat + 8 ≤ s.cfg.dispW ∧
      (s.reg y).toNat + n.toNat ≤ s.cfg.dispH) →
    ∃ t c, exec (.drw x y n) s = .next t ∧
      t = { s with disp := t.disp, fault := some c, tick := .idle, outputs := .fault c :: s.outputs } ∧
      (if 4096 ≤ s.index.toNat then ∃ a, c = .outOfBoundsMemory a
        else if s.cfg.dispW < (s.reg x).toNat + 8 then ∃ px py, c = .outOfBoundsDisplay px py
        else if 4096 - s.index.toNat ≤ s.cfg.dispH - (s.reg y).toNat then ∃ a, c = .outOfBoundsMemory a
        else ∃ px py, c = .outOfBoundsDisplay px py)

/-! ### Key skips (`spec/45_key_skip.md`) -/

/-- `SKP` and `SKNP` with a key index up to 15: the skip is taken exactly when that bit of the held mask is 1, or 0;
nothing but `pc` changes, neither mask either (R180, R181). -/
def Obligations.KeySkipsTestTheHeldMask : Prop :=
  (∀ (x : Reg) (s : State), (s.reg x).toNat ≤ 15 →
    (∃ t, exec (.skp x) s = .next t ∧ OnlyPc s t ∧
      (s.heldMask.getLsbD (s.reg x).toNat = true → t.pc = s.pc + 4) ∧
      (s.heldMask.getLsbD (s.reg x).toNat = false → t.pc = s.pc + 2)) ∧
    (∃ t, exec (.sknp x) s = .next t ∧ OnlyPc s t ∧
      (s.heldMask.getLsbD (s.reg x).toNat = false → t.pc = s.pc + 4) ∧
      (s.heldMask.getLsbD (s.reg x).toNat = true → t.pc = s.pc + 2))) ∧
  Encodes 0xF0FF 0xE09E (fun w => .skp (opX w)) ∧ Encodes 0xF0FF 0xE0A1 (fun w => .sknp (opX w))

/-- `SKP` and `SKNP` with a key index above 15 raise `OutOfBoundsKey` with it and change nothing else (R182, the spec's
decision D14, log 19). -/
def Obligations.KeyIndexAboveFifteenRaises : Prop :=
  ∀ (x : Reg) (s : State), 15 < (s.reg x).toNat →
    (∃ t, exec (.skp x) s = .next t ∧ RaisedOnly s t (.outOfBoundsKey (s.reg x))) ∧
    (∃ t, exec (.sknp x) s = .next t ∧ RaisedOnly s t (.outOfBoundsKey (s.reg x)))

/-! ### Timers, key wait, index and memory (`spec/46_timer_memory_group.md`) -/

/-- `LD Vx, DT`, `LD DT, Vx` and `LD ST, Vx`: the byte is copied, and nothing else changes but `pc`; the
end-of-tick decrement applies to the value just written (R192, R193, and the transfer of R190). -/
def Obligations.TimerTransfers : Prop :=
  (∀ (x : Reg) (s : State), ∃ t, exec (.ldFromDt x) s = .next t ∧ t.reg x = s.dt ∧ RegsKept s t (· = x) ∧
    t.pc = s.pc + 2 ∧ OnlyRegsPc s t) ∧
  (∀ (x : Reg) (s : State), ∃ t, exec (.ldToDt x) s = .next t ∧ t = { s with dt := s.reg x, pc := s.pc + 2 } ∧
    t.endOfTick.dt = s.reg x - 1) ∧
  (∀ (x : Reg) (s : State), exec (.ldToSt x) s = .next { s with st := s.reg x, pc := s.pc + 2 }) ∧
  Encodes 0xF0FF 0xF007 (fun w => .ldFromDt (opX w)) ∧ Encodes 0xF0FF 0xF015 (fun w => .ldToDt (opX w)) ∧
  Encodes 0xF0FF 0xF018 (fun w => .ldToSt (opX w))

/-- `LD Vx, K` only latches its register and advances; and then, in a tick that can still pay, the next step fetches
nothing: it leaves the loop, or captures the key a press has already put in the pressed mask (R191, R233, R235,
R236). -/
def Obligations.KeyWaitSuspendsDispatch : Prop :=
  (∀ (x : Reg) (s : State), exec (.ldKey x) s = .next { s with awaitKey := some x, pc := s.pc + 2 }) ∧
  (∀ (x : Reg) (s t : State) (b : Nat), CanDispatch s b → 4 ≤ b → s.pc.toNat + 1 < 4096 →
    decodeWord (wordOfBytes (s.byteAt s.pc.toNat) (s.byteAt (s.pc.toNat + 1))) = .ok (.ldKey x) → step s = .next t →
    ∃ u, step t = .next u ∧ u.pc = s.pc + 2 ∧ RegsKept s u (· = x) ∧
      (s.pressedMask = 0 → u.tick = .left (b - 2) ∧ u.regs = s.regs ∧ u.awaitKey = some x) ∧
      (s.pressedMask ≠ 0 → u.tick = .looping (b - 2) ∧ u.awaitKey = none)) ∧
  Encodes 0xF0FF 0xF00A (fun w => .ldKey (opX w))

/-- `ADD I, Vx`: `I = (I + V[X]) mod 65536`, no flag and no fault; `LD F, Vx`: `I = V[X] * 5`, with no masking; nothing
else changes but `pc` (R194, R195, the spec's decisions D3 and D12, logs 12 and 17). -/
def Obligations.IndexArithmetic : Prop :=
  (∀ (x : Reg) (s : State), ∃ t, exec (.addIndex x) s = .next t ∧
    t.index.toNat = (s.index.toNat + (s.reg x).toNat) % 65536 ∧ t.pc = s.pc + 2 ∧ OnlyIndexPc s t) ∧
  (∀ (x : Reg) (s : State), ∃ t, exec (.ldGlyph x) s = .next t ∧ t.index.toNat = (s.reg x).toNat * 5 ∧
    t.pc = s.pc + 2 ∧ OnlyIndexPc s t) ∧
  Encodes 0xF0FF 0xF01E (fun w => .addIndex (opX w)) ∧ Encodes 0xF0FF 0xF029 (fun w => .ldGlyph (opX w))

/-- `LD B, Vx` with its three bytes in memory: the hundreds, tens and ones of `V[X]` at `I`, `I + 1`, `I + 2`, every
other byte as before, and nothing else changes but `pc` (R196). -/
def Obligations.BcdStoresThreeDigits : Prop :=
  (∀ (x : Reg) (s : State), indexAddr s 2 < 4096 → ∃ t, exec (.ldBcd x) s = .next t ∧
    (t.byteAt (indexAddr s 0)).toNat = (s.reg x).toNat / 100 ∧
    (t.byteAt (indexAddr s 1)).toNat = (s.reg x).toNat / 10 % 10 ∧
    (t.byteAt (indexAddr s 2)).toNat = (s.reg x).toNat % 10 ∧
    (∀ a, (∀ k < 3, a ≠ indexAddr s k) → t.byteAt a = s.byteAt a) ∧ t.pc = s.pc + 2 ∧ OnlyMemPc s t) ∧
  Encodes 0xF0FF 0xF033 (fun w => .ldBcd (opX w))

/-- `LD [I], Vx` with its bytes in memory: `V[i]` at `I + i` for `i` up to X, every other byte as before, `I` and the
registers unchanged, nothing else but `pc` (R197; that `I` stays is the spec's decision D13, log 18). -/
def Obligations.BulkStoreWritesUpToX : Prop :=
  (∀ (x : Reg) (s : State), indexAddr s x.val < 4096 → ∃ t, exec (.storeRegs x) s = .next t ∧
    (∀ i : Reg, i ≤ x → t.byteAt (indexAddr s i.val) = s.reg i) ∧
    (∀ a, (∀ i : Reg, i ≤ x → a ≠ indexAddr s i.val) → t.byteAt a = s.byteAt a) ∧ t.pc = s.pc + 2 ∧ OnlyMemPc s t) ∧
  Encodes 0xF0FF 0xF055 (fun w => .storeRegs (opX w))

/-- `LD Vx, [I]` with its bytes in memory: `V[i]` from `I + i` for `i` up to X, the other registers as before, `I` and
memory unchanged, nothing else but `pc` (R198; that `I` stays is the spec's decision D13, log 18). -/
def Obligations.BulkLoadReadsUpToX : Prop :=
  (∀ (x : Reg) (s : State), indexAddr s x.val < 4096 → ∃ t, exec (.loadRegs x) s = .next t ∧
    (∀ i : Reg, i ≤ x → t.reg i = s.byteAt (indexAddr s i.val)) ∧ RegsKept s t (· ≤ x) ∧ t.pc = s.pc + 2 ∧
    OnlyRegsPc s t) ∧
  Encodes 0xF0FF 0xF065 (fun w => .loadRegs (opX w))

/-- `LD B`, `LD [I]` and `LD Vx, [I]` whose last address is beyond memory raise `OutOfBoundsMemory` with the first
address that is, `pc` stays, the accesses before it have been done and those after it have not (R63, R70, R196 to
R198; that the earlier accesses stay is the spec's decision D20, log 24). -/
def Obligations.BulkAccessBeyondMemoryRaises : Prop :=
  ∀ (x : Reg) (s : State),
    (4096 ≤ indexAddr s 2 → ∃ t c, exec (.ldBcd x) s = .next t ∧ c = .outOfBoundsMemory (max 4096 (indexAddr s 0)) ∧
      t = { s with mem := t.mem, fault := some c, tick := .idle, outputs := .fault c :: s.outputs } ∧
      (indexAddr s 0 < 4096 → (t.byteAt (indexAddr s 0)).toNat = (s.reg x).toNat / 100) ∧
      (indexAddr s 1 < 4096 → (t.byteAt (indexAddr s 1)).toNat = (s.reg x).toNat / 10 % 10) ∧
      (∀ a, (∀ k < 3, a ≠ indexAddr s k) ∨ 4096 ≤ a → t.byteAt a = s.byteAt a)) ∧
    (4096 ≤ indexAddr s x.val → ∃ t c, exec (.storeRegs x) s = .next t ∧
      c = .outOfBoundsMemory (max 4096 (indexAddr s 0)) ∧
      t = { s with mem := t.mem, fault := some c, tick := .idle, outputs := .fault c :: s.outputs } ∧
      (∀ i : Reg, i ≤ x → indexAddr s i.val < 4096 → t.byteAt (indexAddr s i.val) = s.reg i) ∧
      (∀ a, (∀ i : Reg, i ≤ x → a ≠ indexAddr s i.val) ∨ 4096 ≤ a → t.byteAt a = s.byteAt a)) ∧
    (4096 ≤ indexAddr s x.val → ∃ t c, exec (.loadRegs x) s = .next t ∧
      c = .outOfBoundsMemory (max 4096 (indexAddr s 0)) ∧
      t = { s with regs := t.regs, fault := some c, tick := .idle, outputs := .fault c :: s.outputs } ∧
      (∀ i : Reg, i ≤ x → indexAddr s i.val < 4096 → t.reg i = s.byteAt (indexAddr s i.val)) ∧
      RegsKept s t (fun i => i ≤ x ∧ indexAddr s i.val < 4096))

/-! ### Unimplemented families (`spec/47_unimplemented.md`) -/

/-- `SYS`, with `CLS` and `RET` in it, `CALL` and `JP V0` raise `Unimplemented(w)` with their word, on every path, and
change nothing else: `pc` stays at the instruction, the display is not cleared, nothing is pushed (R210, R211, R212). -/
def Obligations.UnimplementedFamiliesRaise : Prop :=
  (∀ (w : Word), w &&& 0xF000 = 0x0000 → decodeWord w = .ok (.sys (opNNN w)) ∧
    ∀ s, ∃ t, exec (.sys (opNNN w)) s = .next t ∧ RaisedOnly s t (.unimplemented w)) ∧
  (∀ (w : Word), w &&& 0xF000 = 0x2000 → decodeWord w = .ok (.call (opNNN w)) ∧
    ∀ s, ∃ t, exec (.call (opNNN w)) s = .next t ∧ RaisedOnly s t (.unimplemented w)) ∧
  (∀ (w : Word), w &&& 0xF000 = 0xB000 → decodeWord w = .ok (.jpV0 (opNNN w)) ∧
    ∀ s, ∃ t, exec (.jpV0 (opNNN w)) s = .next t ∧ RaisedOnly s t (.unimplemented w))

/-! ### All instructions at once -/

/-- Every instruction answers a next state from every state: none is refused and none stops the machine (R95). For an
instruction that raises this rests on the model's choice of log 20: the effect that R271 gives a raise (the cause
recorded, the output emitted, the tick abandoned; the spec's decision D16) is a next state, and the fatal halt that
R271 speaks of comes with the step after it, which answers the fault when no host move waits. -/
def Obligations.EveryInstructionAnswersANextState : Prop :=
  ∀ (i : Instr) (s : State), ∃ t, exec i s = .next t

/-- An instruction raises only the causes R284 gives it (R284, which the spec derives from the instruction rules). -/
def Obligations.InstructionsRaiseOnlyTheirCauses : Prop :=
  ∀ (i : Instr) (s t : State) (c : Fault), s.fault = none → exec i s = .next t → t.fault = some c → mayRaise i c

/-- `pc` after an instruction: the net line of its rule when it raised nothing, its own address when it raised (R25,
R125, R273; R125's skip and R120's reroute included). -/
def Obligations.ProgramCounterRule : Prop :=
  ∀ (i : Instr) (s t : State), s.fault = none → exec i s = .next t →
    (t.fault = none → t.pc = netPc i s) ∧ (t.fault ≠ none → t.pc = s.pc)

/-- A register that is no destination of the instruction reads as before, and `VF` is a destination beside X of the five
flag-writing ALU instructions only (R20, R21). -/
def Obligations.RegisterFrameOfEveryInstruction : Prop :=
  ∀ (i : Instr) (s t : State), exec i s = .next t → RegsKept s t (writesReg i)

/-- Every byte of memory outside the bytes the instruction stores from `I` on reads as before; for an instruction that
stores nothing, every byte (R60, R70). -/
def Obligations.MemoryFrameOfEveryInstruction : Prop :=
  ∀ (i : Instr) (s t : State) (a : Nat), exec i s = .next t → (∀ k < bytesStored i, a ≠ indexAddr s k) →
    t.byteAt a = s.byteAt a

/-- What only some instructions write: `I` (Annn, Fx1E, Fx29), `dt` (Fx15), `st` (Fx18), the display (Dxyn), the wait
(Fx0A); and what none writes: the configuration, the stack and its depth, both masks, `stopped`; and the fault, the
tick and the outputs are touched by a raise alone (R24, R26 to R33, R36, R39, R278). The count of draws, which Cxkk
alone writes, and the boot marker and the host's moves, which none writes, are the model's own fields (logs 6, 3 and 2),
as the list of outputs is (log 7). The general registers, memory and `pc` have frames of their own. -/
def Obligations.SpecialStateFrameOfEveryInstruction : Prop :=
  ∀ (i : Instr) (s t : State), exec i s = .next t →
    ((∀ nnn, i ≠ .ldIndex nnn) → (∀ x, i ≠ .addIndex x) → (∀ x, i ≠ .ldGlyph x) → t.index = s.index) ∧
    ((∀ x, i ≠ .ldToDt x) → t.dt = s.dt) ∧ ((∀ x, i ≠ .ldToSt x) → t.st = s.st) ∧
    ((∀ x y n, i ≠ .drw x y n) → t.disp = s.disp) ∧ ((∀ x, i ≠ .ldKey x) → t.awaitKey = s.awaitKey) ∧
    ((∀ x kk, i ≠ .rnd x kk) → t.draws = s.draws) ∧
    t.cfg = s.cfg ∧ t.stack = s.stack ∧ t.sp = s.sp ∧ t.heldMask = s.heldMask ∧ t.pressedMask = s.pressedMask ∧
    t.stopped = s.stopped ∧ t.boot = s.boot ∧ t.hostMoves = s.hostMoves ∧
    (t.fault = none → s.fault = none ∧ t.tick = s.tick ∧ t.outputs = s.outputs)

/-- No instruction reads the sound timer, the stack, its depth, the display or the pressed mask: from two states that
differ only in them it makes the same change of the registers, memory, `I`, `pc`, `dt`, the wait and the fault (R26,
R28, R29, R31, R278). For `RND` this compares the same draw of the two states: that equal counts of draws give equal
bytes is the model's choice (log 6), and nothing is said of two runs whose draws differ. -/
def Obligations.UnreadableStateStaysUnread : Prop :=
  ∀ (i : Instr) (s t : State) (v : Byte) (stk : Vector Word 256) (d : Fin 257) (g : Display) (m : Word),
    exec i s = .next t →
    ∃ u, exec i { s with st := v, stack := stk, sp := d, disp := g, pressedMask := m } = .next u ∧
      u.regs = t.regs ∧ u.mem = t.mem ∧ u.index = t.index ∧ u.pc = t.pc ∧ u.dt = t.dt ∧ u.awaitKey = t.awaitKey ∧
      u.fault = t.fault ∧ u.tick = t.tick

/-- Memory: a byte read after a write to its address is the byte written, a write leaves every other byte alone, and
every byte that `LD [I], Vx` or `LD B, Vx` has stored, for every X and at every address, is what the very next fetch of
that address reads, as the high byte or the low byte of the word (R62 to R64; R74's coherence is the spec's decision
D28, log 25). -/
def Obligations.StoredBytesAreReadAndFetched : Prop :=
  (∀ (s : State) (a : Nat) (v : Byte), a < 4096 → ∃ t, memWrite a v s = .done () t ∧ memRead a t = .done v t ∧
    ∀ b, b < 4096 → b ≠ a → memRead b t = .done (s.byteAt b) t) ∧
  (∀ (s : State) (a : Nat) (v : Byte), 4096 ≤ a → memWrite a v s = .raised (.outOfBoundsMemory a) s ∧
    memRead a s = .raised (.outOfBoundsMemory a) s) ∧
  (∀ (x : Reg) (s : State), indexAddr s x.val < 4096 → ∃ t, exec (.storeRegs x) s = .next t ∧
    ∀ p : Word, p.toNat + 1 < 4096 →
      FetchSees t p x.val (indexAddr s) (fun k => (s.reg (Fin.ofNat 16 k)).toNat)) ∧
  (∀ (x : Reg) (s : State), indexAddr s 2 < 4096 → ∃ t, exec (.ldBcd x) s = .next t ∧
    ∀ p : Word, p.toNat + 1 < 4096 → FetchSees t p 2 (indexAddr s) (bcdDigit (s.reg x)))

/-! ### The invariant -/

/-- The invariant holds at reset: `pc`, the budget, the fault, its causes and the call stack by R25, R26, R35, R36, R40 and
R286; that memory and display are held in a canonical form is the model's choice (logs 30 and 27; the bounds of both are
R22's and R29's), and so is the boot marker (log 3), which stands for the boot order of R301. -/
def Obligations.InvariantHoldsAtReset : Prop := MachineInv State.reset

/-- Every step keeps the invariant, from any state that has it: memory and display stay within the bounds of R22 and R29
and in the canonical forms the model chose (logs 30 and 27), `pc` stays at most 4098 (R25), the budget stays 0, 2, 4, 6
or 8 (R35), a faulted core is in no tick (R240), causes 5 to 7 never arise (R286), the call stack is never touched
(R26), and a core that is in a tick or faulted has the boot marker `started`, a marker of the model's own (log 3) for
the boot order of R301. -/
def Obligations.EveryStepKeepsTheInvariant : Prop :=
  ∀ s t : State, MachineInv s → step s = .next t → MachineInv t
end

