-- ==== Sys2Proof/Laws/Decode.lean ====
section
/-! SUPPORT. The laws of the fields and of the encoder: each field as a number, each field of an encoded word, and what
a mask of the opcode map says of the fields. -/

namespace Sys2Proof

/-! ### Fields as numbers -/

theorem fieldFam_toNat (w : Word) : (fieldFam w).toNat = w.toNat / 4096 := by
  have := w.isLt
  simp only [fieldFam, BitVec.extractLsb'_toNat, Nat.shiftRight_eq_div_pow]
  omega

theorem fieldN_toNat (w : Word) : (fieldN w).toNat = w.toNat % 16 := by
  simp [fieldN, BitVec.extractLsb'_toNat]

theorem fieldKK_toNat (w : Word) : (fieldKK w).toNat = w.toNat % 256 := by
  simp [fieldKK, BitVec.extractLsb'_toNat]

theorem fieldNNN_toNat (w : Word) : (fieldNNN w).toNat = w.toNat % 4096 := by
  simp [fieldNNN, BitVec.extractLsb'_toNat]

theorem fieldX_val (w : Word) : (fieldX w).val = w.toNat / 256 % 16 := by
  simp [fieldX, BitVec.extractLsb', BitVec.toFin_ofNat, Nat.shiftRight_eq_div_pow]

theorem fieldY_val (w : Word) : (fieldY w).val = w.toNat / 16 % 16 := by
  simp [fieldY, BitVec.extractLsb', BitVec.toFin_ofNat, Nat.shiftRight_eq_div_pow]

/-- The word of two bytes as a number, high byte first (R61). -/
theorem wordOfBytes_toNat (hi lo : Byte) : (wordOfBytes hi lo).toNat = hi.toNat * 256 + lo.toNat := by
  have := lo.isLt
  simp only [wordOfBytes, BitVec.toNat_append]
  rw [← Nat.shiftLeft_add_eq_or_of_lt (by omega), Nat.shiftLeft_eq]

/-- A word's two bytes make it again. -/
theorem wordOfBytes_bytes (w : Word) : wordOfBytes (w.extractLsb' 8 8) (w.extractLsb' 0 8) = w := by
  have := w.isLt
  apply BitVec.eq_of_toNat_eq
  simp only [wordOfBytes_toNat, BitVec.extractLsb'_toNat, Nat.shiftRight_eq_div_pow]
  omega

/-! ### Encoded words as numbers -/

theorem encodeA_toNat (f : Nibble) (nnn : Addr12) : (encodeA f nnn).toNat = f.toNat * 4096 + nnn.toNat := by
  have := nnn.isLt
  simp only [encodeA, BitVec.toNat_append]
  rw [← Nat.shiftLeft_add_eq_or_of_lt (by omega), Nat.shiftLeft_eq]

theorem encodeXK_toNat (f : Nibble) (x : Reg) (kk : Byte) :
    (encodeXK f x kk).toNat = f.toNat * 4096 + x.val * 256 + kk.toNat := by
  have hk := kk.isLt
  have hx := x.isLt
  simp only [encodeXK, BitVec.toNat_append, BitVec.toNat_ofFin]
  rw [← Nat.shiftLeft_add_eq_or_of_lt (by omega), ← Nat.shiftLeft_add_eq_or_of_lt (by omega), Nat.shiftLeft_eq,
    Nat.shiftLeft_eq]
  omega

theorem encodeXYN_toNat (f : Nibble) (x y : Reg) (n : Nibble) :
    (encodeXYN f x y n).toNat = f.toNat * 4096 + x.val * 256 + y.val * 16 + n.toNat := by
  have hn := n.isLt
  have hx := x.isLt
  have hy := y.isLt
  simp only [encodeXYN, BitVec.toNat_append, BitVec.toNat_ofFin]
  rw [← Nat.shiftLeft_add_eq_or_of_lt (by omega), ← Nat.shiftLeft_add_eq_or_of_lt (by omega),
    ← Nat.shiftLeft_add_eq_or_of_lt (by omega), Nat.shiftLeft_eq, Nat.shiftLeft_eq, Nat.shiftLeft_eq]
  omega

/-! ### Fields of encoded words -/

@[simp] theorem fieldFam_encodeA (f : Nibble) (a : Addr12) : fieldFam (encodeA f a) = f := by
  have := a.isLt
  apply BitVec.eq_of_toNat_eq; rw [fieldFam_toNat, encodeA_toNat]; omega

@[simp] theorem fieldNNN_encodeA (f : Nibble) (a : Addr12) : fieldNNN (encodeA f a) = a := by
  have := a.isLt
  apply BitVec.eq_of_toNat_eq; rw [fieldNNN_toNat, encodeA_toNat]; omega

@[simp] theorem fieldFam_encodeXK (f : Nibble) (x : Reg) (k : Byte) : fieldFam (encodeXK f x k) = f := by
  have := k.isLt; have := x.isLt
  apply BitVec.eq_of_toNat_eq; rw [fieldFam_toNat, encodeXK_toNat]; omega

@[simp] theorem fieldX_encodeXK (f : Nibble) (x : Reg) (k : Byte) : fieldX (encodeXK f x k) = x := by
  have := k.isLt; have := x.isLt
  apply Fin.ext; rw [fieldX_val, encodeXK_toNat]; omega

@[simp] theorem fieldKK_encodeXK (f : Nibble) (x : Reg) (k : Byte) : fieldKK (encodeXK f x k) = k := by
  have := k.isLt; have := x.isLt
  apply BitVec.eq_of_toNat_eq; rw [fieldKK_toNat, encodeXK_toNat]; omega

@[simp] theorem fieldFam_encodeXYN (f : Nibble) (x y : Reg) (n : Nibble) : fieldFam (encodeXYN f x y n) = f := by
  have := n.isLt; have := x.isLt; have := y.isLt
  apply BitVec.eq_of_toNat_eq; rw [fieldFam_toNat, encodeXYN_toNat]; omega

@[simp] theorem fieldX_encodeXYN (f : Nibble) (x y : Reg) (n : Nibble) : fieldX (encodeXYN f x y n) = x := by
  have := n.isLt; have := x.isLt; have := y.isLt
  apply Fin.ext; rw [fieldX_val, encodeXYN_toNat]; omega

@[simp] theorem fieldY_encodeXYN (f : Nibble) (x y : Reg) (n : Nibble) : fieldY (encodeXYN f x y n) = y := by
  have := n.isLt; have := x.isLt; have := y.isLt
  apply Fin.ext; rw [fieldY_val, encodeXYN_toNat]; omega

@[simp] theorem fieldN_encodeXYN (f : Nibble) (x y : Reg) (n : Nibble) : fieldN (encodeXYN f x y n) = n := by
  have := n.isLt; have := x.isLt; have := y.isLt
  apply BitVec.eq_of_toNat_eq; rw [fieldN_toNat, encodeXYN_toNat]; omega

/-! ### What the masks of the opcode map say -/

/-- The number that a mask of whole nibbles keeps: the family alone. -/
theorem and_family_toNat (w : Word) : (w &&& 0xF000#16).toNat = w.toNat / 4096 * 4096 := by
  have : (w &&& 0xF000#16) = (w >>> 12) <<< 12 := by
    ext i hi
    have : i < 16 := hi
    interval_cases i <;> simp
  rw [this, BitVec.toNat_shiftLeft, BitVec.toNat_ushiftRight, Nat.shiftLeft_eq, Nat.shiftRight_eq_div_pow]
  have := w.isLt
  omega

/-- The family and the low nibble. -/
theorem and_familyNibble_toNat (w : Word) : (w &&& 0xF00F#16).toNat = w.toNat / 4096 * 4096 + w.toNat % 16 := by
  have h : (w &&& 0xF00F#16) = (w &&& 0xF000#16) ||| (w &&& 0xF#16) := by
    ext i hi
    have : i < 16 := hi
    interval_cases i <;> simp
  have h2 : (w &&& 0xF#16).toNat = w.toNat % 16 := by
    rw [BitVec.toNat_and]; exact Nat.and_two_pow_sub_one_eq_mod w.toNat 4
  rw [h, BitVec.toNat_or, h2, and_family_toNat]
  have e : w.toNat / 4096 * 4096 = (w.toNat / 4096) <<< 12 := by rw [Nat.shiftLeft_eq]
  rw [e, ← Nat.shiftLeft_add_eq_or_of_lt (by omega)]

/-- The family and the low byte. -/
theorem and_familyByte_toNat (w : Word) : (w &&& 0xF0FF#16).toNat = w.toNat / 4096 * 4096 + w.toNat % 256 := by
  have h : (w &&& 0xF0FF#16) = (w &&& 0xF000#16) ||| (w &&& 0xFF#16) := by
    ext i hi
    have : i < 16 := hi
    interval_cases i <;> simp
  have h2 : (w &&& 0xFF#16).toNat = w.toNat % 256 := by
    rw [BitVec.toNat_and]; exact Nat.and_two_pow_sub_one_eq_mod w.toNat 8
  rw [h, BitVec.toNat_or, h2, and_family_toNat]
  have e : w.toNat / 4096 * 4096 = (w.toNat / 4096) <<< 12 := by rw [Nat.shiftLeft_eq]
  rw [e, ← Nat.shiftLeft_add_eq_or_of_lt (by omega)]

/-! ### Rows of the opcode map -/

/-- A word of a row whose mask keeps the family. -/
theorem isOf_family (p w : Word) : (OpcodeRow.mk 0xF000 p).isOf w = true ↔ w.toNat / 4096 * 4096 = p.toNat := by
  simp only [OpcodeRow.isOf, beq_iff_eq]
  rw [← BitVec.toNat_inj]
  exact iff_of_eq (congrArg (· = p.toNat) (and_family_toNat w))

/-- A word of a row whose mask keeps the family and the low nibble. -/
theorem isOf_familyNibble (p w : Word) :
    (OpcodeRow.mk 0xF00F p).isOf w = true ↔ w.toNat / 4096 * 4096 + w.toNat % 16 = p.toNat := by
  simp only [OpcodeRow.isOf, beq_iff_eq]
  rw [← BitVec.toNat_inj]
  exact iff_of_eq (congrArg (· = p.toNat) (and_familyNibble_toNat w))

/-- A word of a row whose mask keeps the family and the low byte. -/
theorem isOf_familyByte (p w : Word) :
    (OpcodeRow.mk 0xF0FF p).isOf w = true ↔ w.toNat / 4096 * 4096 + w.toNat % 256 = p.toNat := by
  simp only [OpcodeRow.isOf, beq_iff_eq]
  rw [← BitVec.toNat_inj]
  exact iff_of_eq (congrArg (· = p.toNat) (and_familyByte_toNat w))

end Sys2Proof
end

