-- ==== Sys2Proof/Laws/State.lean ====
section
/-! SUPPORT. The small lemmas of every update of the state: what each field is after it. Later proofs use these and
never unfold a record update. -/

namespace Sys2Proof.Machine

/-! ### Registers -/

@[simp] theorem reg_setReg_same (s : State) (r : Reg) (v : Byte) : (s.setReg r v).reg r = v := by
  simp [State.setReg, State.reg]

@[simp] theorem reg_setReg_other (s : State) (x r : Reg) (v : Byte) (h : r ≠ x) :
    (s.setReg x v).reg r = s.reg r := by
  have hv : x.val ≠ r.val := fun e => h (Fin.ext e.symm)
  simp [State.setReg, State.reg, hv]

theorem reg_setReg (s : State) (x r : Reg) (v : Byte) :
    (s.setReg x v).reg r = if r = x then v else s.reg r := by
  by_cases h : r = x
  · subst h; simp
  · simp [h]

/-- After the result and the flag are written, `VF` is the flag whatever the destination (R149). -/
@[simp] theorem reg_setResultFlag_flag (s : State) (x : Reg) (u v : Byte) :
    (s.setResultFlag x u v).reg flagReg = v := reg_setReg_same _ _ _

/-- Any other register after the result and the flag are written (R149). -/
theorem reg_setResultFlag_other (s : State) (x r : Reg) (u v : Byte) (h : r ≠ flagReg) :
    (s.setResultFlag x u v).reg r = if r = x then u else s.reg r := by
  rw [State.setResultFlag, reg_setReg_other _ _ _ _ h, reg_setReg]

/-- Two states with the same reading of every register have the same registers. -/
theorem regs_ext {s t : State} (h : ∀ r : Reg, s.reg r = t.reg r) : s.regs = t.regs := by
  apply Vector.ext
  intro k hk
  exact h ⟨k, hk⟩


/-! ### `setReg` -/

@[simp] theorem setReg_cfg (s : State) (r : Reg) (v : Byte) : (s.setReg r v).cfg = s.cfg := rfl
@[simp] theorem setReg_mem (s : State) (r : Reg) (v : Byte) : (s.setReg r v).mem = s.mem := rfl
@[simp] theorem setReg_index (s : State) (r : Reg) (v : Byte) : (s.setReg r v).index = s.index := rfl
@[simp] theorem setReg_pc (s : State) (r : Reg) (v : Byte) : (s.setReg r v).pc = s.pc := rfl
@[simp] theorem setReg_stack (s : State) (r : Reg) (v : Byte) : (s.setReg r v).stack = s.stack := rfl
@[simp] theorem setReg_sp (s : State) (r : Reg) (v : Byte) : (s.setReg r v).sp = s.sp := rfl
@[simp] theorem setReg_dt (s : State) (r : Reg) (v : Byte) : (s.setReg r v).dt = s.dt := rfl
@[simp] theorem setReg_st (s : State) (r : Reg) (v : Byte) : (s.setReg r v).st = s.st := rfl
@[simp] theorem setReg_disp (s : State) (r : Reg) (v : Byte) : (s.setReg r v).disp = s.disp := rfl
@[simp] theorem setReg_heldMask (s : State) (r : Reg) (v : Byte) : (s.setReg r v).heldMask = s.heldMask := rfl
@[simp] theorem setReg_pressedMask (s : State) (r : Reg) (v : Byte) : (s.setReg r v).pressedMask = s.pressedMask := rfl
@[simp] theorem setReg_awaitKey (s : State) (r : Reg) (v : Byte) : (s.setReg r v).awaitKey = s.awaitKey := rfl
@[simp] theorem setReg_stopped (s : State) (r : Reg) (v : Byte) : (s.setReg r v).stopped = s.stopped := rfl
@[simp] theorem setReg_tick (s : State) (r : Reg) (v : Byte) : (s.setReg r v).tick = s.tick := rfl
@[simp] theorem setReg_fault (s : State) (r : Reg) (v : Byte) : (s.setReg r v).fault = s.fault := rfl
@[simp] theorem setReg_boot (s : State) (r : Reg) (v : Byte) : (s.setReg r v).boot = s.boot := rfl
@[simp] theorem setReg_draws (s : State) (r : Reg) (v : Byte) : (s.setReg r v).draws = s.draws := rfl
@[simp] theorem setReg_hostMoves (s : State) (r : Reg) (v : Byte) : (s.setReg r v).hostMoves = s.hostMoves := rfl
@[simp] theorem setReg_outputs (s : State) (r : Reg) (v : Byte) : (s.setReg r v).outputs = s.outputs := rfl
@[simp] theorem setReg_byteAt (s : State) (r : Reg) (v : Byte) (n : Nat) : (s.setReg r v).byteAt n = s.byteAt n := rfl
@[simp] theorem setReg_cellAt (s : State) (r : Reg) (v : Byte) (i j : Nat) : (s.setReg r v).cellAt i j = s.cellAt i j := rfl

/-! ### `setPc` -/

@[simp] theorem setPc_cfg (s : State) (a : Word) : (s.setPc a).cfg = s.cfg := rfl
@[simp] theorem setPc_regs (s : State) (a : Word) : (s.setPc a).regs = s.regs := rfl
@[simp] theorem setPc_mem (s : State) (a : Word) : (s.setPc a).mem = s.mem := rfl
@[simp] theorem setPc_index (s : State) (a : Word) : (s.setPc a).index = s.index := rfl
@[simp] theorem setPc_pc (s : State) (a : Word) : (s.setPc a).pc = a := rfl
@[simp] theorem setPc_stack (s : State) (a : Word) : (s.setPc a).stack = s.stack := rfl
@[simp] theorem setPc_sp (s : State) (a : Word) : (s.setPc a).sp = s.sp := rfl
@[simp] theorem setPc_dt (s : State) (a : Word) : (s.setPc a).dt = s.dt := rfl
@[simp] theorem setPc_st (s : State) (a : Word) : (s.setPc a).st = s.st := rfl
@[simp] theorem setPc_disp (s : State) (a : Word) : (s.setPc a).disp = s.disp := rfl
@[simp] theorem setPc_heldMask (s : State) (a : Word) : (s.setPc a).heldMask = s.heldMask := rfl
@[simp] theorem setPc_pressedMask (s : State) (a : Word) : (s.setPc a).pressedMask = s.pressedMask := rfl
@[simp] theorem setPc_awaitKey (s : State) (a : Word) : (s.setPc a).awaitKey = s.awaitKey := rfl
@[simp] theorem setPc_stopped (s : State) (a : Word) : (s.setPc a).stopped = s.stopped := rfl
@[simp] theorem setPc_tick (s : State) (a : Word) : (s.setPc a).tick = s.tick := rfl
@[simp] theorem setPc_fault (s : State) (a : Word) : (s.setPc a).fault = s.fault := rfl
@[simp] theorem setPc_boot (s : State) (a : Word) : (s.setPc a).boot = s.boot := rfl
@[simp] theorem setPc_draws (s : State) (a : Word) : (s.setPc a).draws = s.draws := rfl
@[simp] theorem setPc_hostMoves (s : State) (a : Word) : (s.setPc a).hostMoves = s.hostMoves := rfl
@[simp] theorem setPc_outputs (s : State) (a : Word) : (s.setPc a).outputs = s.outputs := rfl
@[simp] theorem setPc_reg (s : State) (a : Word) (q : Reg) : (s.setPc a).reg q = s.reg q := rfl
@[simp] theorem setPc_byteAt (s : State) (a : Word) (n : Nat) : (s.setPc a).byteAt n = s.byteAt n := rfl
@[simp] theorem setPc_cellAt (s : State) (a : Word) (i j : Nat) : (s.setPc a).cellAt i j = s.cellAt i j := rfl

/-! ### `setIndex` -/

@[simp] theorem setIndex_cfg (s : State) (a : Word) : (s.setIndex a).cfg = s.cfg := rfl
@[simp] theorem setIndex_regs (s : State) (a : Word) : (s.setIndex a).regs = s.regs := rfl
@[simp] theorem setIndex_mem (s : State) (a : Word) : (s.setIndex a).mem = s.mem := rfl
@[simp] theorem setIndex_index (s : State) (a : Word) : (s.setIndex a).index = a := rfl
@[simp] theorem setIndex_pc (s : State) (a : Word) : (s.setIndex a).pc = s.pc := rfl
@[simp] theorem setIndex_stack (s : State) (a : Word) : (s.setIndex a).stack = s.stack := rfl
@[simp] theorem setIndex_sp (s : State) (a : Word) : (s.setIndex a).sp = s.sp := rfl
@[simp] theorem setIndex_dt (s : State) (a : Word) : (s.setIndex a).dt = s.dt := rfl
@[simp] theorem setIndex_st (s : State) (a : Word) : (s.setIndex a).st = s.st := rfl
@[simp] theorem setIndex_disp (s : State) (a : Word) : (s.setIndex a).disp = s.disp := rfl
@[simp] theorem setIndex_heldMask (s : State) (a : Word) : (s.setIndex a).heldMask = s.heldMask := rfl
@[simp] theorem setIndex_pressedMask (s : State) (a : Word) : (s.setIndex a).pressedMask = s.pressedMask := rfl
@[simp] theorem setIndex_awaitKey (s : State) (a : Word) : (s.setIndex a).awaitKey = s.awaitKey := rfl
@[simp] theorem setIndex_stopped (s : State) (a : Word) : (s.setIndex a).stopped = s.stopped := rfl
@[simp] theorem setIndex_tick (s : State) (a : Word) : (s.setIndex a).tick = s.tick := rfl
@[simp] theorem setIndex_fault (s : State) (a : Word) : (s.setIndex a).fault = s.fault := rfl
@[simp] theorem setIndex_boot (s : State) (a : Word) : (s.setIndex a).boot = s.boot := rfl
@[simp] theorem setIndex_draws (s : State) (a : Word) : (s.setIndex a).draws = s.draws := rfl
@[simp] theorem setIndex_hostMoves (s : State) (a : Word) : (s.setIndex a).hostMoves = s.hostMoves := rfl
@[simp] theorem setIndex_outputs (s : State) (a : Word) : (s.setIndex a).outputs = s.outputs := rfl
@[simp] theorem setIndex_reg (s : State) (a : Word) (q : Reg) : (s.setIndex a).reg q = s.reg q := rfl
@[simp] theorem setIndex_byteAt (s : State) (a : Word) (n : Nat) : (s.setIndex a).byteAt n = s.byteAt n := rfl
@[simp] theorem setIndex_cellAt (s : State) (a : Word) (i j : Nat) : (s.setIndex a).cellAt i j = s.cellAt i j := rfl

/-! ### `setDt` -/

@[simp] theorem setDt_cfg (s : State) (v : Byte) : (s.setDt v).cfg = s.cfg := rfl
@[simp] theorem setDt_regs (s : State) (v : Byte) : (s.setDt v).regs = s.regs := rfl
@[simp] theorem setDt_mem (s : State) (v : Byte) : (s.setDt v).mem = s.mem := rfl
@[simp] theorem setDt_index (s : State) (v : Byte) : (s.setDt v).index = s.index := rfl
@[simp] theorem setDt_pc (s : State) (v : Byte) : (s.setDt v).pc = s.pc := rfl
@[simp] theorem setDt_stack (s : State) (v : Byte) : (s.setDt v).stack = s.stack := rfl
@[simp] theorem setDt_sp (s : State) (v : Byte) : (s.setDt v).sp = s.sp := rfl
@[simp] theorem setDt_dt (s : State) (v : Byte) : (s.setDt v).dt = v := rfl
@[simp] theorem setDt_st (s : State) (v : Byte) : (s.setDt v).st = s.st := rfl
@[simp] theorem setDt_disp (s : State) (v : Byte) : (s.setDt v).disp = s.disp := rfl
@[simp] theorem setDt_heldMask (s : State) (v : Byte) : (s.setDt v).heldMask = s.heldMask := rfl
@[simp] theorem setDt_pressedMask (s : State) (v : Byte) : (s.setDt v).pressedMask = s.pressedMask := rfl
@[simp] theorem setDt_awaitKey (s : State) (v : Byte) : (s.setDt v).awaitKey = s.awaitKey := rfl
@[simp] theorem setDt_stopped (s : State) (v : Byte) : (s.setDt v).stopped = s.stopped := rfl
@[simp] theorem setDt_tick (s : State) (v : Byte) : (s.setDt v).tick = s.tick := rfl
@[simp] theorem setDt_fault (s : State) (v : Byte) : (s.setDt v).fault = s.fault := rfl
@[simp] theorem setDt_boot (s : State) (v : Byte) : (s.setDt v).boot = s.boot := rfl
@[simp] theorem setDt_draws (s : State) (v : Byte) : (s.setDt v).draws = s.draws := rfl
@[simp] theorem setDt_hostMoves (s : State) (v : Byte) : (s.setDt v).hostMoves = s.hostMoves := rfl
@[simp] theorem setDt_outputs (s : State) (v : Byte) : (s.setDt v).outputs = s.outputs := rfl
@[simp] theorem setDt_reg (s : State) (v : Byte) (q : Reg) : (s.setDt v).reg q = s.reg q := rfl
@[simp] theorem setDt_byteAt (s : State) (v : Byte) (n : Nat) : (s.setDt v).byteAt n = s.byteAt n := rfl
@[simp] theorem setDt_cellAt (s : State) (v : Byte) (i j : Nat) : (s.setDt v).cellAt i j = s.cellAt i j := rfl

/-! ### `setSt` -/

@[simp] theorem setSt_cfg (s : State) (v : Byte) : (s.setSt v).cfg = s.cfg := rfl
@[simp] theorem setSt_regs (s : State) (v : Byte) : (s.setSt v).regs = s.regs := rfl
@[simp] theorem setSt_mem (s : State) (v : Byte) : (s.setSt v).mem = s.mem := rfl
@[simp] theorem setSt_index (s : State) (v : Byte) : (s.setSt v).index = s.index := rfl
@[simp] theorem setSt_pc (s : State) (v : Byte) : (s.setSt v).pc = s.pc := rfl
@[simp] theorem setSt_stack (s : State) (v : Byte) : (s.setSt v).stack = s.stack := rfl
@[simp] theorem setSt_sp (s : State) (v : Byte) : (s.setSt v).sp = s.sp := rfl
@[simp] theorem setSt_dt (s : State) (v : Byte) : (s.setSt v).dt = s.dt := rfl
@[simp] theorem setSt_st (s : State) (v : Byte) : (s.setSt v).st = v := rfl
@[simp] theorem setSt_disp (s : State) (v : Byte) : (s.setSt v).disp = s.disp := rfl
@[simp] theorem setSt_heldMask (s : State) (v : Byte) : (s.setSt v).heldMask = s.heldMask := rfl
@[simp] theorem setSt_pressedMask (s : State) (v : Byte) : (s.setSt v).pressedMask = s.pressedMask := rfl
@[simp] theorem setSt_awaitKey (s : State) (v : Byte) : (s.setSt v).awaitKey = s.awaitKey := rfl
@[simp] theorem setSt_stopped (s : State) (v : Byte) : (s.setSt v).stopped = s.stopped := rfl
@[simp] theorem setSt_tick (s : State) (v : Byte) : (s.setSt v).tick = s.tick := rfl
@[simp] theorem setSt_fault (s : State) (v : Byte) : (s.setSt v).fault = s.fault := rfl
@[simp] theorem setSt_boot (s : State) (v : Byte) : (s.setSt v).boot = s.boot := rfl
@[simp] theorem setSt_draws (s : State) (v : Byte) : (s.setSt v).draws = s.draws := rfl
@[simp] theorem setSt_hostMoves (s : State) (v : Byte) : (s.setSt v).hostMoves = s.hostMoves := rfl
@[simp] theorem setSt_outputs (s : State) (v : Byte) : (s.setSt v).outputs = s.outputs := rfl
@[simp] theorem setSt_reg (s : State) (v : Byte) (q : Reg) : (s.setSt v).reg q = s.reg q := rfl
@[simp] theorem setSt_byteAt (s : State) (v : Byte) (n : Nat) : (s.setSt v).byteAt n = s.byteAt n := rfl
@[simp] theorem setSt_cellAt (s : State) (v : Byte) (i j : Nat) : (s.setSt v).cellAt i j = s.cellAt i j := rfl

/-! ### `setAwait` -/

@[simp] theorem setAwait_cfg (s : State) (k : Option Reg) : (s.setAwait k).cfg = s.cfg := rfl
@[simp] theorem setAwait_regs (s : State) (k : Option Reg) : (s.setAwait k).regs = s.regs := rfl
@[simp] theorem setAwait_mem (s : State) (k : Option Reg) : (s.setAwait k).mem = s.mem := rfl
@[simp] theorem setAwait_index (s : State) (k : Option Reg) : (s.setAwait k).index = s.index := rfl
@[simp] theorem setAwait_pc (s : State) (k : Option Reg) : (s.setAwait k).pc = s.pc := rfl
@[simp] theorem setAwait_stack (s : State) (k : Option Reg) : (s.setAwait k).stack = s.stack := rfl
@[simp] theorem setAwait_sp (s : State) (k : Option Reg) : (s.setAwait k).sp = s.sp := rfl
@[simp] theorem setAwait_dt (s : State) (k : Option Reg) : (s.setAwait k).dt = s.dt := rfl
@[simp] theorem setAwait_st (s : State) (k : Option Reg) : (s.setAwait k).st = s.st := rfl
@[simp] theorem setAwait_disp (s : State) (k : Option Reg) : (s.setAwait k).disp = s.disp := rfl
@[simp] theorem setAwait_heldMask (s : State) (k : Option Reg) : (s.setAwait k).heldMask = s.heldMask := rfl
@[simp] theorem setAwait_pressedMask (s : State) (k : Option Reg) : (s.setAwait k).pressedMask = s.pressedMask := rfl
@[simp] theorem setAwait_awaitKey (s : State) (k : Option Reg) : (s.setAwait k).awaitKey = k := rfl
@[simp] theorem setAwait_stopped (s : State) (k : Option Reg) : (s.setAwait k).stopped = s.stopped := rfl
@[simp] theorem setAwait_tick (s : State) (k : Option Reg) : (s.setAwait k).tick = s.tick := rfl
@[simp] theorem setAwait_fault (s : State) (k : Option Reg) : (s.setAwait k).fault = s.fault := rfl
@[simp] theorem setAwait_boot (s : State) (k : Option Reg) : (s.setAwait k).boot = s.boot := rfl
@[simp] theorem setAwait_draws (s : State) (k : Option Reg) : (s.setAwait k).draws = s.draws := rfl
@[simp] theorem setAwait_hostMoves (s : State) (k : Option Reg) : (s.setAwait k).hostMoves = s.hostMoves := rfl
@[simp] theorem setAwait_outputs (s : State) (k : Option Reg) : (s.setAwait k).outputs = s.outputs := rfl
@[simp] theorem setAwait_reg (s : State) (k : Option Reg) (q : Reg) : (s.setAwait k).reg q = s.reg q := rfl
@[simp] theorem setAwait_byteAt (s : State) (k : Option Reg) (n : Nat) : (s.setAwait k).byteAt n = s.byteAt n := rfl
@[simp] theorem setAwait_cellAt (s : State) (k : Option Reg) (i j : Nat) : (s.setAwait k).cellAt i j = s.cellAt i j := rfl

/-! ### `setTick` -/

@[simp] theorem setTick_cfg (s : State) (p : TickPhase) : (s.setTick p).cfg = s.cfg := rfl
@[simp] theorem setTick_regs (s : State) (p : TickPhase) : (s.setTick p).regs = s.regs := rfl
@[simp] theorem setTick_mem (s : State) (p : TickPhase) : (s.setTick p).mem = s.mem := rfl
@[simp] theorem setTick_index (s : State) (p : TickPhase) : (s.setTick p).index = s.index := rfl
@[simp] theorem setTick_pc (s : State) (p : TickPhase) : (s.setTick p).pc = s.pc := rfl
@[simp] theorem setTick_stack (s : State) (p : TickPhase) : (s.setTick p).stack = s.stack := rfl
@[simp] theorem setTick_sp (s : State) (p : TickPhase) : (s.setTick p).sp = s.sp := rfl
@[simp] theorem setTick_dt (s : State) (p : TickPhase) : (s.setTick p).dt = s.dt := rfl
@[simp] theorem setTick_st (s : State) (p : TickPhase) : (s.setTick p).st = s.st := rfl
@[simp] theorem setTick_disp (s : State) (p : TickPhase) : (s.setTick p).disp = s.disp := rfl
@[simp] theorem setTick_heldMask (s : State) (p : TickPhase) : (s.setTick p).heldMask = s.heldMask := rfl
@[simp] theorem setTick_pressedMask (s : State) (p : TickPhase) : (s.setTick p).pressedMask = s.pressedMask := rfl
@[simp] theorem setTick_awaitKey (s : State) (p : TickPhase) : (s.setTick p).awaitKey = s.awaitKey := rfl
@[simp] theorem setTick_stopped (s : State) (p : TickPhase) : (s.setTick p).stopped = s.stopped := rfl
@[simp] theorem setTick_tick (s : State) (p : TickPhase) : (s.setTick p).tick = p := rfl
@[simp] theorem setTick_fault (s : State) (p : TickPhase) : (s.setTick p).fault = s.fault := rfl
@[simp] theorem setTick_boot (s : State) (p : TickPhase) : (s.setTick p).boot = s.boot := rfl
@[simp] theorem setTick_draws (s : State) (p : TickPhase) : (s.setTick p).draws = s.draws := rfl
@[simp] theorem setTick_hostMoves (s : State) (p : TickPhase) : (s.setTick p).hostMoves = s.hostMoves := rfl
@[simp] theorem setTick_outputs (s : State) (p : TickPhase) : (s.setTick p).outputs = s.outputs := rfl
@[simp] theorem setTick_reg (s : State) (p : TickPhase) (q : Reg) : (s.setTick p).reg q = s.reg q := rfl
@[simp] theorem setTick_byteAt (s : State) (p : TickPhase) (n : Nat) : (s.setTick p).byteAt n = s.byteAt n := rfl
@[simp] theorem setTick_cellAt (s : State) (p : TickPhase) (i j : Nat) : (s.setTick p).cellAt i j = s.cellAt i j := rfl

/-! ### `advance` -/

@[simp] theorem advance_cfg (s : State) : (s.advance).cfg = s.cfg := rfl
@[simp] theorem advance_regs (s : State) : (s.advance).regs = s.regs := rfl
@[simp] theorem advance_mem (s : State) : (s.advance).mem = s.mem := rfl
@[simp] theorem advance_index (s : State) : (s.advance).index = s.index := rfl
@[simp] theorem advance_pc (s : State) : (s.advance).pc = s.pc + 2 := rfl
@[simp] theorem advance_stack (s : State) : (s.advance).stack = s.stack := rfl
@[simp] theorem advance_sp (s : State) : (s.advance).sp = s.sp := rfl
@[simp] theorem advance_dt (s : State) : (s.advance).dt = s.dt := rfl
@[simp] theorem advance_st (s : State) : (s.advance).st = s.st := rfl
@[simp] theorem advance_disp (s : State) : (s.advance).disp = s.disp := rfl
@[simp] theorem advance_heldMask (s : State) : (s.advance).heldMask = s.heldMask := rfl
@[simp] theorem advance_pressedMask (s : State) : (s.advance).pressedMask = s.pressedMask := rfl
@[simp] theorem advance_awaitKey (s : State) : (s.advance).awaitKey = s.awaitKey := rfl
@[simp] theorem advance_stopped (s : State) : (s.advance).stopped = s.stopped := rfl
@[simp] theorem advance_tick (s : State) : (s.advance).tick = s.tick := rfl
@[simp] theorem advance_fault (s : State) : (s.advance).fault = s.fault := rfl
@[simp] theorem advance_boot (s : State) : (s.advance).boot = s.boot := rfl
@[simp] theorem advance_draws (s : State) : (s.advance).draws = s.draws := rfl
@[simp] theorem advance_hostMoves (s : State) : (s.advance).hostMoves = s.hostMoves := rfl
@[simp] theorem advance_outputs (s : State) : (s.advance).outputs = s.outputs := rfl
@[simp] theorem advance_reg (s : State) (q : Reg) : (s.advance).reg q = s.reg q := rfl
@[simp] theorem advance_byteAt (s : State) (n : Nat) : (s.advance).byteAt n = s.byteAt n := rfl
@[simp] theorem advance_cellAt (s : State) (i j : Nat) : (s.advance).cellAt i j = s.cellAt i j := rfl

/-! ### `setByte` -/

@[simp] theorem setByte_cfg (s : State) (a : Nat) (v : Byte) : (s.setByte a v).cfg = s.cfg := rfl
@[simp] theorem setByte_regs (s : State) (a : Nat) (v : Byte) : (s.setByte a v).regs = s.regs := rfl
@[simp] theorem setByte_mem (s : State) (a : Nat) (v : Byte) : (s.setByte a v).mem = Memory.write s.cfg s.mem a v := rfl
@[simp] theorem setByte_index (s : State) (a : Nat) (v : Byte) : (s.setByte a v).index = s.index := rfl
@[simp] theorem setByte_pc (s : State) (a : Nat) (v : Byte) : (s.setByte a v).pc = s.pc := rfl
@[simp] theorem setByte_stack (s : State) (a : Nat) (v : Byte) : (s.setByte a v).stack = s.stack := rfl
@[simp] theorem setByte_sp (s : State) (a : Nat) (v : Byte) : (s.setByte a v).sp = s.sp := rfl
@[simp] theorem setByte_dt (s : State) (a : Nat) (v : Byte) : (s.setByte a v).dt = s.dt := rfl
@[simp] theorem setByte_st (s : State) (a : Nat) (v : Byte) : (s.setByte a v).st = s.st := rfl
@[simp] theorem setByte_disp (s : State) (a : Nat) (v : Byte) : (s.setByte a v).disp = s.disp := rfl
@[simp] theorem setByte_heldMask (s : State) (a : Nat) (v : Byte) : (s.setByte a v).heldMask = s.heldMask := rfl
@[simp] theorem setByte_pressedMask (s : State) (a : Nat) (v : Byte) : (s.setByte a v).pressedMask = s.pressedMask := rfl
@[simp] theorem setByte_awaitKey (s : State) (a : Nat) (v : Byte) : (s.setByte a v).awaitKey = s.awaitKey := rfl
@[simp] theorem setByte_stopped (s : State) (a : Nat) (v : Byte) : (s.setByte a v).stopped = s.stopped := rfl
@[simp] theorem setByte_tick (s : State) (a : Nat) (v : Byte) : (s.setByte a v).tick = s.tick := rfl
@[simp] theorem setByte_fault (s : State) (a : Nat) (v : Byte) : (s.setByte a v).fault = s.fault := rfl
@[simp] theorem setByte_boot (s : State) (a : Nat) (v : Byte) : (s.setByte a v).boot = s.boot := rfl
@[simp] theorem setByte_draws (s : State) (a : Nat) (v : Byte) : (s.setByte a v).draws = s.draws := rfl
@[simp] theorem setByte_hostMoves (s : State) (a : Nat) (v : Byte) : (s.setByte a v).hostMoves = s.hostMoves := rfl
@[simp] theorem setByte_outputs (s : State) (a : Nat) (v : Byte) : (s.setByte a v).outputs = s.outputs := rfl
@[simp] theorem setByte_reg (s : State) (a : Nat) (v : Byte) (q : Reg) : (s.setByte a v).reg q = s.reg q := rfl
@[simp] theorem setByte_cellAt (s : State) (a : Nat) (v : Byte) (i j : Nat) : (s.setByte a v).cellAt i j = s.cellAt i j := rfl

/-! ### `setCell` -/

@[simp] theorem setCell_cfg (s : State) (x y : Nat) (b : Bool) : (s.setCell x y b).cfg = s.cfg := rfl
@[simp] theorem setCell_regs (s : State) (x y : Nat) (b : Bool) : (s.setCell x y b).regs = s.regs := rfl
@[simp] theorem setCell_mem (s : State) (x y : Nat) (b : Bool) : (s.setCell x y b).mem = s.mem := rfl
@[simp] theorem setCell_index (s : State) (x y : Nat) (b : Bool) : (s.setCell x y b).index = s.index := rfl
@[simp] theorem setCell_pc (s : State) (x y : Nat) (b : Bool) : (s.setCell x y b).pc = s.pc := rfl
@[simp] theorem setCell_stack (s : State) (x y : Nat) (b : Bool) : (s.setCell x y b).stack = s.stack := rfl
@[simp] theorem setCell_sp (s : State) (x y : Nat) (b : Bool) : (s.setCell x y b).sp = s.sp := rfl
@[simp] theorem setCell_dt (s : State) (x y : Nat) (b : Bool) : (s.setCell x y b).dt = s.dt := rfl
@[simp] theorem setCell_st (s : State) (x y : Nat) (b : Bool) : (s.setCell x y b).st = s.st := rfl
@[simp] theorem setCell_disp (s : State) (x y : Nat) (b : Bool) : (s.setCell x y b).disp = Display.write s.disp x y b := rfl
@[simp] theorem setCell_heldMask (s : State) (x y : Nat) (b : Bool) : (s.setCell x y b).heldMask = s.heldMask := rfl
@[simp] theorem setCell_pressedMask (s : State) (x y : Nat) (b : Bool) : (s.setCell x y b).pressedMask = s.pressedMask := rfl
@[simp] theorem setCell_awaitKey (s : State) (x y : Nat) (b : Bool) : (s.setCell x y b).awaitKey = s.awaitKey := rfl
@[simp] theorem setCell_stopped (s : State) (x y : Nat) (b : Bool) : (s.setCell x y b).stopped = s.stopped := rfl
@[simp] theorem setCell_tick (s : State) (x y : Nat) (b : Bool) : (s.setCell x y b).tick = s.tick := rfl
@[simp] theorem setCell_fault (s : State) (x y : Nat) (b : Bool) : (s.setCell x y b).fault = s.fault := rfl
@[simp] theorem setCell_boot (s : State) (x y : Nat) (b : Bool) : (s.setCell x y b).boot = s.boot := rfl
@[simp] theorem setCell_draws (s : State) (x y : Nat) (b : Bool) : (s.setCell x y b).draws = s.draws := rfl
@[simp] theorem setCell_hostMoves (s : State) (x y : Nat) (b : Bool) : (s.setCell x y b).hostMoves = s.hostMoves := rfl
@[simp] theorem setCell_outputs (s : State) (x y : Nat) (b : Bool) : (s.setCell x y b).outputs = s.outputs := rfl
@[simp] theorem setCell_reg (s : State) (x y : Nat) (b : Bool) (q : Reg) : (s.setCell x y b).reg q = s.reg q := rfl
@[simp] theorem setCell_byteAt (s : State) (x y : Nat) (b : Bool) (n : Nat) : (s.setCell x y b).byteAt n = s.byteAt n := rfl

/-! ### `raise` -/

@[simp] theorem raise_cfg (s : State) (c : Fault) : (s.raise c).cfg = s.cfg := rfl
@[simp] theorem raise_regs (s : State) (c : Fault) : (s.raise c).regs = s.regs := rfl
@[simp] theorem raise_mem (s : State) (c : Fault) : (s.raise c).mem = s.mem := rfl
@[simp] theorem raise_index (s : State) (c : Fault) : (s.raise c).index = s.index := rfl
@[simp] theorem raise_pc (s : State) (c : Fault) : (s.raise c).pc = s.pc := rfl
@[simp] theorem raise_stack (s : State) (c : Fault) : (s.raise c).stack = s.stack := rfl
@[simp] theorem raise_sp (s : State) (c : Fault) : (s.raise c).sp = s.sp := rfl
@[simp] theorem raise_dt (s : State) (c : Fault) : (s.raise c).dt = s.dt := rfl
@[simp] theorem raise_st (s : State) (c : Fault) : (s.raise c).st = s.st := rfl
@[simp] theorem raise_disp (s : State) (c : Fault) : (s.raise c).disp = s.disp := rfl
@[simp] theorem raise_heldMask (s : State) (c : Fault) : (s.raise c).heldMask = s.heldMask := rfl
@[simp] theorem raise_pressedMask (s : State) (c : Fault) : (s.raise c).pressedMask = s.pressedMask := rfl
@[simp] theorem raise_awaitKey (s : State) (c : Fault) : (s.raise c).awaitKey = s.awaitKey := rfl
@[simp] theorem raise_stopped (s : State) (c : Fault) : (s.raise c).stopped = s.stopped := rfl
@[simp] theorem raise_tick (s : State) (c : Fault) : (s.raise c).tick = .idle := rfl
@[simp] theorem raise_fault (s : State) (c : Fault) : (s.raise c).fault = some c := rfl
@[simp] theorem raise_boot (s : State) (c : Fault) : (s.raise c).boot = s.boot := rfl
@[simp] theorem raise_draws (s : State) (c : Fault) : (s.raise c).draws = s.draws := rfl
@[simp] theorem raise_hostMoves (s : State) (c : Fault) : (s.raise c).hostMoves = s.hostMoves := rfl
@[simp] theorem raise_outputs (s : State) (c : Fault) : (s.raise c).outputs = .fault c :: s.outputs := rfl
@[simp] theorem raise_reg (s : State) (c : Fault) (q : Reg) : (s.raise c).reg q = s.reg q := rfl
@[simp] theorem raise_byteAt (s : State) (c : Fault) (n : Nat) : (s.raise c).byteAt n = s.byteAt n := rfl
@[simp] theorem raise_cellAt (s : State) (c : Fault) (i j : Nat) : (s.raise c).cellAt i j = s.cellAt i j := rfl

/-! ### `countDraw` -/

@[simp] theorem countDraw_cfg (s : State) : (s.countDraw).cfg = s.cfg := rfl
@[simp] theorem countDraw_regs (s : State) : (s.countDraw).regs = s.regs := rfl
@[simp] theorem countDraw_mem (s : State) : (s.countDraw).mem = s.mem := rfl
@[simp] theorem countDraw_index (s : State) : (s.countDraw).index = s.index := rfl
@[simp] theorem countDraw_pc (s : State) : (s.countDraw).pc = s.pc := rfl
@[simp] theorem countDraw_stack (s : State) : (s.countDraw).stack = s.stack := rfl
@[simp] theorem countDraw_sp (s : State) : (s.countDraw).sp = s.sp := rfl
@[simp] theorem countDraw_dt (s : State) : (s.countDraw).dt = s.dt := rfl
@[simp] theorem countDraw_st (s : State) : (s.countDraw).st = s.st := rfl
@[simp] theorem countDraw_disp (s : State) : (s.countDraw).disp = s.disp := rfl
@[simp] theorem countDraw_heldMask (s : State) : (s.countDraw).heldMask = s.heldMask := rfl
@[simp] theorem countDraw_pressedMask (s : State) : (s.countDraw).pressedMask = s.pressedMask := rfl
@[simp] theorem countDraw_awaitKey (s : State) : (s.countDraw).awaitKey = s.awaitKey := rfl
@[simp] theorem countDraw_stopped (s : State) : (s.countDraw).stopped = s.stopped := rfl
@[simp] theorem countDraw_tick (s : State) : (s.countDraw).tick = s.tick := rfl
@[simp] theorem countDraw_fault (s : State) : (s.countDraw).fault = s.fault := rfl
@[simp] theorem countDraw_boot (s : State) : (s.countDraw).boot = s.boot := rfl
@[simp] theorem countDraw_draws (s : State) : (s.countDraw).draws = s.draws + 1 := rfl
@[simp] theorem countDraw_hostMoves (s : State) : (s.countDraw).hostMoves = s.hostMoves := rfl
@[simp] theorem countDraw_outputs (s : State) : (s.countDraw).outputs = s.outputs := rfl
@[simp] theorem countDraw_reg (s : State) (q : Reg) : (s.countDraw).reg q = s.reg q := rfl
@[simp] theorem countDraw_byteAt (s : State) (n : Nat) : (s.countDraw).byteAt n = s.byteAt n := rfl
@[simp] theorem countDraw_cellAt (s : State) (i j : Nat) : (s.countDraw).cellAt i j = s.cellAt i j := rfl

/-! ### `setResultFlag` -/

@[simp] theorem setResultFlag_cfg (s : State) (x : Reg) (u v : Byte) : (s.setResultFlag x u v).cfg = s.cfg := rfl
@[simp] theorem setResultFlag_mem (s : State) (x : Reg) (u v : Byte) : (s.setResultFlag x u v).mem = s.mem := rfl
@[simp] theorem setResultFlag_index (s : State) (x : Reg) (u v : Byte) : (s.setResultFlag x u v).index = s.index := rfl
@[simp] theorem setResultFlag_pc (s : State) (x : Reg) (u v : Byte) : (s.setResultFlag x u v).pc = s.pc := rfl
@[simp] theorem setResultFlag_stack (s : State) (x : Reg) (u v : Byte) : (s.setResultFlag x u v).stack = s.stack := rfl
@[simp] theorem setResultFlag_sp (s : State) (x : Reg) (u v : Byte) : (s.setResultFlag x u v).sp = s.sp := rfl
@[simp] theorem setResultFlag_dt (s : State) (x : Reg) (u v : Byte) : (s.setResultFlag x u v).dt = s.dt := rfl
@[simp] theorem setResultFlag_st (s : State) (x : Reg) (u v : Byte) : (s.setResultFlag x u v).st = s.st := rfl
@[simp] theorem setResultFlag_disp (s : State) (x : Reg) (u v : Byte) : (s.setResultFlag x u v).disp = s.disp := rfl
@[simp] theorem setResultFlag_heldMask (s : State) (x : Reg) (u v : Byte) : (s.setResultFlag x u v).heldMask = s.heldMask := rfl
@[simp] theorem setResultFlag_pressedMask (s : State) (x : Reg) (u v : Byte) : (s.setResultFlag x u v).pressedMask = s.pressedMask := rfl
@[simp] theorem setResultFlag_awaitKey (s : State) (x : Reg) (u v : Byte) : (s.setResultFlag x u v).awaitKey = s.awaitKey := rfl
@[simp] theorem setResultFlag_stopped (s : State) (x : Reg) (u v : Byte) : (s.setResultFlag x u v).stopped = s.stopped := rfl
@[simp] theorem setResultFlag_tick (s : State) (x : Reg) (u v : Byte) : (s.setResultFlag x u v).tick = s.tick := rfl
@[simp] theorem setResultFlag_fault (s : State) (x : Reg) (u v : Byte) : (s.setResultFlag x u v).fault = s.fault := rfl
@[simp] theorem setResultFlag_boot (s : State) (x : Reg) (u v : Byte) : (s.setResultFlag x u v).boot = s.boot := rfl
@[simp] theorem setResultFlag_draws (s : State) (x : Reg) (u v : Byte) : (s.setResultFlag x u v).draws = s.draws := rfl
@[simp] theorem setResultFlag_hostMoves (s : State) (x : Reg) (u v : Byte) : (s.setResultFlag x u v).hostMoves = s.hostMoves := rfl
@[simp] theorem setResultFlag_outputs (s : State) (x : Reg) (u v : Byte) : (s.setResultFlag x u v).outputs = s.outputs := rfl
@[simp] theorem setResultFlag_byteAt (s : State) (x : Reg) (u v : Byte) (n : Nat) : (s.setResultFlag x u v).byteAt n = s.byteAt n := rfl
@[simp] theorem setResultFlag_cellAt (s : State) (x : Reg) (u v : Byte) (i j : Nat) : (s.setResultFlag x u v).cellAt i j = s.cellAt i j := rfl

/-! ### `capture` -/

@[simp] theorem capture_cfg (s : State) (r : Reg) : (s.capture r).cfg = s.cfg := rfl
@[simp] theorem capture_mem (s : State) (r : Reg) : (s.capture r).mem = s.mem := rfl
@[simp] theorem capture_index (s : State) (r : Reg) : (s.capture r).index = s.index := rfl
@[simp] theorem capture_pc (s : State) (r : Reg) : (s.capture r).pc = s.pc := rfl
@[simp] theorem capture_stack (s : State) (r : Reg) : (s.capture r).stack = s.stack := rfl
@[simp] theorem capture_sp (s : State) (r : Reg) : (s.capture r).sp = s.sp := rfl
@[simp] theorem capture_dt (s : State) (r : Reg) : (s.capture r).dt = s.dt := rfl
@[simp] theorem capture_st (s : State) (r : Reg) : (s.capture r).st = s.st := rfl
@[simp] theorem capture_disp (s : State) (r : Reg) : (s.capture r).disp = s.disp := rfl
@[simp] theorem capture_heldMask (s : State) (r : Reg) : (s.capture r).heldMask = s.heldMask := rfl
@[simp] theorem capture_pressedMask (s : State) (r : Reg) : (s.capture r).pressedMask = s.pressedMask := rfl
@[simp] theorem capture_awaitKey (s : State) (r : Reg) : (s.capture r).awaitKey = none := rfl
@[simp] theorem capture_stopped (s : State) (r : Reg) : (s.capture r).stopped = s.stopped := rfl
@[simp] theorem capture_tick (s : State) (r : Reg) : (s.capture r).tick = s.tick := rfl
@[simp] theorem capture_fault (s : State) (r : Reg) : (s.capture r).fault = s.fault := rfl
@[simp] theorem capture_boot (s : State) (r : Reg) : (s.capture r).boot = s.boot := rfl
@[simp] theorem capture_draws (s : State) (r : Reg) : (s.capture r).draws = s.draws := rfl
@[simp] theorem capture_hostMoves (s : State) (r : Reg) : (s.capture r).hostMoves = s.hostMoves := rfl
@[simp] theorem capture_outputs (s : State) (r : Reg) : (s.capture r).outputs = s.outputs := rfl
@[simp] theorem capture_byteAt (s : State) (r : Reg) (n : Nat) : (s.capture r).byteAt n = s.byteAt n := rfl
@[simp] theorem capture_cellAt (s : State) (r : Reg) (i j : Nat) : (s.capture r).cellAt i j = s.cellAt i j := rfl

/-! ### `endOfTick` -/

@[simp] theorem endOfTick_cfg (s : State) : (s.endOfTick).cfg = s.cfg := rfl
@[simp] theorem endOfTick_regs (s : State) : (s.endOfTick).regs = s.regs := rfl
@[simp] theorem endOfTick_mem (s : State) : (s.endOfTick).mem = s.mem := rfl
@[simp] theorem endOfTick_index (s : State) : (s.endOfTick).index = s.index := rfl
@[simp] theorem endOfTick_pc (s : State) : (s.endOfTick).pc = s.pc := rfl
@[simp] theorem endOfTick_stack (s : State) : (s.endOfTick).stack = s.stack := rfl
@[simp] theorem endOfTick_sp (s : State) : (s.endOfTick).sp = s.sp := rfl
@[simp] theorem endOfTick_dt (s : State) : (s.endOfTick).dt = s.dt - 1 := rfl
@[simp] theorem endOfTick_st (s : State) : (s.endOfTick).st = s.st - 1 := rfl
@[simp] theorem endOfTick_disp (s : State) : (s.endOfTick).disp = s.disp := rfl
@[simp] theorem endOfTick_heldMask (s : State) : (s.endOfTick).heldMask = s.heldMask := rfl
@[simp] theorem endOfTick_pressedMask (s : State) : (s.endOfTick).pressedMask = 0 := rfl
@[simp] theorem endOfTick_awaitKey (s : State) : (s.endOfTick).awaitKey = s.awaitKey := rfl
@[simp] theorem endOfTick_stopped (s : State) : (s.endOfTick).stopped = s.stopped := rfl
@[simp] theorem endOfTick_tick (s : State) : (s.endOfTick).tick = s.tick := rfl
@[simp] theorem endOfTick_fault (s : State) : (s.endOfTick).fault = s.fault := rfl
@[simp] theorem endOfTick_boot (s : State) : (s.endOfTick).boot = s.boot := rfl
@[simp] theorem endOfTick_draws (s : State) : (s.endOfTick).draws = s.draws := rfl
@[simp] theorem endOfTick_hostMoves (s : State) : (s.endOfTick).hostMoves = s.hostMoves := rfl
@[simp] theorem endOfTick_outputs (s : State) : (s.endOfTick).outputs = .frame s.disp :: s.outputs := rfl
@[simp] theorem endOfTick_reg (s : State) (q : Reg) : (s.endOfTick).reg q = s.reg q := rfl
@[simp] theorem endOfTick_byteAt (s : State) (n : Nat) : (s.endOfTick).byteAt n = s.byteAt n := rfl
@[simp] theorem endOfTick_cellAt (s : State) (i j : Nat) : (s.endOfTick).cellAt i j = s.cellAt i j := rfl

/-! ### The skip's advance -/

/-- `skipIf` writes `pc` alone: 4 more when the condition holds, else 2 (R125). -/
theorem skipIf_eq (s : State) (c : Bool) : s.skipIf c = s.setPc (if c then s.pc + 4 else s.pc + 2) := by
  cases c
  · rfl
  · simp only [State.skipIf, State.advance, State.setPc, if_true]
    rw [BitVec.add_assoc]; rfl

end Sys2Proof.Machine
end

