-- ==== Sys2Proof/Laws/Memory.lean ====
section
/-! SUPPORT. The laws of memory and of the display: a read after a write, every other place left alone, and the
canonical forms kept. The read laws need no invariant. -/

namespace Sys2Proof.Machine

/-! ### Memory -/

/-- The first cell of address `a'`, after a cell of another address was put in. -/
theorem find_insertCell_other (e : Host.Cell) (m : Memory) (a' : Nat) (h : e.1 ≠ a') :
    (Memory.insertCell e m).find? (fun d => d.1 == a') = m.find? (fun d => d.1 == a') := by
  have he : (e.1 == a') = false := by simpa using h
  induction m with
  | nil => simp [Memory.insertCell, he]
  | cons d m ih =>
    unfold Memory.insertCell
    split
    · simp [List.find?_cons, he]
    · simp only [List.find?_cons, ih]

/-- The first cell of address `e.1`, after `e` was put into a list without that address. -/
theorem find_insertCell_same (e : Host.Cell) (m : Memory) (h : ∀ d ∈ m, d.1 ≠ e.1) :
    (Memory.insertCell e m).find? (fun d => d.1 == e.1) = some e := by
  induction m with
  | nil => simp [Memory.insertCell]
  | cons d m ih =>
    have hd : (d.1 == e.1) = false := by simpa using h d (by simp)
    unfold Memory.insertCell
    split
    · simp
    · rw [List.find?_cons_of_neg (by simp [hd])]
      exact ih (fun d' hd' => h d' (by simp [hd']))

/-- A cell of another address is found in the filtered list as before. -/
theorem find_filter_other (m : Memory) (a a' : Nat) (h : a ≠ a') :
    (m.filter (fun d => d.1 != a)).find? (fun d => d.1 == a') = m.find? (fun d => d.1 == a') := by
  induction m with
  | nil => rfl
  | cons d m ih =>
    by_cases hd : d.1 = a
    · have h2 : (d.1 == a') = false := by simpa [hd] using h
      rw [List.filter_cons_of_neg (by simp [hd]), ih, List.find?_cons_of_neg (by simp [h2])]
    · rw [List.filter_cons_of_pos (by simpa using hd), List.find?_cons, List.find?_cons, ih]

/-- No cell of address `a` is left by the filter. -/
theorem find_filter_same (m : Memory) (a : Nat) :
    (m.filter (fun d => d.1 != a)).find? (fun d => d.1 == a) = none := by
  rw [List.find?_eq_none]
  intro d hd
  simpa using (List.mem_filter.mp hd).2

/-- A read after a write to the same address gives the value written. -/
theorem read_write_same (c : Config) (m : Memory) (a : Nat) (v : Byte) :
    Memory.read c (Memory.write c m a v) a = v := by
  unfold Memory.read Memory.write
  split_ifs with hv
  · rw [find_filter_same]; exact hv.symm
  · have hn : ∀ d ∈ m.filter (fun e => e.1 != a), d.1 ≠ a := fun d hd => by
      simpa using (List.mem_filter.mp hd).2
    have := find_insertCell_same (a, v) _ hn
    simp only at this
    rw [this]

/-- A write leaves every other address alone. -/
theorem read_write_other (c : Config) (m : Memory) (a a' : Nat) (v : Byte) (h : a ≠ a') :
    Memory.read c (Memory.write c m a v) a' = Memory.read c m a' := by
  unfold Memory.read Memory.write
  split_ifs with hv
  · rw [find_filter_other m a a' h]
  · rw [find_insertCell_other _ _ _ h, find_filter_other m a a' h]

/-- Every cell of the list after a cell was put in. -/
theorem mem_insertCell (e d : Host.Cell) (m : Memory) :
    d ∈ Memory.insertCell e m ↔ d = e ∨ d ∈ m := by
  induction m with
  | nil => simp [Memory.insertCell]
  | cons f m ih =>
    unfold Memory.insertCell
    split
    · simp
    · simp only [List.mem_cons, ih]; tauto

/-- Putting a cell of a new address into a rising list keeps it rising. -/
theorem pairwise_insertCell (e : Host.Cell) (m : Memory) (hm : m.Pairwise (fun d f => d.1 < f.1))
    (h : ∀ d ∈ m, d.1 ≠ e.1) : (Memory.insertCell e m).Pairwise (fun d f => d.1 < f.1) := by
  induction m with
  | nil => simp [Memory.insertCell]
  | cons d m ih =>
    have hd := List.pairwise_cons.mp hm
    unfold Memory.insertCell
    split
    · rename_i hlt
      refine List.pairwise_cons.mpr ⟨fun f hf => ?_, hm⟩
      rcases List.mem_cons.mp hf with rfl | hf
      · exact hlt
      · exact Nat.lt_trans hlt (hd.1 f hf)
    · rename_i hnl
      refine List.pairwise_cons.mpr ⟨fun f hf => ?_, ih hd.2 (fun f hf => h f (by simp [hf]))⟩
      rcases (mem_insertCell e f m).mp hf with rfl | hf
      · have := h d (by simp); omega
      · exact hd.1 f hf

/-- Every write to an address of memory keeps the canonical form. -/
theorem write_wf (c : Config) (m : Memory) (a : Nat) (v : Byte) (ha : a < memSize) (h : Memory.wf c m) :
    Memory.wf c (Memory.write c m a v) := by
  have hp : (m.filter (fun e => e.1 != a)).Pairwise (fun d f => d.1 < f.1) := h.1.sublist List.filter_sublist
  have hn : ∀ d ∈ m.filter (fun e => e.1 != a), d.1 ≠ a := fun d hd => by simpa using (List.mem_filter.mp hd).2
  unfold Memory.write
  split_ifs with hv
  · exact ⟨hp, fun e he => h.2 e (List.mem_filter.mp he).1⟩
  · refine ⟨pairwise_insertCell _ _ hp hn, fun e he => ?_⟩
    rcases (mem_insertCell _ e _).mp he with rfl | he
    · exact ⟨ha, hv⟩
    · exact h.2 e (List.mem_filter.mp he).1

/-- Reset memory, with nothing listed, is in canonical form (R40, log 30). -/
theorem reset_memory_wf : Memory.wf State.reset.cfg State.reset.mem := by decide

@[simp] theorem byteAt_setByte_same (s : State) (a : Nat) (v : Byte) : (s.setByte a v).byteAt a = v :=
  read_write_same s.cfg s.mem a v

@[simp] theorem byteAt_setByte_other (s : State) (a a' : Nat) (v : Byte) (h : a' ≠ a) :
    (s.setByte a v).byteAt a' = s.byteAt a' := read_write_other s.cfg s.mem a a' v (Ne.symm h)

theorem byteAt_setByte (s : State) (a a' : Nat) (v : Byte) :
    (s.setByte a v).byteAt a' = if a' = a then v else s.byteAt a' := by
  by_cases h : a' = a
  · subst h; simp
  · simp [h]

/-- An address the list does not hold reads as its reset contents. -/
theorem byteAt_nil (s : State) (a : Nat) (h : s.mem = []) : s.byteAt a = s.cfg.resetByte a := by
  simp [State.byteAt, Memory.read, h]

/-! ### The display -/

theorem mem_displayInsert (p q : Nat × Nat) (d : Display) : q ∈ Display.insertCell p d ↔ q = p ∨ q ∈ d := by
  induction d with
  | nil => simp [Display.insertCell]
  | cons r d ih =>
    unfold Display.insertCell
    split
    · simp
    · simp only [List.mem_cons, ih]; tauto

/-- What is lit after a cell is overwritten: that cell as written, every other as before. -/
theorem displayRead_write (d : Display) (x y x' y' : Nat) (b : Bool) :
    Display.read (Display.write d x y b) x' y' = if x' = x ∧ y' = y then b else Display.read d x' y' := by
  unfold Display.read Display.write
  by_cases h : x' = x ∧ y' = y
  · obtain ⟨rfl, rfl⟩ := h
    cases b <;> simp [mem_displayInsert]
  · have hne : (y', x') ≠ (y, x) := by
      intro e; simp only [Prod.mk.injEq] at e; exact h ⟨e.2, e.1⟩
    rw [if_neg h]
    cases b
    · rw [Bool.eq_iff_iff]; simp [-Prod.mk.injEq, hne]
    · rw [Bool.eq_iff_iff]; simp [-Prod.mk.injEq, mem_displayInsert, hne]

theorem displayBefore_trans {p q r : Nat × Nat} (h : Display.before p q) (g : Display.before q r) :
    Display.before p r := by
  simp only [Display.before] at *; omega

theorem displayBefore_total {p q : Nat × Nat} (hne : q ≠ p) (h : ¬ Display.before p q) : Display.before q p := by
  have : ¬ (q.1 = p.1 ∧ q.2 = p.2) := fun e => hne (Prod.ext e.1 e.2)
  simp only [Display.before] at *; omega

theorem pairwise_displayInsert (p : Nat × Nat) (d : Display) (hd : d.Pairwise Display.before)
    (h : ∀ q ∈ d, q ≠ p) : (Display.insertCell p d).Pairwise Display.before := by
  induction d with
  | nil => simp [Display.insertCell]
  | cons q d ih =>
    have hq := List.pairwise_cons.mp hd
    unfold Display.insertCell
    split
    · rename_i hlt
      refine List.pairwise_cons.mpr ⟨fun r hr => ?_, hd⟩
      rcases List.mem_cons.mp hr with rfl | hr
      · exact hlt
      · exact displayBefore_trans hlt (hq.1 r hr)
    · rename_i hnl
      refine List.pairwise_cons.mpr ⟨fun r hr => ?_, ih hq.2 (fun r hr => h r (by simp [hr]))⟩
      rcases (mem_displayInsert p r d).mp hr with rfl | hr
      · exact displayBefore_total (h q (by simp)) hnl
      · exact hq.1 r hr

/-- Every overwrite of a cell of the grid keeps the canonical form. -/
theorem displayWrite_wf (c : Config) (d : Display) (x y : Nat) (b : Bool) (hx : x < c.dispW) (hy : y < c.dispH)
    (h : Display.wf c d) : Display.wf c (Display.write d x y b) := by
  have hp : (d.filter (fun q => q != (y, x))).Pairwise Display.before := h.1.sublist List.filter_sublist
  have hn : ∀ q ∈ d.filter (fun q => q != (y, x)), q ≠ (y, x) := fun q hq => by
    simpa [-Prod.mk.injEq] using (List.mem_filter.mp hq).2
  unfold Display.write
  split_ifs with hb
  · refine ⟨pairwise_displayInsert _ _ hp hn, fun q hq => ?_⟩
    rcases (mem_displayInsert _ q _).mp hq with rfl | hq
    · exact ⟨hy, hx⟩
    · exact h.2 q (List.mem_filter.mp hq).1
  · exact ⟨hp, fun q hq => h.2 q (List.mem_filter.mp hq).1⟩

theorem cellAt_setCell (s : State) (x y x' y' : Nat) (b : Bool) :
    (s.setCell x y b).cellAt x' y' = if x' = x ∧ y' = y then b else s.cellAt x' y' :=
  displayRead_write s.disp x y x' y' b

end Sys2Proof.Machine
end

