-- ==== Sys2Proof/Laws/Ops.lean ====
section
/-! SUPPORT. One lemma per shared operation that says everything it can do. Proofs about the meanings cite these and
do not unfold the operations. -/

namespace Sys2Proof.Machine

/-! ### Single accesses -/

/-- `MemRead(addr, 1)` in bounds: the byte, and no state changed (R62). -/
theorem memRead_in (a : Nat) (s : State) (h : a < 4096) : memRead a s = .done (s.byteAt a) s := by
  simp [memRead, memSize, Nat.not_le.mpr h]

/-- `MemRead(addr, 1)` out of bounds raises (R63). -/
theorem memRead_out (a : Nat) (s : State) (h : 4096 ≤ a) : memRead a s = .raised (.outOfBoundsMemory a) s := by
  simp [memRead, memSize, h]

/-- `MemWrite(addr, 1, v)` in bounds changes that byte (R64). -/
theorem memWrite_in (a : Nat) (v : Byte) (s : State) (h : a < 4096) : memWrite a v s = .done () (s.setByte a v) := by
  simp [memWrite, memSize, Nat.not_le.mpr h]

/-- `MemWrite(addr, 1, v)` out of bounds raises and changes nothing (R63, R64). -/
theorem memWrite_out (a : Nat) (v : Byte) (s : State) (h : 4096 ≤ a) :
    memWrite a v s = .raised (.outOfBoundsMemory a) s := by
  simp [memWrite, memSize, h]

/-- `DispWrite(x, y, b)` on the grid changes that cell (R65). -/
theorem dispWrite_in (x y : Nat) (b : Bool) (s : State) (hx : x < s.cfg.dispW) (hy : y < s.cfg.dispH) :
    dispWrite x y b s = .done () (s.setCell x y b) := by
  have h1 : ¬ s.cfg.dispW ≤ x := by omega
  have h2 : ¬ s.cfg.dispH ≤ y := by omega
  simp [dispWrite, h1, h2]

/-- `DispWrite(x, y, b)` off the grid raises and changes nothing (R65). -/
theorem dispWrite_out (x y : Nat) (b : Bool) (s : State) (h : s.cfg.dispW ≤ x ∨ s.cfg.dispH ≤ y) :
    dispWrite x y b s = .raised (.outOfBoundsDisplay x y) s := by
  simp [dispWrite, h]

/-- Fetch with both bytes in memory: the big-endian word, and no state changed (R61, R237). -/
theorem fetch_in (s : State) (h : s.pc.toNat + 1 < 4096) :
    fetch s = .done (wordOfBytes (s.byteAt s.pc.toNat) (s.byteAt (s.pc.toNat + 1))) s := by
  have : ¬ memSize ≤ s.pc.toNat + 1 := by simp [memSize]; omega
  simp [fetch, memReadWord, this]

/-- Fetch beyond memory raises (R237). -/
theorem fetch_out (s : State) (h : 4096 ≤ s.pc.toNat + 1) :
    fetch s = .raised (.outOfBoundsMemory (s.pc.toNat + 1)) s := by
  have : memSize ≤ s.pc.toNat + 1 := h
  simp [fetch, memReadWord, this]

/-! ### Sequences of accesses -/

@[simp] theorem andThen_done {α β : Type} (a : α) (s : State) (f : α → State → Attempt β) :
    (Attempt.done a s).andThen f = f a s := rfl

@[simp] theorem andThen_raised {α β : Type} (c : Fault) (s : State) (f : α → State → Attempt β) :
    (Attempt.raised c s).andThen f = .raised c s := rfl

@[simp] theorem forEach_nil (f : Nat → State → Attempt Unit) (s : State) : forEach f [] s = .done () s := rfl

@[simp] theorem forEach_cons (f : Nat → State → Attempt Unit) (k : Nat) (ks : List Nat) (s : State) :
    forEach f (k :: ks) s = (f k s).andThen (fun _ t => forEach f ks t) := rfl

/-- The state an attempt ends in, done or raised. -/
def Attempt.final {α : Type} (m : Attempt α) : State :=
  match m with
  | .done _ s => s
  | .raised _ s => s

@[simp] theorem final_done {α : Type} (a : α) (s : State) : (Attempt.done a s).final = s := rfl

@[simp] theorem final_raised {α : Type} (c : Fault) (s : State) : (Attempt.raised c s : Attempt α).final = s := rfl

/-- A list is gone through by going through its parts in turn. -/
theorem forEach_append (f : Nat → State → Attempt Unit) (l₁ l₂ : List Nat) (s : State) :
    forEach f (l₁ ++ l₂) s = (forEach f l₁ s).andThen (fun _ t => forEach f l₂ t) := by
  induction l₁ generalizing s with
  | nil => rfl
  | cons k l₁ ih =>
    rw [List.cons_append, forEach_cons, forEach_cons]
    cases f k s with
    | done _ t => simp only [andThen_done]; exact ih t
    | raised c t => rfl

/-- One more number at the end of a range. -/
theorem forEach_range_succ (f : Nat → State → Attempt Unit) (n : Nat) (s : State) :
    forEach f (List.range (n + 1)) s = (forEach f (List.range n) s).andThen (fun _ t => f n t) := by
  rw [List.range_succ, forEach_append]
  cases forEach f (List.range n) s with
  | raised c t => rfl
  | done u t =>
    simp only [andThen_done, forEach_cons, forEach_nil]
    cases f n t with
    | done v w => rfl
    | raised c w => rfl

/-- What every access keeps, the whole sequence keeps, done or raised. -/
theorem forEach_keeps (P : State → Prop) (f : Nat → State → Attempt Unit)
    (hf : ∀ k s, P s → P (f k s).final) (l : List Nat) (s : State) (h : P s) : P (forEach f l s).final := by
  induction l generalizing s with
  | nil => exact h
  | cons k l ih =>
    rw [forEach_cons]
    have := hf k s h
    cases hk : f k s with
    | done _ t => rw [hk] at this; exact ih t this
    | raised c t => rw [hk] at this; exact this

/-! ### How a handler ends -/

theorem finish_eq (s : State) : finish s = .next s.advance := rfl

theorem takeFault_eq (c : Fault) (s : State) : takeFault c s = .next (s.raise c) := rfl

@[simp] theorem conclude_done (u : Unit) (s : State) : conclude (.done u s) = .next s.advance := rfl

@[simp] theorem conclude_raised (c : Fault) (s : State) : conclude (.raised c s) = .next (s.raise c) := rfl

/-- A handler made of accesses always answers a next state: advanced, or with its fault taken. -/
theorem conclude_next (m : Attempt Unit) :
    (∃ t, m = .done () t ∧ conclude m = .next t.advance) ∨ (∃ c t, m = .raised c t ∧ conclude m = .next (t.raise c)) := by
  cases m with
  | done u t => exact .inl ⟨t, rfl, rfl⟩
  | raised c t => exact .inr ⟨c, t, rfl, rfl⟩

/-- The test of a key skip: a fault above 15, else a write of `pc` alone (R180 to R182). -/
theorem skipOnKey_eq (x : Reg) (want : Bool) (s : State) :
    skipOnKey x want s =
      if 15 < (s.reg x).toNat then .next (s.raise (.outOfBoundsKey (s.reg x)))
      else .next (s.setPc (if keyIn s.heldMask (s.reg x).toNat = want then s.pc + 4 else s.pc + 2)) := by
  unfold skipOnKey
  split
  · rfl
  · rw [skipIf_eq]
    by_cases h : keyIn s.heldMask (s.reg x).toNat = want <;> simp [h]

/-! ### The scheduler -/

/-- The budget after an instruction in the cycle loop (R239). -/
@[simp] theorem charge_looping (s : State) (b : Nat) (h : s.tick = .looping b) :
    s.charge = s.setTick (.looping (b - 2)) := by
  simp [State.charge, h, instrCost]

/-- Nothing is charged once a fault has left the tick (R240). -/
@[simp] theorem charge_idle (s : State) (h : s.tick = .idle) : s.charge = s := by simp [State.charge, h]

theorem chargeOutcome_next (s : State) : chargeOutcome (.next s) = .next s.charge := rfl

/-- The core's step inside the loop while the budget can pay (R232, R244). -/
theorem coreStep_looping (s : State) (b : Nat) (hf : s.fault = none) (ht : s.tick = .looping b) (hb : 2 ≤ b) :
    coreStep s = iterate b s := by
  simp [coreStep, hf, ht, instrCost, hb]

/-- The core's step when the budget is spent (R232, R244). -/
theorem coreStep_spent (s : State) (b : Nat) (hf : s.fault = none) (ht : s.tick = .looping b) (hb : b < 2) :
    coreStep s = .next (s.endOfTick.setTick .idle) := by
  have : ¬ 2 ≤ b := by omega
  simp [coreStep, hf, ht, instrCost, this]

/-- The core's step after the loop was left early (R244). -/
theorem coreStep_left (s : State) (b : Nat) (hf : s.fault = none) (ht : s.tick = .left b) :
    coreStep s = .next (s.endOfTick.setTick .idle) := by
  simp [coreStep, hf, ht]

/-- An iteration that neither stops nor waits fetches and dispatches (R233). -/
theorem iterate_dispatch (b : Nat) (s : State) (hs : s.stopped = false) (ha : s.awaitKey = none) :
    iterate b s = fetchDispatch s := by
  simp [iterate, hs, ha]

/-- Fetch and dispatch with both bytes in memory (R237, R238). -/
theorem fetchDispatch_in (s : State) (h : s.pc.toNat + 1 < 4096) :
    fetchDispatch s =
      chargeOutcome (dispatchWord (wordOfBytes (s.byteAt s.pc.toNat) (s.byteAt (s.pc.toNat + 1))) s) := by
  simp [fetchDispatch, fetch_in s h]

/-- Fetch beyond memory takes the fault (R237, R240). -/
theorem fetchDispatch_out (s : State) (h : 4096 ≤ s.pc.toNat + 1) :
    fetchDispatch s = .next (s.raise (.outOfBoundsMemory (s.pc.toNat + 1))) := by
  simp [fetchDispatch, fetch_out s h, takeFault_eq]

/-- `Reset` is allowed in no tick, before the first `Tick` or on a stopped or faulted core (R244, R245, R251). -/
theorem resetAllowed_iff (s : State) :
    s.resetAllowed = true ↔ s.tick = .idle ∧ (s.boot ≠ .started ∨ s.stopped = true ∨ s.fault ≠ none) := by
  simp [State.resetAllowed, Option.isSome_iff_ne_none, or_assoc]

/-- All that the host's `Reset` can do: the reset where it is allowed, else the refusal. -/
theorem hostReset_cases (s : State) :
    (s.resetAllowed = true ∧ hostReset s = .next s.doReset) ∨
      (s.resetAllowed = false ∧ hostReset s = .refused .resetNotAllowed) := by
  unfold hostReset
  cases h : s.resetAllowed <;> simp

/-- A step in which a host move waits is that move, taken from the front. -/
theorem step_move (s : State) (m : HostMove) (rest : List HostMove) (h : s.hostMoves = m :: rest) :
    step s = hostMove m { s with hostMoves := rest } := by
  simp [step, machineStep, h]

/-- A step in which no host move waits. -/
theorem step_auto (s : State) (h : s.hostMoves = []) : step s = autoStep s := by
  simp [step, machineStep, h]

end Sys2Proof.Machine
end

