-- ==== Sys2Proof/Laws/Accesses.lean ====
section
/-! SUPPORT. What the accesses of the multi-byte instructions keep: one lemma per sequence, from which every frame and
invariant about `DRW`, `LD B`, `LD [I]` and `LD Vx, [I]` follows, whether the sequence is done or raised. -/

namespace Sys2Proof.Machine

/-! ### The state after one access -/

theorem memRead_final (a : Nat) (s : State) : (memRead a s).final = s := by
  unfold memRead; split <;> rfl

theorem memWrite_final (a : Nat) (v : Byte) (s : State) :
    (4096 ≤ a ∧ (memWrite a v s).final = s) ∨ (a < 4096 ∧ (memWrite a v s).final = s.setByte a v) := by
  by_cases h : a < 4096
  · exact .inr ⟨h, by rw [memWrite_in a v s h, final_done]⟩
  · exact .inl ⟨by omega, by rw [memWrite_out a v s (by omega), final_raised]⟩

theorem dispWrite_final (x y : Nat) (b : Bool) (s : State) :
    (dispWrite x y b s).final = s ∨
      (x < s.cfg.dispW ∧ y < s.cfg.dispH ∧ (dispWrite x y b s).final = s.setCell x y b) := by
  by_cases h : s.cfg.dispW ≤ x ∨ s.cfg.dispH ≤ y
  · exact .inl (by rw [dispWrite_out x y b s h, final_raised])
  · refine .inr ⟨by omega, by omega, ?_⟩
    rw [dispWrite_in x y b s (by omega) (by omega), final_done]

/-! ### Sequences -/

theorem andThen_keeps {α β : Type} (P : State → Prop) (m : Attempt α) (f : α → State → Attempt β)
    (h : P m.final) (hf : ∀ a s, P s → P (f a s).final) : P (m.andThen f).final := by
  cases m with
  | done a s => exact hf a s h
  | raised c s => exact h

/-- Going through 0 to `n - 1` keeps what each of its numbers keeps. -/
theorem forEach_range_keeps (P : State → Prop) (f : Nat → State → Attempt Unit) (n : Nat)
    (hf : ∀ k s, k < n → P s → P (f k s).final) (s : State) (h : P s) : P (forEach f (List.range n) s).final := by
  induction n with
  | zero => exact h
  | succ n ih =>
    rw [forEach_range_succ]
    exact andThen_keeps P _ _ (ih (fun k s hk hs => hf k s (by omega) hs)) (fun _ t ht => hf n t (by omega) ht)

/-- What every cell write keeps, a whole draw keeps. -/
theorem draw_keeps (P : State → Prop)
    (hP : ∀ s x y b, x < s.cfg.dispW → y < s.cfg.dispH → P s → P (s.setCell x y b))
    (x0 y0 n : Nat) (s : State) (h : P s) : P (forEach (drawRow x0 y0) (List.range n) s).final := by
  refine forEach_range_keeps P _ n (fun k s _ hs => ?_) s h
  refine andThen_keeps P _ _ (by rw [memRead_final]; exact hs) (fun b t ht => ?_)
  refine forEach_range_keeps P _ 8 (fun c u _ hu => ?_) t ht
  rcases dispWrite_final (x0 + c) (y0 + k) (spriteBit b c) u with h | ⟨hx, hy, h⟩ <;> rw [h]
  · exact hu
  · exact hP _ _ _ _ hx hy hu

/-- What every byte written below 4096 keeps, a whole bulk store of `n` registers keeps. -/
theorem store_keeps (P : State → Prop) (n : Nat)
    (hP : ∀ t k v, k < n → indexAddr t k < 4096 → P t → P (t.setByte (indexAddr t k) v))
    (s : State) (h : P s) : P (forEach storeOne (List.range n) s).final := by
  refine forEach_range_keeps P _ n (fun k t hk ht => ?_) s h
  rcases memWrite_final (indexAddr t k) (t.reg (Fin.ofNat 16 k)) t with ⟨_, h⟩ | ⟨ha, h⟩ <;>
    (rw [storeOne, h])
  · exact ht
  · exact hP _ _ _ hk ha ht

/-- What every register loaded keeps, a whole bulk load of `n` registers keeps. -/
theorem load_keeps (P : State → Prop) (n : Nat) (hP : ∀ t k v, k < n → P t → P (t.setReg (Fin.ofNat 16 k) v))
    (s : State) (h : P s) : P (forEach loadOne (List.range n) s).final := by
  refine forEach_range_keeps P _ n (fun k t hk ht => ?_) s h
  exact andThen_keeps P _ _ (by rw [memRead_final]; exact ht) (fun b u hu => hP _ _ _ hk hu)

/-- What every digit written below 4096 keeps, the three writes of `LD B` keep. -/
theorem bcd_keeps (P : State → Prop) (s : State)
    (hP : ∀ t k v, k < 3 → indexAddr s k < 4096 → P t → P (t.setByte (indexAddr s k) v)) (v₀ v₁ v₂ : Byte) (h : P s) :
    P ((memWrite (indexAddr s 0) v₀ s).andThen (fun _ t =>
      (memWrite (indexAddr s 1) v₁ t).andThen (fun _ u => memWrite (indexAddr s 2) v₂ u))).final := by
  have hw : ∀ k v t, k < 3 → P t → P (memWrite (indexAddr s k) v t).final := by
    intro k v t hk ht
    rcases memWrite_final (indexAddr s k) v t with ⟨_, h⟩ | ⟨ha, h⟩ <;> rw [h]
    · exact ht
    · exact hP _ _ _ hk ha ht
  exact andThen_keeps P _ _ (hw _ _ _ (by omega) h)
    (fun _ t ht => andThen_keeps P _ _ (hw _ _ _ (by omega) ht) (fun _ u hu => hw _ _ _ (by omega) hu))

/-! ### The end of a handler made of accesses -/

/-- The state such a handler answers: what its accesses left, advanced or with the fault taken (R238, R240). -/
theorem conclude_inv (m : Attempt Unit) (t : State) (h : conclude m = .next t) :
    (m = .done () m.final ∧ t = m.final.advance) ∨ (∃ c, m = .raised c m.final ∧ t = m.final.raise c) := by
  cases m with
  | done u s => exact .inl ⟨rfl, by simpa using h.symm⟩
  | raised c s => exact .inr ⟨c, rfl, by simpa using h.symm⟩

end Sys2Proof.Machine
end

