-- ==== Sys2Proof/Laws/PerInstr.lean ====
section
/-! SUPPORT. One lemma per instruction: its word is of its row of the opcode map (`spec/30_encoding.md` R95). -/

namespace Sys2Proof.Laws

/-- The word of the instruction is of its row: it has the row's pattern under the row's mask (R95). -/
def EncodingRow.Statement (i : Instr) : Prop := (rowOf i).isOf (encode i) = true

/-- Format `A` words are of a family row. -/
theorem encodeA_isOf (f : Nibble) (a : Addr12) (p : Word) (hp : p.toNat = f.toNat * 4096) :
    (OpcodeRow.mk 0xF000 p).isOf (encodeA f a) = true := by
  have := a.isLt
  rw [isOf_family, encodeA_toNat]; omega

/-- Format `XK` words are of a family row. -/
theorem encodeXK_isOf (f : Nibble) (x : Reg) (k : Byte) (p : Word) (hp : p.toNat = f.toNat * 4096) :
    (OpcodeRow.mk 0xF000 p).isOf (encodeXK f x k) = true := by
  have := k.isLt; have := x.isLt
  rw [isOf_family, encodeXK_toNat]; omega

/-- Format `XYN` words are of a family row. -/
theorem encodeXYN_isOf (f : Nibble) (x y : Reg) (n : Nibble) (p : Word) (hp : p.toNat = f.toNat * 4096) :
    (OpcodeRow.mk 0xF000 p).isOf (encodeXYN f x y n) = true := by
  have := n.isLt; have := x.isLt; have := y.isLt
  rw [isOf_family, encodeXYN_toNat]; omega

/-- Format `XY` words with a sub-opcode are of the row of that sub-opcode. -/
theorem encodeXY_isOf (f : Nibble) (x y : Reg) (n : Nibble) (p : Word) (hp : p.toNat = f.toNat * 4096 + n.toNat) :
    (OpcodeRow.mk 0xF00F p).isOf (encodeXYN f x y n) = true := by
  have := n.isLt; have := x.isLt; have := y.isLt
  rw [isOf_familyNibble, encodeXYN_toNat]; omega

/-- Format `XS` words are of the row of their selector. -/
theorem encodeXS_isOf (f : Nibble) (x : Reg) (k : Byte) (p : Word) (hp : p.toNat = f.toNat * 4096 + k.toNat) :
    (OpcodeRow.mk 0xF0FF p).isOf (encodeXK f x k) = true := by
  have := k.isLt; have := x.isLt
  rw [isOf_familyByte, encodeXK_toNat]; omega

theorem EncodingRow.sys (nnn : Addr12) : EncodingRow.Statement (.sys nnn) := encodeA_isOf _ _ _ rfl

theorem EncodingRow.jp (nnn : Addr12) : EncodingRow.Statement (.jp nnn) := encodeA_isOf _ _ _ rfl

theorem EncodingRow.call (nnn : Addr12) : EncodingRow.Statement (.call nnn) := encodeA_isOf _ _ _ rfl

theorem EncodingRow.seImm (x : Reg) (kk : Byte) : EncodingRow.Statement (.seImm x kk) := encodeXK_isOf _ _ _ _ rfl

theorem EncodingRow.sneImm (x : Reg) (kk : Byte) : EncodingRow.Statement (.sneImm x kk) := encodeXK_isOf _ _ _ _ rfl

theorem EncodingRow.seReg (x y : Reg) (n : Nibble) : EncodingRow.Statement (.seReg x y n) := encodeXYN_isOf _ _ _ _ _ rfl

theorem EncodingRow.ldImm (x : Reg) (kk : Byte) : EncodingRow.Statement (.ldImm x kk) := encodeXK_isOf _ _ _ _ rfl

theorem EncodingRow.addImm (x : Reg) (kk : Byte) : EncodingRow.Statement (.addImm x kk) := encodeXK_isOf _ _ _ _ rfl

theorem EncodingRow.ldReg (x y : Reg) : EncodingRow.Statement (.ldReg x y) := encodeXY_isOf _ _ _ _ _ rfl

theorem EncodingRow.orReg (x y : Reg) : EncodingRow.Statement (.orReg x y) := encodeXY_isOf _ _ _ _ _ rfl

theorem EncodingRow.andReg (x y : Reg) : EncodingRow.Statement (.andReg x y) := encodeXY_isOf _ _ _ _ _ rfl

theorem EncodingRow.xorReg (x y : Reg) : EncodingRow.Statement (.xorReg x y) := encodeXY_isOf _ _ _ _ _ rfl

theorem EncodingRow.addReg (x y : Reg) : EncodingRow.Statement (.addReg x y) := encodeXY_isOf _ _ _ _ _ rfl

theorem EncodingRow.subReg (x y : Reg) : EncodingRow.Statement (.subReg x y) := encodeXY_isOf _ _ _ _ _ rfl

theorem EncodingRow.shr (x y : Reg) : EncodingRow.Statement (.shr x y) := encodeXY_isOf _ _ _ _ _ rfl

theorem EncodingRow.subn (x y : Reg) : EncodingRow.Statement (.subn x y) := encodeXY_isOf _ _ _ _ _ rfl

theorem EncodingRow.shl (x y : Reg) : EncodingRow.Statement (.shl x y) := encodeXY_isOf _ _ _ _ _ rfl

theorem EncodingRow.sneReg (x y : Reg) (n : Nibble) : EncodingRow.Statement (.sneReg x y n) := encodeXYN_isOf _ _ _ _ _ rfl

theorem EncodingRow.ldIndex (nnn : Addr12) : EncodingRow.Statement (.ldIndex nnn) := encodeA_isOf _ _ _ rfl

theorem EncodingRow.jpV0 (nnn : Addr12) : EncodingRow.Statement (.jpV0 nnn) := encodeA_isOf _ _ _ rfl

theorem EncodingRow.rnd (x : Reg) (kk : Byte) : EncodingRow.Statement (.rnd x kk) := encodeXK_isOf _ _ _ _ rfl

theorem EncodingRow.drw (x y : Reg) (n : Nibble) : EncodingRow.Statement (.drw x y n) := encodeXYN_isOf _ _ _ _ _ rfl

theorem EncodingRow.skp (x : Reg) : EncodingRow.Statement (.skp x) := encodeXS_isOf _ _ _ _ rfl

theorem EncodingRow.sknp (x : Reg) : EncodingRow.Statement (.sknp x) := encodeXS_isOf _ _ _ _ rfl

theorem EncodingRow.ldFromDt (x : Reg) : EncodingRow.Statement (.ldFromDt x) := encodeXS_isOf _ _ _ _ rfl

theorem EncodingRow.ldKey (x : Reg) : EncodingRow.Statement (.ldKey x) := encodeXS_isOf _ _ _ _ rfl

theorem EncodingRow.ldToDt (x : Reg) : EncodingRow.Statement (.ldToDt x) := encodeXS_isOf _ _ _ _ rfl

theorem EncodingRow.ldToSt (x : Reg) : EncodingRow.Statement (.ldToSt x) := encodeXS_isOf _ _ _ _ rfl

theorem EncodingRow.addIndex (x : Reg) : EncodingRow.Statement (.addIndex x) := encodeXS_isOf _ _ _ _ rfl

theorem EncodingRow.ldGlyph (x : Reg) : EncodingRow.Statement (.ldGlyph x) := encodeXS_isOf _ _ _ _ rfl

theorem EncodingRow.ldBcd (x : Reg) : EncodingRow.Statement (.ldBcd x) := encodeXS_isOf _ _ _ _ rfl

theorem EncodingRow.storeRegs (x : Reg) : EncodingRow.Statement (.storeRegs x) := encodeXS_isOf _ _ _ _ rfl

theorem EncodingRow.loadRegs (x : Reg) : EncodingRow.Statement (.loadRegs x) := encodeXS_isOf _ _ _ _ rfl

end Sys2Proof.Laws
end

