-- ==== Sys2Proof/Laws/Terms.lean ====
section
/-! SUPPORT. Lemmas about the terms of Safety and the host's operations: the operands of a word, a core that can
dispatch, the lowest pressed key, key bits, the copy of an image, the sequences of a bulk store and a bulk load. -/

namespace Sys2Proof.Machine

/-! ### Operands of a word (R92) -/

theorem fieldX_eq (w : Word) : fieldX w = opX w := Fin.ext (by rw [fieldX_val]; simp [opX])

theorem fieldY_eq (w : Word) : fieldY w = opY w := Fin.ext (by rw [fieldY_val]; simp [opY])

theorem fieldN_eq (w : Word) : fieldN w = opN w := BitVec.eq_of_toNat_eq (by rw [fieldN_toNat]; simp [opN])

theorem fieldKK_eq (w : Word) : fieldKK w = opKK w := BitVec.eq_of_toNat_eq (by rw [fieldKK_toNat]; simp [opKK])

theorem fieldNNN_eq (w : Word) : fieldNNN w = opNNN w := BitVec.eq_of_toNat_eq (by rw [fieldNNN_toNat]; simp [opNNN])

/-- A word of a family row is of that family (R95). -/
theorem fam_of_mask (w p : Word) (k : Nat) (hp : p.toNat = k * 4096) (h : w &&& 0xF000 = p) :
    (fieldFam w).toNat = k := by
  have h2 : (w &&& 0xF000#16).toNat = p.toNat := congrArg BitVec.toNat h
  rw [and_family_toNat] at h2; rw [fieldFam_toNat]; omega

/-- A word of a sub-opcode row is of that family and has that low nibble (R95). -/
theorem famNibble_of_mask (w p : Word) (k n : Nat) (hn : n < 16) (hp : p.toNat = k * 4096 + n)
    (h : w &&& 0xF00F = p) : (fieldFam w).toNat = k ∧ (fieldN w).toNat = n := by
  have h2 : (w &&& 0xF00F#16).toNat = p.toNat := congrArg BitVec.toNat h
  rw [and_familyNibble_toNat] at h2; rw [fieldFam_toNat, fieldN_toNat]; omega

/-- A word of a selector row is of that family and has that low byte (R95). -/
theorem famByte_of_mask (w p : Word) (k n : Nat) (hn : n < 256) (hp : p.toNat = k * 4096 + n)
    (h : w &&& 0xF0FF = p) : (fieldFam w).toNat = k ∧ (fieldKK w).toNat = n := by
  have h2 : (w &&& 0xF0FF#16).toNat = p.toNat := congrArg BitVec.toNat h
  rw [and_familyByte_toNat] at h2; rw [fieldFam_toNat, fieldKK_toNat]; omega

/-- An encoding of format `A` with the word's own address is the word. -/
theorem encodeA_field (w : Word) (f : Nibble) (h : (fieldFam w).toNat = f.toNat) : encodeA f (fieldNNN w) = w := by
  apply BitVec.eq_of_toNat_eq
  rw [encodeA_toNat, fieldNNN_toNat, ← h, fieldFam_toNat]; omega

/-- An encoding of format `XK` with the word's own operands is the word. -/
theorem encodeXK_field (w : Word) (f : Nibble) (h : (fieldFam w).toNat = f.toNat) :
    encodeXK f (fieldX w) (fieldKK w) = w := by
  apply BitVec.eq_of_toNat_eq
  rw [encodeXK_toNat, fieldX_val, fieldKK_toNat, ← h, fieldFam_toNat]; omega

/-- An encoding of format `XYN` with the word's own operands is the word. -/
theorem encodeXYN_field (w : Word) (f : Nibble) (h : (fieldFam w).toNat = f.toNat) :
    encodeXYN f (fieldX w) (fieldY w) (fieldN w) = w := by
  apply BitVec.eq_of_toNat_eq
  rw [encodeXYN_toNat, fieldX_val, fieldY_val, fieldN_toNat, ← h, fieldFam_toNat]; omega

/-! ### The step of a core that can dispatch -/

/-- Such a step is a fetch and a dispatch (R233). -/
theorem step_canDispatch (s : State) (b : Nat) (h : CanDispatch s b) : step s = fetchDispatch s := by
  obtain ⟨hf, hs, ha, ht, hb, hm⟩ := h
  rw [step_auto s hm]
  simp only [autoStep, hf, ht]
  rw [coreStep_looping s b hf ht hb, iterate_dispatch b s hs ha]

/-- A word that decodes is dispatched to its instruction (R238). -/
theorem dispatchWord_ok (w : Word) (i : Instr) (s : State) (h : decodeWord w = .ok i) :
    dispatchWord w s = exec i s := by
  simp [dispatchWord, h]

/-- An unlisted word is dispatched to its fault (R213). -/
theorem dispatchWord_unlisted (w : Word) (s : State) (h : decodeWord w = .error (.unlisted w)) :
    dispatchWord w s = .next (s.raise (.unimplemented w)) := by
  simp [dispatchWord, h, takeFault_eq]

/-! ### Keys -/

/-- The lowest set index of a mask that is not empty: its bit is set and no lower one is (R6, R236). -/
theorem lowestSetIndex_spec (m : Word) (h : m ≠ 0) :
    m.getLsbD (lowestSetIndex m).val = true ∧ ∀ j < (lowestSetIndex m).val, m.getLsbD j = false := by
  unfold lowestSetIndex
  cases hf : (List.finRange 16).find? (fun k => m.getLsbD k.val) with
  | none =>
    refine absurd (BitVec.eq_of_getLsbD_eq fun k hk => ?_) h
    rw [List.find?_eq_none] at hf
    simpa using hf ⟨k, hk⟩ (List.mem_finRange _)
  | some k =>
    refine ⟨by simpa using List.find?_some hf, fun j hj => ?_⟩
    simp only [Option.getD_some] at hj
    rw [List.find?_eq_some_iff_getElem] at hf
    obtain ⟨_, n, _, hn, hlt⟩ := hf
    have hk : k.val = n := by rw [← hn]; simp
    simpa using hlt j (by omega)

/-- The bits of `keyBit` (R30). -/
theorem keyBit_getLsbD (k : Key) (j : Nat) : (keyBit k).getLsbD j = decide (j = k.val) := by
  have hk := k.isLt
  rw [keyBit, BitVec.getLsbD_shiftLeft, BitVec.getLsbD_one]
  by_cases h : j = k.val
  · simp [h]
  · by_cases h2 : j < k.val
    · simp [h, h2]
    · have : j - k.val ≠ 0 := by omega
      simp [h, this]

/-! ### The copy of an image (R246) -/

/-- A copy changes memory alone. -/
theorem copyBytes_eq (l : List Byte) (a : Nat) (s : State) :
    State.copyBytes l a s = { s with mem := (State.copyBytes l a s).mem } := by
  induction l generalizing a s with
  | nil => rfl
  | cons v l ih => rw [State.copyBytes, ih]; rfl

/-- A byte outside the copied range is as before. -/
theorem copyBytes_outside (l : List Byte) (a b : Nat) (s : State) (h : b < a ∨ a + l.length ≤ b) :
    (State.copyBytes l a s).byteAt b = s.byteAt b := by
  induction l generalizing a s with
  | nil => rfl
  | cons v l ih =>
    simp only [List.length_cons] at h
    rw [State.copyBytes, ih _ _ (by omega), byteAt_setByte_other _ _ _ _ (by omega)]

/-- A byte of the copied range is the image's. -/
theorem copyBytes_inside (l : List Byte) (a : Nat) (s : State) (j : Nat) (h : j < l.length) :
    (State.copyBytes l a s).byteAt (a + j) = l[j] := by
  induction l generalizing a s j with
  | nil => simp at h
  | cons v l ih =>
    cases j with
    | zero => rw [State.copyBytes, Nat.add_zero, copyBytes_outside _ _ _ _ (by omega)]; simp
    | succ j =>
      have := ih (a + 1) (s.setByte a v) j (by simpa using h)
      rw [State.copyBytes, show a + (j + 1) = a + 1 + j by omega, this]; rfl

/-- A copy that ends below 4096 keeps the canonical form of memory. -/
theorem copyBytes_wf (l : List Byte) (a : Nat) (s : State) (hl : a + l.length ≤ 4096) (h : Memory.wf s.cfg s.mem) :
    Memory.wf s.cfg (State.copyBytes l a s).mem := by
  induction l generalizing a s with
  | nil => exact h
  | cons v l ih =>
    simp only [List.length_cons] at hl
    exact ih (a + 1) (s.setByte a v) (by omega) (write_wf s.cfg s.mem a v (by unfold memSize; omega) h)

/-- A poke keeps the canonical form of memory. -/
theorem pokeByte_wf (s : State) (a : Nat) (v : Byte) (h : Memory.wf s.cfg s.mem) :
    Memory.wf s.cfg (s.pokeByte a v).mem := by
  unfold State.pokeByte
  split
  · exact write_wf s.cfg s.mem a v ‹_› h
  · exact h

/-! ### Bulk transfers within memory (R197, R198) -/

/-- The store of the first `n` registers from `I` on, all in memory. -/
theorem storeOne_range (s : State) (n : Nat) (hn : n ≤ 16) (h : s.index.toNat + n ≤ 4096) :
    ∃ t, forEach storeOne (List.range n) s = .done () t ∧ t = { s with mem := t.mem } ∧
      ∀ a, t.byteAt a = if s.index.toNat ≤ a ∧ a < s.index.toNat + n then s.reg (Fin.ofNat 16 (a - s.index.toNat))
        else s.byteAt a := by
  induction n with
  | zero => exact ⟨s, rfl, rfl, fun a => by rw [if_neg]; omega⟩
  | succ n ih =>
    obtain ⟨t, t1, t2, t3⟩ := ih (by omega) (by omega)
    have hi : indexAddr t n = s.index.toNat + n := by rw [t2]; rfl
    have hr : ∀ r, t.reg r = s.reg r := by intro r; rw [t2]; rfl
    refine ⟨t.setByte (indexAddr t n) (t.reg (Fin.ofNat 16 n)), ?_, by rw [t2]; rfl, fun a => ?_⟩
    · rw [forEach_range_succ, t1, andThen_done, storeOne, memWrite_in _ _ _ (by omega)]
    · rw [byteAt_setByte, t3, hi, hr]
      by_cases e : a = s.index.toNat + n
      · rw [if_pos e, if_pos (by omega), e, Nat.add_sub_cancel_left]
      · rw [if_neg e]
        by_cases e2 : s.index.toNat ≤ a ∧ a < s.index.toNat + n
        · rw [if_pos e2, if_pos (by omega)]
        · rw [if_neg e2, if_neg (by omega)]

/-- The load of the first `n` registers from `I` on, all in memory. -/
theorem loadOne_range (s : State) (n : Nat) (hn : n ≤ 16) (h : s.index.toNat + n ≤ 4096) :
    ∃ t, forEach loadOne (List.range n) s = .done () t ∧ t = { s with regs := t.regs } ∧
      ∀ r : Reg, t.reg r = if r.val < n then s.byteAt (s.index.toNat + r.val) else s.reg r := by
  induction n with
  | zero => exact ⟨s, rfl, rfl, fun a => by rw [if_neg]; omega⟩
  | succ n ih =>
    obtain ⟨t, t1, t2, t3⟩ := ih (by omega) (by omega)
    have hi : indexAddr t n = s.index.toNat + n := by rw [t2]; rfl
    have hb : ∀ a, t.byteAt a = s.byteAt a := by intro a; rw [t2]; rfl
    refine ⟨t.setReg (Fin.ofNat 16 n) (t.byteAt (indexAddr t n)), ?_, by rw [t2]; rfl, fun r => ?_⟩
    · rw [forEach_range_succ, t1, andThen_done, loadOne, memRead_in _ _ (by omega), andThen_done]
    · rw [reg_setReg, t3, hi, hb]
      by_cases e : r = Fin.ofNat 16 n
      · have : r.val = n := by rw [e]; simp; omega
        rw [if_pos e, if_pos (by omega), this]
      · have : r.val ≠ n := by rintro rfl; simp at e
        rw [if_neg e]
        by_cases e2 : r.val < n
        · rw [if_pos e2, if_pos (by omega)]
        · rw [if_neg e2, if_neg (by omega)]

/-- A raise part-way through 0 to `n - 1` ends the whole sequence. -/
theorem forEach_range_raised (f : Nat → State → Attempt Unit) (n k : Nat) (hk : k < n) (s t u : State) (c : Fault)
    (h1 : forEach f (List.range k) s = .done () t) (h2 : f k t = .raised c u) :
    forEach f (List.range n) s = .raised c u := by
  induction n with
  | zero => omega
  | succ n ih =>
    rw [forEach_range_succ]
    by_cases e : k = n
    · subst e; rw [h1, andThen_done, h2]
    · rw [ih (by omega)]; rfl

/-- A fetch within memory sees every stored byte that a read of its address gives (R61, R74). -/
theorem fetchSees_of_bytes (t : State) (p : Word) (last : Nat) (addr byte : Nat → Nat) (hp : p.toNat + 1 < 4096)
    (h : ∀ k ≤ last, (t.byteAt (addr k)).toNat = byte k) : FetchSees t p last addr byte := by
  have hw := wordOfBytes_toNat (t.byteAt p.toNat) (t.byteAt (p.toNat + 1))
  have hb := (t.byteAt (p.toNat + 1)).isLt
  refine ⟨wordOfBytes (t.byteAt p.toNat) (t.byteAt (p.toNat + 1)), fetch_in (t.setPc p) hp, fun k hk e => ?_,
    fun k hk e => ?_⟩ <;> rw [← h k hk, e] <;> omega

/-! ### Sprite rows on the grid (R170) -/

/-- The first `n` cell writes of a sprite row that is on the grid. -/
theorem drawRowCells_range (x0 y : Nat) (b : Byte) (s : State) (hx : x0 + 8 ≤ s.cfg.dispW) (hy : y < s.cfg.dispH)
    (n : Nat) (hn : n ≤ 8) :
    ∃ t, forEach (fun col t => dispWrite (x0 + col) y (spriteBit b col) t) (List.range n) s = .done () t ∧
      t = { s with disp := t.disp } ∧
      ∀ cx cy, t.cellAt cx cy =
        if x0 ≤ cx ∧ cx < x0 + n ∧ cy = y then b.getLsbD (7 - (cx - x0)) else s.cellAt cx cy := by
  induction n with
  | zero => exact ⟨s, rfl, rfl, fun cx cy => by rw [if_neg]; omega⟩
  | succ n ih =>
    obtain ⟨t, h1, h2, h3⟩ := ih (by omega)
    have hc : t.cfg = s.cfg := by rw [h2]
    refine ⟨t.setCell (x0 + n) y (spriteBit b n), ?_, by rw [h2]; rfl, fun cx cy => ?_⟩
    · rw [forEach_range_succ, h1, andThen_done]
      exact dispWrite_in _ _ _ _ (by rw [hc]; omega) (by rw [hc]; omega)
    · rw [cellAt_setCell, h3]
      by_cases e : cx = x0 + n ∧ cy = y
      · rw [if_pos e, if_pos (by omega), spriteBit]; congr 1; omega
      · rw [if_neg e]
        by_cases e2 : x0 ≤ cx ∧ cx < x0 + n ∧ cy = y
        · rw [if_pos e2, if_pos (by omega)]
        · rw [if_neg e2, if_neg (by omega)]

end Sys2Proof.Machine
end

