-- ==== Sys2Proof/Tests/Slice0.lean ====
section
/-! SUPPORT. The model's own tests: each expected value is copied from `spec/95_test_vectors.md` (its vector's name
stands in the comment) or written out from the rule cited; and one witness for every hypothesis of a statement. -/

namespace Sys2Proof.Tests

open Sys2Proof Sys2Proof.Machine

/-! ### Helpers -/

/-- Set some registers. -/
def regs : List (Reg × Byte) → State → State
  | [], s => s
  | (r, v) :: l, s => regs l (s.setReg r v)

/-- Set some bytes of memory. -/
def bytes : List (Nat × Byte) → State → State
  | [], s => s
  | (a, v) :: l, s => bytes l (s.setByte a v)

/-- A small state: the reset state with `I` and some registers set. -/
def cpu (index : Word) (l : List (Reg × Byte)) : State := { regs l State.reset with index := index }

/-- The state of an outcome that has one. -/
def answer (o : Host.Outcome State Fault Refusal) : Option State :=
  match o with
  | .next t => some t
  | .fault _ => none
  | .refused _ => none

/-- One step on the word `w` placed at `pc`. -/
def one (w : Nat) (s : State) : Option State := answer (step (s.withFetchWord 16 w))

/-- Two registers, `VF` and `pc` after one step on the word `w`. -/
def see (x y : Reg) (w : Nat) (s : State) : Option (Byte × Byte × Byte × Word) :=
  (one w s).map fun t => (t.reg x, t.reg y, t.reg 15, t.pc)

/-- `pc` after one step on the word `w`. -/
def pcOf (w : Nat) (s : State) : Option Word := (one w s).map fun t => t.pc

/-- The fault and `pc` after one step on the word `w`. -/
def faultOf (w : Nat) (s : State) : Option (Option Fault × Word) := (one w s).map fun t => (t.fault, t.pc)

/-- Some bytes of memory, `I` and the fault after one step on the word `w`. -/
def memOf (l : List Nat) (w : Nat) (s : State) : Option (List Byte × Word × Option Fault) :=
  (one w s).map fun t => (l.map t.byteAt, t.index, t.fault)

/-- The word a fetch reads. -/
def fetched (s : State) : Option Word :=
  match fetch s with
  | .done w _ => some w
  | .raised _ _ => none

/-- The lit cells and the fault after one step on the word `w`. -/
def dispOf (w : Nat) (s : State) : Option (Display × Option Fault) := (one w s).map fun t => (t.disp, t.fault)

/-- A core in a tick with the full budget, so that `step` runs the instruction at `pc`. -/
def looping (s : State) (b : Nat) : State := { s with tick := .looping b, boot := .started }

/-- A core between two ticks. -/
def ticked : State := { State.reset with boot := .started, pc := 0x20C, dt := 255 }

/-- A core that has raised a fault. -/
def faulted : State := (looping State.reset 8).raise (.unimplemented 0x00E0)

/-! ### Decoding: words written out from R94 and R95, one for every constructor -/

/-- Families 0 to 7, 9 and A to D. -/
theorem test_decode_plain_families :
    decodeWord 0x00E0 = .ok (.sys 0x0E0) ∧ decodeWord 0x1234 = .ok (.jp 0x234) ∧
    decodeWord 0x2345 = .ok (.call 0x345) ∧ decodeWord 0x332A = .ok (.seImm 3 0x2A) ∧
    decodeWord 0x442B = .ok (.sneImm 4 0x2B) ∧ decodeWord 0x5127 = .ok (.seReg 1 2 7) ∧
    decodeWord 0x6AFE = .ok (.ldImm 10 0xFE) ∧ decodeWord 0x7B05 = .ok (.addImm 11 5) ∧
    decodeWord 0x912F = .ok (.sneReg 1 2 15) ∧ decodeWord 0xA2F0 = .ok (.ldIndex 0x2F0) ∧
    decodeWord 0xB201 = .ok (.jpV0 0x201) ∧ decodeWord 0xC30F = .ok (.rnd 3 0x0F) ∧
    decodeWord 0xD345 = .ok (.drw 3 4 5) := by decide

/-- Family 8. -/
theorem test_decode_alu :
    decodeWord 0x8120 = .ok (.ldReg 1 2) ∧ decodeWord 0x8341 = .ok (.orReg 3 4) ∧
    decodeWord 0x8562 = .ok (.andReg 5 6) ∧ decodeWord 0x8783 = .ok (.xorReg 7 8) ∧
    decodeWord 0x8F14 = .ok (.addReg 15 1) ∧ decodeWord 0x81F5 = .ok (.subReg 1 15) ∧
    decodeWord 0x89A6 = .ok (.shr 9 10) ∧ decodeWord 0x8BC7 = .ok (.subn 11 12) ∧
    decodeWord 0x812E = .ok (.shl 1 2) := by decide

/-- Families E and F. -/
theorem test_decode_selectors :
    decodeWord 0xE49E = .ok (.skp 4) ∧ decodeWord 0xE5A1 = .ok (.sknp 5) ∧
    decodeWord 0xF507 = .ok (.ldFromDt 5) ∧ decodeWord 0xF30A = .ok (.ldKey 3) ∧
    decodeWord 0xF615 = .ok (.ldToDt 6) ∧ decodeWord 0xF718 = .ok (.ldToSt 7) ∧
    decodeWord 0xF21E = .ok (.addIndex 2) ∧ decodeWord 0xF129 = .ok (.ldGlyph 1) ∧
    decodeWord 0xF033 = .ok (.ldBcd 0) ∧ decodeWord 0xF255 = .ok (.storeRegs 2) ∧
    decodeWord 0xFF65 = .ok (.loadRegs 15) := by decide

/-- Each of those words is what the encoder writes. -/
theorem test_encode :
    encode (.jp 0x234) = 0x1234 ∧ encode (.ldImm 10 0xFE) = 0x6AFE ∧ encode (.seReg 1 2 7) = 0x5127 ∧
    encode (.shl 1 2) = 0x812E ∧ encode (.drw 3 4 5) = 0xD345 ∧ encode (.sknp 5) = 0xE5A1 ∧
    encode (.storeRegs 2) = 0xF255 ∧ encodeBytes (.jp 0x234) = [0x12, 0x34] := by decide

/-- V-ALU-U: the unlisted sub-cases of family 8 are refused with their word (R97). -/
theorem test_decode_refuses_alu :
    decodeWord 0x8128 = .error (.unlisted 0x8128) ∧ decodeWord 0x8129 = .error (.unlisted 0x8129) ∧
    decodeWord 0x812A = .error (.unlisted 0x812A) ∧ decodeWord 0x812B = .error (.unlisted 0x812B) ∧
    decodeWord 0x812C = .error (.unlisted 0x812C) ∧ decodeWord 0x812D = .error (.unlisted 0x812D) ∧
    decodeWord 0x812F = .error (.unlisted 0x812F) := by decide

/-- V-DEC-2, V-F-U: and those of families E and F (R97). -/
theorem test_decode_refuses_selectors :
    decodeWord 0xE100 = .error (.unlisted 0xE100) ∧ decodeWord 0xE19F = .error (.unlisted 0xE19F) ∧
    decodeWord 0xF175 = .error (.unlisted 0xF175) ∧ decodeWord 0xF000 = .error (.unlisted 0xF000) ∧
    decodeWord 0xF11F = .error (.unlisted 0xF11F) ∧ decodeWord 0xF1FF = .error (.unlisted 0xF1FF) := by decide

/-- A list of bytes is refused by name: too short, or no instruction (R90, R97). -/
theorem test_decode_refuses_bytes :
    decode [0x12] = .error .truncated ∧ decode [] = .error .truncated ∧
    decode [0x81, 0x28] = .error (.word (.unlisted 0x8128)) := by decide

/-- Two bytes are read and the rest is left (R90), high byte first (V-FETCH-1). -/
theorem test_decode_length : decode [0x12, 0x34, 0x56] = .ok (.jp 0x234, [0x56]) := by decide

/-- The words of R95's rows are laid out as the hardware stores them. -/
theorem test_decodeTableWord :
    decodeTableWord 16 0x1234 = some (.jp 0x234) ∧ decodeTableWord 16 0xFF65 = some (.loadRegs 15) ∧
    decodeTableWord 16 0x8128 = none := by decide

/-- R102's spellings, as R102 and `spec/95_test_vectors.md` write them. -/
theorem test_assembly :
    assembly (.ldImm 0 0xFE) = "LD V0, 0xFE" ∧ assembly (.jp 0x20C) = "JP 0x20C" ∧
    assembly (.drw 3 4 5) = "DRW V3, V4, 0x5" ∧ assembly (.loadRegs 2) = "LD V2, [I]" ∧
    assembly (.seImm 15 1) = "SE VF, 0x01" := by decide

/-! ### Well-formedness -/

/-- The longest image fits (R246, V-LOAD-3). -/
theorem test_image_fits : imageFits (List.replicate 3584 0) = true := by
  unfold imageFits; rw [List.length_replicate]; decide

/-- One byte more is ill formed and refused (R246, V-LOAD-3). -/
theorem test_image_too_long : imageFits (List.replicate 3585 0) = false := by
  unfold imageFits; rw [List.length_replicate]; decide

/-- Every operand at its encoding's limits is well formed (R92, R93); a word of no row is no instruction to be well
formed: `test_decode_refuses_bytes`. -/
theorem test_wellFormed : Instr.wellFormed (.drw 15 15 15) = true ∧ Instr.wellFormed (.sys 0xFFF) = true := by decide

/-! ### Jump and skip -/

/-- V-JP-1, V-JP-2, V-JP-3, V-JP-4, V-JP-5. -/
theorem test_jp :
    pcOf 0x1234 State.reset = some 0x234 ∧ pcOf 0x120C (State.reset.setPc 0x20C) = some 0x20C ∧
    pcOf 0x1FFF State.reset = some 0xFFF ∧ pcOf 0x1201 State.reset = some 0x201 ∧
    pcOf 0x1000 State.reset = some 0 := by decide

/-- V-SE-1, V-SE-2, V-SE-3, V-SE-4. -/
theorem test_seImm :
    pcOf 0x332A (cpu 0 [(3, 0x2A)]) = some 0x204 ∧ pcOf 0x332A (cpu 0 [(3, 0x2B)]) = some 0x202 ∧
    pcOf 0x3F08 (cpu 0 [(15, 8)]) = some 0x204 ∧ pcOf 0x3000 (State.reset.setPc 4094) = some 4098 := by decide

/-- V-SNE-1, V-SNE-2. -/
theorem test_sneImm :
    pcOf 0x432A (cpu 0 [(3, 0x2A)]) = some 0x202 ∧ pcOf 0x432A (cpu 0 [(3, 0)]) = some 0x204 := by decide

/-- V-SER-1, V-SER-2, V-SER-3, V-DEC-3. -/
theorem test_seReg :
    pcOf 0x5120 ((cpu 0 [(1, 7), (2, 7)]).setPc 0x300) = some 0x304 ∧
    pcOf 0x5120 ((cpu 0 [(1, 7), (2, 8)]).setPc 0x300) = some 0x302 ∧
    pcOf 0x5440 ((cpu 0 [(4, 0x99)]).setPc 0x300) = some 0x304 ∧
    pcOf 0x5127 (cpu 0 [(1, 7), (2, 7)]) = some 0x204 := by decide

/-- V-SNER-1, V-SNER-2, V-SNER-3, V-DEC-4. -/
theorem test_sneReg :
    pcOf 0x9120 ((cpu 0 [(1, 7), (2, 8)]).setPc 0x300) = some 0x304 ∧
    pcOf 0x9120 ((cpu 0 [(1, 7), (2, 7)]).setPc 0x300) = some 0x302 ∧
    pcOf 0x9440 ((cpu 0 [(4, 0x99)]).setPc 0x300) = some 0x302 ∧
    pcOf 0x912F (cpu 0 [(1, 7), (2, 8)]) = some 0x204 := by decide

/-! ### Constants and ALU: the two registers named, `VF`, `pc` -/

/-- V-LDK-1, V-LDK-2. -/
theorem test_ldImm :
    see 10 0 0x6AFF (cpu 0 [(10, 0x11)]) = some (0xFF, 0, 0, 0x202) ∧
    see 0 0 0x6F00 (cpu 0 [(15, 1)]) = some (0, 0, 0, 0x202) := by decide

/-- V-ADDK-1 (E2), V-ADDK-2, V-ADDK-3. -/
theorem test_addImm :
    see 0 0 0x7005 (cpu 0 [(0, 0xFE), (15, 0x77)]) = some (3, 3, 0x77, 0x202) ∧
    see 0 0 0x70FF (cpu 0 [(0, 1)]) = some (0, 0, 0, 0x202) ∧
    see 0 0 0x7F01 (cpu 0 [(15, 0xFF)]) = some (0, 0, 0, 0x202) := by decide

/-- V-LDR-1, V-LDR-2. -/
theorem test_ldReg :
    see 1 2 0x8120 (cpu 0 [(2, 0x7C), (15, 5)]) = some (0x7C, 0x7C, 5, 0x202) ∧
    see 3 3 0x8F30 (cpu 0 [(3, 0x21)]) = some (0x21, 0x21, 0x21, 0x202) := by decide

/-- V-OR-1. -/
theorem test_orReg :
    see 1 2 0x8121 (cpu 0 [(1, 0xF0), (2, 0x0F), (15, 1)]) = some (0xFF, 0x0F, 1, 0x202) := by decide

/-- V-AND-1. -/
theorem test_andReg :
    see 1 2 0x8122 (cpu 0 [(1, 0xF0), (2, 0x3C), (15, 1)]) = some (0x30, 0x3C, 1, 0x202) := by decide

/-- V-XOR-1, V-XOR-2. -/
theorem test_xorReg :
    see 1 2 0x8123 (cpu 0 [(1, 0xF0), (2, 0x3C), (15, 1)]) = some (0xCC, 0x3C, 1, 0x202) ∧
    see 1 1 0x8113 (cpu 0 [(1, 0x5A)]) = some (0, 0, 0, 0x202) := by decide

/-- V-ADD-1 (E1), V-ADD-2, V-ADD-4. -/
theorem test_addReg :
    see 1 2 0x8124 (cpu 0 [(1, 0xFF), (2, 1)]) = some (0, 1, 1, 0x202) ∧
    see 1 2 0x8124 (cpu 0 [(1, 0xFE), (2, 1), (15, 1)]) = some (0xFF, 1, 0, 0x202) ∧
    see 1 1 0x8114 (cpu 0 [(1, 0x80)]) = some (0, 0, 1, 0x202) := by decide

/-- V-ADD-5, V-ADD-6, V-ADD-7: `VF` as an operand. -/
theorem test_addReg_flag_register :
    see 1 1 0x8F14 (cpu 0 [(15, 8), (1, 1)]) = some (1, 1, 0, 0x202) ∧
    see 1 1 0x8F14 (cpu 0 [(15, 0xFF), (1, 1)]) = some (1, 1, 1, 0x202) ∧
    see 1 1 0x81F4 (cpu 0 [(1, 0x10), (15, 8)]) = some (0x18, 0x18, 0, 0x202) := by decide

/-- V-SUB-1, V-SUB-2, V-SUB-3, V-SUB-5. -/
theorem test_subReg :
    see 1 2 0x8125 (cpu 0 [(1, 5), (2, 3)]) = some (2, 3, 1, 0x202) ∧
    see 1 2 0x8125 (cpu 0 [(1, 3), (2, 5), (15, 1)]) = some (0xFE, 5, 0, 0x202) ∧
    see 1 2 0x8125 (cpu 0 [(1, 5), (2, 5), (15, 1)]) = some (0, 5, 0, 0x202) ∧
    see 1 2 0x8125 (cpu 0 [(1, 0xFF)]) = some (0xFF, 0, 1, 0x202) := by decide

/-- V-SUB-7, V-SUB-8: `VF` as an operand. -/
theorem test_subReg_flag_register :
    see 1 1 0x8F15 (cpu 0 [(15, 9), (1, 3)]) = some (3, 3, 1, 0x202) ∧
    see 1 1 0x81F5 (cpu 0 [(1, 9), (15, 1)]) = some (8, 8, 1, 0x202) := by decide

/-- V-SHR-1, V-SHR-2, V-SHR-4, V-SHR-7. -/
theorem test_shr :
    see 1 0 0x8106 (cpu 0 [(1, 5)]) = some (2, 0, 1, 0x202) ∧
    see 1 0 0x8106 (cpu 0 [(1, 4), (15, 1)]) = some (2, 0, 0, 0x202) ∧
    see 1 0 0x8106 (cpu 0 [(1, 0xFF)]) = some (0x7F, 0, 1, 0x202) ∧
    see 0 0 0x8F06 (cpu 0 [(15, 2)]) = some (0, 0, 0, 0x202) := by decide

/-- V-SHR-5: both settings of `SHIFT_SRC`. -/
theorem test_shr_source :
    see 1 2 0x8126 (cpu 0 [(1, 0xAA), (2, 5)]) = some (0x55, 5, 0, 0x202) ∧
    see 1 2 0x8126 { cpu 0 [(1, 0xAA), (2, 5)] with cfg := { shiftSrc := .y } } = some (2, 5, 1, 0x202) := by decide

/-- V-SUBN-1, V-SUBN-2, V-SUBN-3, V-SUBN-4. -/
theorem test_subn :
    see 1 2 0x8127 (cpu 0 [(1, 3), (2, 5)]) = some (2, 5, 1, 0x202) ∧
    see 1 2 0x8127 (cpu 0 [(1, 5), (2, 3), (15, 1)]) = some (0xFE, 3, 0, 0x202) ∧
    see 1 2 0x8127 (cpu 0 [(1, 4), (2, 4), (15, 1)]) = some (0, 4, 0, 0x202) ∧
    see 1 2 0x8127 (cpu 0 [(2, 0xFF)]) = some (0xFF, 0xFF, 1, 0x202) := by decide

/-- V-SHL-1, V-SHL-3, V-SHL-4, V-SHL-7: the flag is 8 or 0. -/
theorem test_shl :
    see 1 0 0x810E (cpu 0 [(1, 0x81)]) = some (2, 0, 8, 0x202) ∧
    see 1 0 0x810E (cpu 0 [(1, 0x7F), (15, 8)]) = some (0xFE, 0, 0, 0x202) ∧
    see 1 0 0x810E (cpu 0 [(1, 0x40)]) = some (0x80, 0, 0, 0x202) ∧
    see 0 0 0x8F0E (cpu 0 [(15, 0x80)]) = some (0, 0, 8, 0x202) := by decide

/-- V-SHL-6: both settings of `SHIFT_SRC`. -/
theorem test_shl_source :
    see 1 2 0x812E (cpu 0 [(1, 1), (2, 0xC0)]) = some (2, 0xC0, 0, 0x202) ∧
    see 1 2 0x812E { cpu 0 [(1, 1), (2, 0xC0)] with cfg := { shiftSrc := .y } } = some (0x80, 0xC0, 8, 0x202) := by
  decide

/-! ### Index, random, draw -/

/-- V-LDI-1, V-LDI-2, V-LDI-3. -/
theorem test_ldIndex :
    memOf [] 0xA2F0 State.reset = some ([], 0x2F0, none) ∧ memOf [] 0xA000 (cpu 0x1010 []) = some ([], 0, none) ∧
    memOf [] 0xAFFF State.reset = some ([], 4095, none) := by decide

/-- V-RND-2: a zero mask gives 0 whatever the draw. -/
theorem test_rnd : exec (.rnd 3 0) State.reset = .next (State.reset.countDraw.setReg 3 0).advance := by
  simp [exec, execRnd, finish, State.randomByte]

/-- V-DRW-13, V-DRW-2, V-DRW-10: the most significant bit is the leftmost, in (row, column) pairs. -/
theorem test_drw :
    dispOf 0xD125 State.reset = some ([(0, 0), (0, 1), (0, 2), (0, 3), (1, 0), (1, 3), (2, 0), (2, 3), (3, 0), (3, 3),
      (4, 0), (4, 1), (4, 2), (4, 3)], none) ∧
    dispOf 0xD121 (bytes [(0x300, 0xFF)] (cpu 0x300 [(1, 56), (2, 31)])) =
      some ([(31, 56), (31, 57), (31, 58), (31, 59), (31, 60), (31, 61), (31, 62), (31, 63)], none) ∧
    dispOf 0xD111 (bytes [(0x300, 0xC0)] (cpu 0x300 [(1, 3)])) = some ([(3, 3), (3, 4)], none) ∧
    see 1 2 0xD121 { cpu 0 [(15, 0x55)] with disp := [(0, 0)] } = some (0, 0, 0x55, 0x202) := by decide

/-- V-DRW-3, V-DRW-5, V-DRW-6, V-DRW-9, P5. -/
theorem test_drw_faults :
    faultOf 0xD121 (cpu 0x300 [(1, 57)]) = some (some (.outOfBoundsDisplay 64 0), 0x200) ∧
    faultOf 0xD120 (cpu 0xFFFF [(1, 200), (2, 200)]) = some (none, 0x202) ∧
    faultOf 0xD122 (cpu 4095 []) = some (some (.outOfBoundsMemory 4096), 0x200) ∧
    faultOf 0xD121 (cpu 4096 [(1, 60)]) = some (some (.outOfBoundsMemory 4096), 0x200) := by decide

/-! ### Key skips -/

/-- V-SKP-1, V-SKP-3, V-SKP-4, V-SKP-6. -/
theorem test_skp :
    pcOf 0xE49E { cpu 0 [(4, 10)] with heldMask := 0x0400, pc := 0x210 } = some 0x214 ∧
    pcOf 0xE49E { cpu 0 [(4, 10)] with pressedMask := 0x0400, pc := 0x210 } = some 0x212 ∧
    faultOf 0xE49E (cpu 0 [(4, 16)]) = some (some (.outOfBoundsKey 16), 0x200) ∧
    pcOf 0xEF9E { cpu 0 [(15, 15)] with heldMask := 0x8000, pc := 0x210 } = some 0x214 := by decide

/-- V-SKNP-1, V-SKNP-2, V-SKNP-3. -/
theorem test_sknp :
    pcOf 0xE4A1 { cpu 0 [(4, 10)] with heldMask := 0x0400, pc := 0x210 } = some 0x212 ∧
    pcOf 0xE4A1 { cpu 0 [(4, 10)] with pc := 0x210 } = some 0x214 ∧
    faultOf 0xE4A1 (cpu 0 [(4, 0xFF)]) = some (some (.outOfBoundsKey 0xFF), 0x200) := by decide

/-! ### Timers, key wait, index, memory -/

/-- V-F07-1. -/
theorem test_ldFromDt :
    (one 0xF507 { State.reset with dt := 0x3C }).map (fun t => (t.reg 5, t.dt)) = some (0x3C, 0x3C) := by decide

/-- V-F0A-1: the wait is latched, `pc` and the budget move on, the register does not change. -/
theorem test_ldKey :
    (one 0xF30A State.reset).map (fun t => (t.awaitKey, t.pc, t.tick, t.reg 3)) =
      some (some 3, 0x202, .looping 6, 0) := by decide

/-- V-F15-1. -/
theorem test_ldToDt :
    (one 0xF515 (cpu 0 [(5, 0x3C)])).map (fun t => (t.dt, t.st, t.endOfTick.dt)) = some (0x3C, 0, 0x3B) := by decide

/-- V-F18-1. -/
theorem test_ldToSt : (one 0xF518 (cpu 0 [(5, 2)])).map (fun t => (t.dt, t.st)) = some (0, 2) := by decide

/-- V-F1E-1, V-F1E-2: 16 bits, no flag, no fault. -/
theorem test_addIndex :
    memOf [] 0xF21E (cpu 0x0FF0 [(2, 0x20)]) = some ([], 0x1010, none) ∧
    memOf [] 0xF21E (cpu 0xFFFF [(2, 1)]) = some ([], 0, none) := by decide

/-- V-F29-1 (E4), V-F29-2, V-F29-3, V-F29-4. -/
theorem test_ldGlyph :
    memOf [] 0xF129 (cpu 7 [(1, 0x0A)]) = some ([], 50, none) ∧ memOf [] 0xF129 (cpu 7 [(1, 0x1A)]) = some ([], 130, none) ∧
    memOf [] 0xF129 (cpu 7 [(1, 0xFF)]) = some ([], 1275, none) ∧
    memOf [] 0xF129 (cpu 7 [(1, 0x0F)]) = some ([], 75, none) := by decide

/-- V-F33-1 (E3), V-F33-3, V-F33-4, V-F33-5. -/
theorem test_ldBcd :
    memOf [0x300, 0x301, 0x302] 0xF033 (cpu 0x300 [(0, 234)]) = some ([2, 3, 4], 0x300, none) ∧
    memOf [0x300, 0x301, 0x302] 0xF033 (cpu 0x300 [(0, 255)]) = some ([2, 5, 5], 0x300, none) ∧
    memOf [0x300, 0x301, 0x302] 0xF033 (cpu 0x300 [(0, 9)]) = some ([0, 0, 9], 0x300, none) ∧
    memOf [4093, 4094, 4095] 0xF033 (cpu 4093 [(0, 123)]) = some ([1, 2, 3], 4093, none) := by decide

/-- V-F33-6, V-F33-7. -/
theorem test_ldBcd_edges :
    faultOf 0xF033 (cpu 4094 [(0, 123)]) = some (some (.outOfBoundsMemory 4096), 0x200) ∧
    memOf [0, 1, 2, 3] 0xF033 (cpu 0 [(0, 7)]) = some ([0, 0, 7, 0x90], 0, none) := by decide

/-- V-F55-1, V-F55-2. -/
theorem test_storeRegs :
    memOf [0x400, 0x401, 0x402, 0x403] 0xF255 (cpu 0x400 [(0, 0x11), (1, 0x22), (2, 0x33), (3, 0x44)]) =
      some ([0x11, 0x22, 0x33, 0], 0x400, none) ∧
    memOf [0x400, 0x401] 0xF055 (cpu 0x400 [(0, 0xAB), (1, 0xCD)]) = some ([0xAB, 0], 0x400, none) := by decide

/-- V-F55-3, V-F55-4, at the top of memory. -/
theorem test_storeRegs_edges :
    memOf [4080, 4087, 4095] 0xFF55 (cpu 4080 [(0, 1), (7, 8), (15, 16)]) = some ([1, 8, 16], 4080, none) ∧
    faultOf 0xFF55 (cpu 4081 []) = some (some (.outOfBoundsMemory 4096), 0x200) := by decide

/-- V-F65-1, V-F65-5. -/
theorem test_loadRegs :
    (one 0xF265 (bytes [(0x300, 2), (0x301, 3), (0x302, 4)] (cpu 0x300 [(3, 0x99)]))).map
      (fun t => (t.reg 0, t.reg 1, t.reg 2, t.reg 3, t.index)) = some (2, 3, 4, 0x99, 0x300) ∧
    (one 0xF465 State.reset).map (fun t => (t.reg 0, t.reg 1, t.reg 4)) = some (0xF0, 0x90, 0xF0) := by decide

/-- V-F65-3, V-F65-4, at the top of memory. -/
theorem test_loadRegs_edges :
    see 0 1 0xF065 (bytes [(4095, 0x42)] (cpu 4095 [])) = some (0x42, 0, 0, 0x202) ∧
    faultOf 0xF165 (cpu 4095 []) = some (some (.outOfBoundsMemory 4096), 0x200) := by decide

/-! ### Unimplemented families and unlisted words -/

/-- V-UN-1, V-UN-2, V-UN-3: `CLS` does not clear the display. -/
theorem test_sys :
    faultOf 0x00EE State.reset = some (some (.unimplemented 0x00EE), 0x200) ∧
    faultOf 0x0123 State.reset = some (some (.unimplemented 0x0123), 0x200) ∧
    dispOf 0x00E0 { State.reset with disp := [(1, 2)] } = some ([(1, 2)], some (.unimplemented 0x00E0)) := by decide

/-- V-UN-4: nothing is pushed. -/
theorem test_call :
    (one 0x2300 State.reset).map (fun t => (t.fault, t.pc, t.sp.val)) = some (some (.unimplemented 0x2300), 0x200, 0) := by
  decide

/-- V-UN-5. -/
theorem test_jpV0 : faultOf 0xB200 (cpu 0 [(0, 4)]) = some (some (.unimplemented 0xB200), 0x200) := by decide

/-- V-DEC-1, V-FETCH-5. -/
theorem test_unlisted :
    faultOf 0x8128 State.reset = some (some (.unimplemented 0x8128), 0x200) ∧
    (answer (step (looping (State.reset.setPc 0) 8))).map (fun t => t.fault) = some (some (.unimplemented 0xF090)) := by
  decide

/-! ### Fetch, the scheduler and the host -/

/-- V-FETCH-2, V-FETCH-4: any `pc` whose two bytes are in memory. -/
theorem test_fetch :
    see 0 1 0x6007 (State.reset.setPc 4094) = some (7, 0, 0, 4096) ∧
    see 1 0 0x6109 (State.reset.setPc 0x201) = some (9, 0, 0, 0x203) := by decide

/-- V-FETCH-3: no wrap to address 0. -/
theorem test_fetch_out :
    (answer (step (looping (State.reset.setPc 4095) 8))).map (fun t => (t.fault, t.pc, t.tick)) =
      some (some (.outOfBoundsMemory 4096), 4095, .idle) := by decide

/-- R231: from reset the host's tick starts the loop with budget 8. -/
theorem test_tick_start : (answer (step State.reset)).map (fun t => (t.tick, t.pc)) = some (.looping 8, 0x200) := by
  decide

/-- V-F0A-2: the lowest pressed key is captured, the budget and the pressed mask stay. -/
theorem test_capture :
    (answer (step (looping { State.reset with awaitKey := some 3, pressedMask := 0x0088 } 8))).map
      (fun t => (t.reg 3, t.awaitKey, t.tick, t.pressedMask)) = some (3, none, .looping 8, 0x0088) := by decide

/-- V-F0A-3: a held key does not satisfy the wait. -/
theorem test_held_key_is_no_press :
    (answer (step (looping { State.reset with awaitKey := some 3, heldMask := 0x0080 } 8))).map
      (fun t => (t.reg 3, t.awaitKey, t.tick)) = some (0, some 3, .left 8) := by decide

/-- V-SCH-1's end of a tick, and E6: 0 wraps to 255, and one frame goes out. -/
theorem test_end_of_tick :
    (answer (step { looping State.reset 0 with st := 1, pressedMask := 5 })).map
      (fun t => (t.dt, t.st, t.pressedMask, t.tick, t.outputs)) = some (255, 0, 0, .idle, [.frame []]) := by decide

/-- V-SCH-1 as the procedure of R230: four instructions in a tick. -/
theorem test_tick_procedure :
    (answer (tickProcedure (bytes [(0x200, 0x60), (0x201, 1), (0x202, 0x61), (0x203, 2), (0x204, 0x62), (0x205, 3),
      (0x206, 0x63), (0x207, 4), (0x208, 0x64), (0x209, 5)] State.reset))).map
      (fun t => (t.reg 0, t.reg 1, t.reg 3, t.reg 4, t.pc, t.dt)) = some (1, 2, 4, 0, 0x208, 255) := by decide

/-- V-SCH-8, V-SCH-9. -/
theorem test_key_events :
    (answer (step { State.reset with heldMask := 0x10, hostMoves := [.keyDown 4] })).map
      (fun t => (t.heldMask, t.pressedMask)) = some (0x10, 0) ∧
    (answer (step { State.reset with heldMask := 0x10, pressedMask := 0x10, hostMoves := [.keyUp 4] })).map
      (fun t => (t.heldMask, t.pressedMask)) = some (0, 0x10) := by decide

/-- V-LOAD-1, V-LOAD-2. -/
theorem test_load :
    (answer (step { State.reset with hostMoves := [.load [0x12, 0]] })).map (fun t => t.mem) = some [(0x200, 0x12)] ∧
    (answer (step { State.reset with hostMoves := [.load [0x60]] })).map (fun t => (t.byteAt 0x200, t.byteAt 0x201)) =
      some (0x60, 0) := by decide

/-- V-RST-1, from a faulted core: memory, `pc` and the fault. -/
theorem test_reset :
    (answer (step { bytes [(5, 9), (0x300, 1)] faulted with hostMoves := [.reset] })).map
      (fun t => (t.pc, t.fault, t.byteAt 5, t.byteAt 0x300, t.tick)) = some (0x200, none, 0x20, 0, .idle) := by decide

/-- R244, R245: no `Reset` inside a tick, also when stopped there, nor after the first tick of a core that runs on. -/
theorem test_reset_refused :
    step { looping State.reset 8 with hostMoves := [.reset] } = .refused .resetNotAllowed ∧
    step { looping State.reset.stop 8 with hostMoves := [.reset] } = .refused .resetNotAllowed ∧
    step { ticked with hostMoves := [.reset] } = .refused .resetNotAllowed := ⟨rfl, rfl, rfl⟩

/-- R245, R251: `Reset` before the run, and of a stopped machine, which may then load again. -/
theorem test_reset_allowed :
    (answer (step { State.reset with boot := .loaded, hostMoves := [.reset] })).map (fun t => t.boot) = some .fresh ∧
    (answer (step { ticked.stop with hostMoves := [.reset] })).map (fun t => (t.stopped, t.boot, t.pc)) =
      some (false, .fresh, 0x200) := by decide

/-- V-SCH-12: a faulted core has no step; a tick changes nothing. -/
theorem test_faulted :
    step faulted = .fault (.unimplemented 0x00E0) ∧
    step { faulted with hostMoves := [.tick] } = .next faulted := ⟨rfl, rfl⟩

/-- What `withFetchWord` places is the next instruction of `step`, whatever stood there and whatever was waiting. -/
theorem test_withFetchWord :
    (one 0x6A05 { State.reset with awaitKey := some 2, stopped := true, hostMoves := [.stop] }).map
      (fun t => (t.reg 10, t.pc)) = some (5, 0x202) := by decide

/-! ### Witnesses: for every statement with hypotheses, a concrete case that meets them all -/

/-- `DecodeOfEncodeIsIdentity`. -/
theorem witness_DecodeOfEncodeIsIdentity : Instr.wellFormed (.drw 3 4 5) = true := by decide

/-- `EncodeOfDecodeIsIdentity`, and the second clause of `OpcodeRowsAgreeWithDecoder`. -/
theorem witness_EncodeOfDecodeIsIdentity : decodeWord 0x812E = .ok (.shl 1 2) := by decide

/-- `OpcodeRowsAgreeWithDecoder`, first clause, and `OpcodeRowsNeverOverlap`, first clause. -/
theorem witness_OpcodeRowsAgreeWithDecoder :
    OpcodeRow.mk 0xF00F 0x800E ∈ opcodeRows ∧ (OpcodeRow.mk 0xF00F 0x800E).isOf 0x812E = true := by decide

/-- `OpcodeRowsNeverOverlap`, second clause, and `ExactlyTheUnlistedWordsAreRejected`: an unlisted word of each of the
three families, at the boundary of what is listed. -/
theorem witness_ExactlyTheUnlistedWordsAreRejected :
    IsUnlisted 0x8128 ∧ IsUnlisted 0x812F ∧ IsUnlisted 0xE19F ∧ IsUnlisted 0xFF66 ∧
    decodeWord 0xFF66 = .error (.unlisted 0xFF66) := by unfold IsUnlisted; decide

/-- `FetchIsBigEndianAndNeverWraps`: both clauses at their boundary. -/
theorem witness_FetchIsBigEndianAndNeverWraps :
    (State.reset.setPc 4094).pc.toNat + 1 < 4096 ∧ 4096 ≤ (State.reset.setPc 4095).pc.toNat + 1 := by decide

/-- The state of `witness_StepRunsTheDecodedInstruction`: `D345` at 0x200. -/
def drawing : State := looping (bytes [(0x200, 0xD3), (0x201, 0x45)] State.reset) 8

/-- `StepRunsTheDecodedInstruction`. -/
theorem witness_StepRunsTheDecodedInstruction :
    CanDispatch drawing 8 ∧ drawing.pc.toNat + 1 < 4096 ∧ Instr.wellFormed (.drw 3 4 5) = true ∧
    decode [drawing.byteAt drawing.pc.toNat, drawing.byteAt (drawing.pc.toNat + 1)] = .ok (.drw 3 4 5, []) := by
  refine ⟨?_, ?_, ?_, ?_⟩
  · unfold CanDispatch; decide
  all_goals decide

/-- `EveryInstructionCostsTwo`, and the statements that hold for every instruction's next state: one that raises
nothing, and one that raises. -/
theorem witness_EveryInstructionCostsTwo :
    (drawing.fault = none ∧ drawing.tick = .looping 8) ∧
    (∃ t, exec (.ldImm 1 2) drawing = .next t ∧ t.fault = none) ∧
    (∃ t, exec (.sys 0xE0) drawing = .next t ∧ t.fault = some (.unimplemented 0x00E0)) :=
  ⟨⟨rfl, rfl⟩, ⟨_, rfl, rfl⟩, ⟨_, rfl, rfl⟩⟩

/-- The state of `witness_UnlistedWordRaisesUnimplemented`: the font's first word at `pc` 0. -/
def atFont : State := looping (State.reset.setPc 0) 8

/-- `UnlistedWordRaisesUnimplemented`. -/
theorem witness_UnlistedWordRaisesUnimplemented :
    CanDispatch atFont 8 ∧ atFont.pc.toNat + 1 < 4096 ∧
    IsUnlisted (wordOfBytes (atFont.byteAt atFont.pc.toNat) (atFont.byteAt (atFont.pc.toNat + 1))) := by
  unfold CanDispatch IsUnlisted; decide

/-- `FetchBeyondMemoryRaises`, at the boundary and with the smallest budget that pays. -/
theorem witness_FetchBeyondMemoryRaises :
    CanDispatch (looping (State.reset.setPc 4095) 2) 2 ∧ 4095 ≤ (looping (State.reset.setPc 4095) 2).pc.toNat := by
  refine ⟨?_, ?_⟩
  · unfold CanDispatch; decide
  · decide

/-- `TickStartSetsTheBudget`, the move `tick` on a faulted, a stopped and a running core. -/
theorem witness_TickStartSetsTheBudget_move :
    (State.hostMoves { faulted with hostMoves := [.tick] } = .tick :: [] ∧ faulted.tick = .idle ∧
      faulted.fault ≠ none) ∧
    (State.hostMoves { State.reset.stop with hostMoves := [.tick] } = .tick :: [] ∧ State.reset.stop.tick = .idle ∧
      State.reset.stop.stopped = true) ∧
    (State.hostMoves { State.reset with hostMoves := [.tick] } = .tick :: [] ∧ State.reset.tick = .idle ∧
      State.reset.fault = none ∧ State.reset.stopped = false) := by decide

/-- `TickStartSetsTheBudget`, with no host move waiting, and `SmallStepsMakeUpTheTick`. -/
theorem witness_TickStartSetsTheBudget :
    (State.reset.hostMoves = [] ∧ State.reset.fault = none ∧ State.reset.tick = .idle ∧ State.reset.stopped = false) ∧
    (State.reset.stop.hostMoves = [] ∧ State.reset.stop.fault = none ∧ State.reset.stop.tick = .idle ∧
      State.reset.stop.stopped = true) := by decide

/-- `StopLeavesTheLoop`. -/
theorem witness_StopLeavesTheLoop :
    (looping State.reset.stop 2).hostMoves = [] ∧ (looping State.reset.stop 2).fault = none ∧
    (looping State.reset.stop 2).stopped = true ∧ (looping State.reset.stop 2).tick = .looping 2 := by decide

/-- A core in a tick that waits for a key for register 15. -/
def waiting : State := looping { State.reset with awaitKey := some 15 } 2

/-- `WaitingWithoutAKeyEndsTheTick`. -/
theorem witness_WaitingWithoutAKeyEndsTheTick :
    waiting.hostMoves = [] ∧ waiting.fault = none ∧ waiting.stopped = false ∧ waiting.tick = .looping 2 ∧
    waiting.awaitKey = some 15 ∧ waiting.pressedMask = 0 := by decide

/-- `CaptureTakesTheLowestPressedKey`: key 15 alone is pressed. -/
theorem witness_CaptureTakesTheLowestPressedKey :
    waiting.hostMoves = [] ∧ waiting.fault = none ∧ waiting.stopped = false ∧ waiting.tick = .looping 2 ∧
    (waiting.keyDown 15).awaitKey = some 15 ∧ (waiting.keyDown 15).tick = .looping 2 ∧
    (waiting.keyDown 15).pressedMask = 0x8000 := by decide

/-- `EndOfTickActions`: the budget spent, the odd value that cannot pay, and the loop left early. -/
theorem witness_EndOfTickActions :
    (looping State.reset 0).tick = .looping 0 ∧ (looping State.reset 1).tick = .looping 1 ∧
    (State.reset.setTick (.left 8)).tick = .left 8 ∧ (State.reset.setTick (.left 8)).hostMoves = [] ∧
    (looping State.reset 0).hostMoves = [] ∧ (looping State.reset 0).fault = none := by decide

/-- `FaultIsTerminal`: both clauses. -/
theorem witness_FaultIsTerminal :
    (faulted.fault = some (.unimplemented 0x00E0) ∧ faulted.tick = .idle ∧ faulted.boot = .started ∧
      faulted.hostMoves = []) ∧
    (State.hostMoves { faulted with hostMoves := [.keyDown 4] }).head? ≠ some .reset ∧
    ∃ t, step { faulted with hostMoves := [.keyDown 4] } = .next t :=
  ⟨by decide, by decide, ⟨_, rfl⟩⟩

/-- `ResetZeroesAllState`: allowed before the first tick, on a stopped and on a faulted core; not inside a tick, and not
on a core that has ticked and is neither. -/
theorem witness_ResetZeroesAllState :
    (State.hostMoves { State.reset with hostMoves := [.reset] } = .reset :: [] ∧ State.reset.tick = .idle ∧
      State.reset.boot ≠ .started) ∧
    (faulted.tick = .idle ∧ faulted.boot = .started ∧ faulted.fault ≠ none) ∧
    ((ticked.stop).tick = .idle ∧ (ticked.stop).stopped = true) ∧
    (looping State.reset 8).tick ≠ .idle ∧
    (ticked.tick = .idle ∧ ticked.boot = .started ∧ ticked.stopped = false ∧ ticked.fault = none) := by decide

/-- `LoadCopiesTheImageVerbatim`: an image that fits exactly, one that is a byte too long, and a second load. -/
theorem witness_LoadCopiesTheImageVerbatim :
    State.hostMoves { State.reset with hostMoves := [.load (List.replicate 3584 1)] } =
      .load (List.replicate 3584 1) :: [] ∧
    State.reset.boot = .fresh ∧ (List.replicate 3584 (1 : Byte)).length ≤ 3584 ∧
    3584 < (List.replicate 3585 (1 : Byte)).length ∧ faulted.boot ≠ .fresh := by
  exact ⟨rfl, rfl, by rw [List.length_replicate], by rw [List.length_replicate]; decide, by decide⟩

/-- `KeyDownSetsBothMasks` and `KeyUpClearsTheHeldBit`. -/
theorem witness_KeyDownSetsBothMasks :
    State.hostMoves { State.reset with hostMoves := [.keyDown 15, .keyUp 15] } = .keyDown 15 :: [.keyUp 15] ∧
    State.hostMoves { State.reset with hostMoves := [.keyUp 15] } = .keyUp 15 :: [] := ⟨rfl, rfl⟩

/-- `OnlyResetClearsStopped`: a stop, a stopped core's step, and a tick inside a tick. -/
theorem witness_OnlyResetClearsStopped :
    State.hostMoves { State.reset with hostMoves := [.stop] } = .stop :: [] ∧
    (∃ t, exec (.ldImm 1 2) State.reset.stop = .next t) ∧
    (State.reset.stop.stopped = true ∧ State.reset.stop.hostMoves.head? ≠ some .reset ∧
      ∃ t, step State.reset.stop = .next t) ∧
    (State.hostMoves { looping State.reset 8 with hostMoves := [.tick] } = .tick :: [] ∧
      (looping State.reset 8).tick ≠ .idle) :=
  ⟨rfl, ⟨_, rfl⟩, ⟨by decide, by decide, ⟨_, rfl⟩⟩, ⟨rfl, by decide⟩⟩

/-- `MasksChangeByKeyEventsAlone`: a step inside a tick with no host move first. -/
theorem witness_MasksChangeByKeyEventsAlone :
    (∃ t, step (drawing.keyDown 3) = .next t) ∧ (drawing.keyDown 3).hostMoves.head? ≠ some .reset ∧
    (∀ k, (drawing.keyDown 3).hostMoves.head? ≠ some (.keyDown k)) ∧
    (∀ k, (drawing.keyDown 3).hostMoves.head? ≠ some (.keyUp k)) :=
  ⟨⟨_, rfl⟩, by decide, by decide, by decide⟩

/-- `JumpGoesToItsAddress`: a core in the loop; and a word of every row of the opcode map, for every `Encodes`. -/
theorem witness_Encodes :
    drawing.tick = .looping 8 ∧ ∀ r ∈ opcodeRows, r.pattern &&& r.mask = r.pattern := by decide

/-- `SkipIfEqualConstant`, `SkipIfNotEqualConstant` and `SkipsOnTwoRegisters`: equal and unequal operands. -/
theorem witness_Skips :
    ((cpu 0 [(3, 0xFF)]).reg 3).toNat = (0xFF : Byte).toNat ∧ ((cpu 0 [(3, 0xFE)]).reg 3).toNat ≠ (0xFF : Byte).toNat ∧
    ((cpu 0 [(3, 9), (4, 9)]).reg 3).toNat = ((cpu 0 [(3, 9), (4, 9)]).reg 4).toNat ∧
    ((cpu 0 [(3, 9), (4, 8)]).reg 3).toNat ≠ ((cpu 0 [(3, 9), (4, 8)]).reg 4).toNat := by decide

/-- `AddSetsCarry`: the sums 255 and 256. -/
theorem witness_AddSetsCarry :
    ((cpu 0 [(1, 0xFE), (2, 1)]).reg 1).toNat + ((cpu 0 [(1, 0xFE), (2, 1)]).reg 2).toNat ≤ 255 ∧
    ((cpu 0 [(1, 0xFF), (2, 1)]).reg 1).toNat + ((cpu 0 [(1, 0xFF), (2, 1)]).reg 2).toNat > 255 ∧ (1 : Reg) ≠ 15 := by
  decide

/-- `SubtractFlagIsStrictlyPositive`: the differences 0 and 1, both ways. -/
theorem witness_SubtractFlagIsStrictlyPositive :
    ((cpu 0 [(1, 5), (2, 5)]).reg 1).toNat ≤ ((cpu 0 [(1, 5), (2, 5)]).reg 2).toNat ∧
    ((cpu 0 [(1, 6), (2, 5)]).reg 2).toNat < ((cpu 0 [(1, 6), (2, 5)]).reg 1).toNat ∧
    ((cpu 0 [(1, 5), (2, 6)]).reg 1).toNat < ((cpu 0 [(1, 5), (2, 6)]).reg 2).toNat := by decide

/-- `ShiftsForBothSources`: sources 127 and 128, under each setting. -/
theorem witness_ShiftsForBothSources :
    (0x7F : Byte) = (if (cpu 0 [(1, 0x7F)]).cfg.shiftSrc = .x then (cpu 0 [(1, 0x7F)]).reg 1
      else (cpu 0 [(1, 0x7F)]).reg 2) ∧
    (0x80 : Byte) = (if (Config.mk defaultFont 64 32 .y).shiftSrc = .x then (cpu 0 [(2, 0x80)]).reg 1
      else (cpu 0 [(2, 0x80)]).reg 2) ∧ (0x7F : Byte).toNat < 128 ∧ 128 ≤ (0x80 : Byte).toNat := by decide

/-- `DrawOverwritesItsRectangle`: no rows, and every bound met exactly; and a cell inside the sprite and one outside. -/
theorem witness_DrawOverwritesItsRectangle :
    (4095 + (1 : Nibble).toNat ≤ 4096 ∧ ((cpu 4095 [(1, 56), (2, 31)]).reg 1).toNat + 8 ≤ 64 ∧
      ((cpu 4095 [(1, 56), (2, 31)]).reg 2).toNat + (1 : Nibble).toNat ≤ 32) ∧
    (cpu 4095 [(1, 56), (2, 31)]).index.toNat = 4095 ∧ (cpu 4095 []).cfg.dispW = 64 ∧ (cpu 4095 []).cfg.dispH = 32 ∧
    InSprite 56 31 1 63 31 ∧ ¬ InSprite 56 31 1 55 31 := by decide

/-- `DrawOffTheGridRaises`: each of its four cases, one past each bound. -/
theorem witness_DrawOffTheGridRaises :
    (1 : Nibble) ≠ 0 ∧ 4096 ≤ (cpu 4096 []).index.toNat ∧
    (¬ 4096 ≤ (cpu 4095 [(1, 57)]).index.toNat ∧ 64 < ((cpu 4095 [(1, 57)]).reg 1).toNat + 8) ∧
    (¬ 64 < ((cpu 4095 [(1, 56)]).reg 1).toNat + 8 ∧ ¬ (cpu 4095 [(1, 56)]).index.toNat + (2 : Nibble).toNat ≤ 4096 ∧
      4096 - (cpu 4095 [(1, 56)]).index.toNat ≤ 32 - ((cpu 4095 [(1, 56)]).reg 2).toNat) ∧
    (¬ ((cpu 4095 [(2, 32)]).reg 2).toNat + (1 : Nibble).toNat ≤ 32 ∧
      ¬ 4096 - (cpu 4095 [(2, 32)]).index.toNat ≤ 32 - ((cpu 4095 [(2, 32)]).reg 2).toNat) := by decide

/-- `KeySkipsTestTheHeldMask` and `KeyIndexAboveFifteenRaises`: 15 and 16, the key held and not. -/
theorem witness_KeySkipsTestTheHeldMask :
    ((cpu 0 [(4, 15)]).reg 4).toNat ≤ 15 ∧ ((cpu 0 [(4, 15)]).keyDown 15).heldMask.getLsbD 15 = true ∧
    (cpu 0 [(4, 15)]).heldMask.getLsbD 15 = false ∧ 15 < ((cpu 0 [(4, 16)]).reg 4).toNat := by decide

/-- The state of `witness_KeyWaitSuspendsDispatch`: `F30A` at 0x200, with the smallest budget that still pays after. -/
def awaiting : State := looping (bytes [(0x200, 0xF3), (0x201, 0x0A)] State.reset) 4

/-- `KeyWaitSuspendsDispatch`, with no press and with one. -/
theorem witness_KeyWaitSuspendsDispatch :
    CanDispatch awaiting 4 ∧ CanDispatch (awaiting.keyDown 7) 4 ∧ awaiting.pc.toNat + 1 < 4096 ∧
    decodeWord (wordOfBytes (awaiting.byteAt awaiting.pc.toNat) (awaiting.byteAt (awaiting.pc.toNat + 1))) =
      .ok (.ldKey 3) ∧ awaiting.pressedMask = 0 ∧ (awaiting.keyDown 7).pressedMask ≠ 0 ∧ ∃ t, step awaiting = .next t := by
  unfold CanDispatch
  exact ⟨by decide, by decide, by decide, by decide, by decide, by decide, ⟨_, rfl⟩⟩

/-- `BcdStoresThreeDigits`, `BulkStoreWritesUpToX` and `BulkLoadReadsUpToX`, with the last byte at 4095. -/
theorem witness_BcdStoresThreeDigits :
    indexAddr (cpu 4093 []) 2 < 4096 ∧ indexAddr (cpu 4080 []) (15 : Reg).val < 4096 := by decide

/-- `BulkAccessBeyondMemoryRaises`: one byte beyond, with the earlier ones in memory. -/
theorem witness_BulkAccessBeyondMemoryRaises :
    (4096 ≤ indexAddr (cpu 4094 []) 2 ∧ indexAddr (cpu 4094 []) 0 < 4096 ∧ indexAddr (cpu 4094 []) 1 < 4096) ∧
    4096 ≤ indexAddr (cpu 4081 []) (15 : Reg).val ∧ indexAddr (cpu 4081 []) (14 : Reg).val < 4096 := by decide

/-- `UnimplementedFamiliesRaise`: `CLS`, a call and a computed jump. -/
theorem witness_UnimplementedFamiliesRaise :
    (0x00E0 : Word) &&& 0xF000 = 0x0000 ∧ (0x2FFF : Word) &&& 0xF000 = 0x2000 ∧
    (0xB000 : Word) &&& 0xF000 = 0xB000 := by decide

/-- `InstructionsRaiseOnlyTheirCauses`: each cause that can be raised is raised. -/
theorem witness_InstructionsRaiseOnlyTheirCauses :
    (∃ t, exec (.call 0) State.reset = .next t ∧ t.fault = some (.unimplemented 0x2000)) ∧
    (∃ t, exec (.loadRegs 0) (cpu 4096 []) = .next t ∧ t.fault = some (.outOfBoundsMemory 4096)) ∧
    (∃ t, exec (.drw 1 2 1) (cpu 0 [(1, 64)]) = .next t ∧ t.fault = some (.outOfBoundsDisplay 64 0)) ∧
    (∃ t, exec (.skp 1) (cpu 0 [(1, 16)]) = .next t ∧ t.fault = some (.outOfBoundsKey 16)) ∧
    State.reset.fault = none := ⟨⟨_, rfl, rfl⟩, ⟨_, rfl, rfl⟩, ⟨_, rfl, rfl⟩, ⟨_, rfl, rfl⟩, rfl⟩

/-- `MemoryFrameOfEveryInstruction`: the bytes just outside three stored digits. -/
theorem witness_MemoryFrameOfEveryInstruction :
    (∃ t, exec (.ldBcd 0) (cpu 0x300 []) = .next t) ∧ (∀ k < bytesStored (.ldBcd 0), 0x2FF ≠ indexAddr (cpu 0x300 []) k) ∧
    (∀ k < bytesStored (.ldBcd 0), 0x303 ≠ indexAddr (cpu 0x300 []) k) := ⟨⟨_, rfl⟩, by decide, by decide⟩

/-- `SpecialStateFrameOfEveryInstruction`, `RegisterFrameOfEveryInstruction`, `UnreadableStateStaysUnread`: an
instruction that meets every clause. -/
theorem witness_SpecialStateFrameOfEveryInstruction :
    (∃ t, exec (.jp 0) State.reset = .next t ∧ t.fault = none) ∧ (∀ nnn, Instr.jp 0 ≠ .ldIndex nnn) ∧
    (∀ x, Instr.jp 0 ≠ .addIndex x) ∧ (∀ x, Instr.jp 0 ≠ .ldGlyph x) ∧ (∀ x, Instr.jp 0 ≠ .ldToDt x) ∧
    (∀ x, Instr.jp 0 ≠ .ldToSt x) ∧ (∀ x y n, Instr.jp 0 ≠ .drw x y n) ∧ (∀ x, Instr.jp 0 ≠ .ldKey x) ∧
    (∀ x kk, Instr.jp 0 ≠ .rnd x kk) := by
  refine ⟨⟨_, rfl, rfl⟩, ?_⟩
  simp

/-- `StoredBytesAreReadAndFetched`: stores that end at 4095, whose last byte is the low byte of the fetch at 4094, and
whose first is the high byte of the fetch at its own address. -/
theorem witness_StoredBytesAreReadAndFetched :
    4095 < 4096 ∧ indexAddr (cpu 4080 []) (15 : Reg).val < 4096 ∧ indexAddr (cpu 4093 []) 2 < 4096 ∧
    (4094 : Word).toNat + 1 < 4096 ∧ indexAddr (cpu 4080 []) 15 = (4094 : Word).toNat + 1 ∧
    indexAddr (cpu 4093 []) 2 = (4094 : Word).toNat + 1 ∧ indexAddr (cpu 4080 []) 0 = (4080 : Word).toNat := by decide

/-- R74 and V-F55-1: the first two stored bytes, 11 and 22, are the word fetched at `I`. -/
theorem test_store_then_fetch :
    (one 0xF255 (cpu 0x400 [(0, 0x11), (1, 0x22), (2, 0x33)])).bind (fun t => fetched (t.setPc 0x400)) =
      some 0x1122 := by decide

/-- `EveryStepKeepsTheInvariant`: a core in a tick, with a cell lit, a byte stored and a frame emitted, that steps. -/
theorem witness_EveryStepKeepsTheInvariant :
    MachineInv { drawing with disp := [(0, 63), (31, 0)], outputs := [.frame []] } ∧
    ∃ t, step { drawing with disp := [(0, 63), (31, 0)], outputs := [.frame []] } = .next t := by
  refine ⟨⟨by decide, by decide, by decide, ?_, by decide, by decide, by decide, ⟨rfl, rfl⟩⟩, ⟨_, rfl⟩⟩
  rintro b (h | h)
  · have : b = 8 := by simpa [drawing, looping] using h.symm
    omega
  · simp [drawing, looping] at h

end Sys2Proof.Tests
end

section
/-! PROOFS. The state after reset (R40, R300): what each kind of cell reads as, and the statement about the reset
state itself. -/

namespace Sys2Proof.Machine

/-! ### What nothing listed reads as -/

theorem resetByte_font (c : Config) (a : Nat) (h : a < 80) : c.resetByte a = c.font[a] := dif_pos h

theorem resetByte_beyond_font (c : Config) (a : Nat) (h : 80 ≤ a) : c.resetByte a = 0 := dif_neg (Nat.not_lt.mpr h)

/-- With no lit cell listed, every cell is unlit. -/
theorem cellAt_nil (s : State) (x y : Nat) (h : s.disp = []) : s.cellAt x y = false := by
  simp [State.cellAt, Display.read, h]

/-! ### The cells of the reset state -/

@[simp] theorem reset_reg (r : Reg) : State.reset.reg r = 0 := Vector.getElem_replicate r.isLt

@[simp] theorem reset_stack_entry (k : Nat) (h : k < 256) : State.reset.stack[k] = 0 := Vector.getElem_replicate h

@[simp] theorem reset_cellAt (x y : Nat) : State.reset.cellAt x y = false := cellAt_nil _ x y rfl

/-- Memory after reset is the configuration's reset contents. -/
theorem reset_byteAt (a : Nat) : State.reset.byteAt a = State.reset.cfg.resetByte a := byteAt_nil _ a rfl

theorem reset_byteAt_font (a : Nat) (h : a < 80) : State.reset.byteAt a = State.reset.cfg.font[a] :=
  (reset_byteAt a).trans (resetByte_font _ a h)

theorem reset_byteAt_beyond_font (a : Nat) (h : 80 ≤ a) : State.reset.byteAt a = 0 :=
  (reset_byteAt a).trans (resetByte_beyond_font _ a h)

/-- Settles O20: the cells by their lemmas above, the single fields and the parameters' defaults as `State.reset` and
`Config.default` set them. -/
theorem resetStateHasTheStatedValues : Obligations.ResetStateHasTheStatedValues := by
  unfold Obligations.ResetStateHasTheStatedValues
  refine ⟨reset_reg, rfl, rfl, rfl, reset_stack_entry, rfl, rfl, reset_cellAt, rfl, rfl, rfl, rfl, rfl, rfl, rfl,
    reset_byteAt_beyond_font, reset_byteAt_font, rfl, rfl, rfl, ?font⟩
  case font => rfl

end Sys2Proof.Machine
end

section
/-! PROOFS. What an instruction does, said once: its accesses and writes (`effect`), and then either the net line of
`pc` or the fault (`exec_eq`). Every frame of an instruction and its part of the invariant follow from the list of
single writes it may make (`Write`). -/

namespace Sys2Proof.Machine

/-! ### The effect of an instruction apart from `pc` -/

/-- The accesses and writes of an instruction in their order, without the change of `pc` (R70, R238): done, or stopped
by the `raise` that its rule gives. -/
def effect (i : Instr) (s : State) : Attempt Unit :=
  match i with
  | .sys nnn => .raised (.unimplemented (encode (.sys nnn))) s
  | .call nnn => .raised (.unimplemented (encode (.call nnn))) s
  | .jpV0 nnn => .raised (.unimplemented (encode (.jpV0 nnn))) s
  | .jp _ | .seImm _ _ | .sneImm _ _ | .seReg _ _ _ | .sneReg _ _ _ => .done () s
  | .skp x | .sknp x => if 15 < (s.reg x).toNat then .raised (.outOfBoundsKey (s.reg x)) s else .done () s
  | .ldImm x kk => .done () (s.setReg x kk)
  | .addImm x kk => .done () (s.setReg x (addResult (s.reg x) kk))
  | .ldReg x y => .done () (s.setReg x (s.reg y))
  | .orReg x y => .done () (s.setReg x (s.reg x ||| s.reg y))
  | .andReg x y => .done () (s.setReg x (s.reg x &&& s.reg y))
  | .xorReg x y => .done () (s.setReg x (s.reg x ^^^ s.reg y))
  | .addReg x y => .done () (s.setResultFlag x (addResult (s.reg x) (s.reg y)) (carryFlag (s.reg x) (s.reg y)))
  | .subReg x y => .done () (s.setResultFlag x (subResult (s.reg x) (s.reg y)) (positiveFlag (s.reg x) (s.reg y)))
  | .shr x y => .done () (s.setResultFlag x (shrResult (shiftSource x y s)) (shrFlag (shiftSource x y s)))
  | .subn x y => .done () (s.setResultFlag x (subResult (s.reg y) (s.reg x)) (positiveFlag (s.reg y) (s.reg x)))
  | .shl x y => .done () (s.setResultFlag x (shlResult (shiftSource x y s)) (shlFlag (shiftSource x y s)))
  | .ldIndex nnn => .done () (s.setIndex (addrOperand nnn))
  | .addIndex x => .done () (s.setIndex (indexPlus x s))
  | .ldGlyph x => .done () (s.setIndex (glyphAddr x s))
  | .rnd x kk => .done () (s.countDraw.setReg x (s.randomByte &&& kk))
  | .ldFromDt x => .done () (s.setReg x s.dt)
  | .ldKey x => .done () (s.setAwait (some x))
  | .ldToDt x => .done () (s.setDt (s.reg x))
  | .ldToSt x => .done () (s.setSt (s.reg x))
  | .drw x y n => forEach (drawRow (s.reg x).toNat (s.reg y).toNat) (List.range n.toNat) s
  | .ldBcd x =>
    (memWrite (indexAddr s 0) (bcdHundreds (s.reg x)) s).andThen (fun _ t =>
      (memWrite (indexAddr s 1) (bcdTens (s.reg x)) t).andThen (fun _ u =>
        memWrite (indexAddr s 2) (bcdOnes (s.reg x)) u))
  | .storeRegs x => forEach storeOne (List.range (x.val + 1)) s
  | .loadRegs x => forEach loadOne (List.range (x.val + 1)) s

/-! ### The single writes of an instruction -/

/-- One write that the instruction `i`, begun in `s`, may make on its way: a destination register, a byte it stores, a
cell on the grid, and the single fields by the instructions that have them as destinations. -/
inductive Write (i : Instr) (s : State) : State → State → Prop where
  | reg {u : State} {r : Reg} (v : Byte) (hr : writesReg i r) : Write i s u (u.setReg r v)
  | byte {u : State} {k : Nat} (v : Byte) (hk : k < bytesStored i) (ha : indexAddr s k < 4096) :
      Write i s u (u.setByte (indexAddr s k) v)
  | cell {u : State} {x y : Nat} (b : Bool) (hx : x < u.cfg.dispW) (hy : y < u.cfg.dispH)
      (hi : ∃ x y n, i = .drw x y n) : Write i s u (u.setCell x y b)
  | index {u : State} (a : Word)
      (hi : (∃ nnn, i = .ldIndex nnn) ∨ (∃ x, i = .addIndex x) ∨ (∃ x, i = .ldGlyph x)) : Write i s u (u.setIndex a)
  | dt {u : State} (v : Byte) (hi : ∃ x, i = .ldToDt x) : Write i s u (u.setDt v)
  | st {u : State} (v : Byte) (hi : ∃ x, i = .ldToSt x) : Write i s u (u.setSt v)
  | await {u : State} (k : Option Reg) (hi : ∃ x, i = .ldKey x) : Write i s u (u.setAwait k)
  | draw {u : State} (hi : ∃ x kk, i = .rnd x kk) : Write i s u u.countDraw

/-- A write leaves `pc` and every field alone that no instruction writes. -/
theorem Write.frame {i : Instr} {s u v : State} (h : Write i s u v) :
    v = { u with regs := v.regs, mem := v.mem, index := v.index, dt := v.dt, st := v.st, disp := v.disp,
                 awaitKey := v.awaitKey, draws := v.draws } := by
  cases h <;> rfl

/-- An instruction gets from its first state to its last by its own writes alone, done or raised. -/
theorem effect_writes (i : Instr) (s : State) : Relation.ReflTransGen (Write i s) s (effect i s).final := by
  cases i
  case sys | call | jpV0 | jp | seImm | sneImm | seReg | sneReg => exact .refl
  case skp | sknp => simp only [effect]; split <;> exact .refl
  case ldImm | addImm | ldReg | orReg | andReg | xorReg | ldFromDt => exact .single (.reg _ rfl)
  case addReg | subReg | shr | subn | shl => exact .tail (.single (.reg _ (.inl rfl))) (.reg _ (.inr rfl))
  case ldIndex nnn => exact .single (.index _ (.inl ⟨nnn, rfl⟩))
  case addIndex x => exact .single (.index _ (.inr (.inl ⟨x, rfl⟩)))
  case ldGlyph x => exact .single (.index _ (.inr (.inr ⟨x, rfl⟩)))
  case rnd x kk => exact .tail (.single (.draw ⟨x, kk, rfl⟩)) (.reg _ rfl)
  case ldKey x => exact .single (.await _ ⟨x, rfl⟩)
  case ldToDt x => exact .single (.dt _ ⟨x, rfl⟩)
  case ldToSt x => exact .single (.st _ ⟨x, rfl⟩)
  case drw x y n =>
    exact draw_keeps _ (fun _ _ _ b hx hy h => h.tail (.cell b hx hy ⟨x, y, n, rfl⟩)) _ _ _ s .refl
  case ldBcd => exact bcd_keeps _ s (fun _ _ v hk ha h => h.tail (.byte v hk ha)) _ _ _ .refl
  case storeRegs x =>
    -- the bulk store reads `I` again for every byte: carry along that it is still the first one
    refine (store_keeps (fun u => u.index = s.index ∧ Relation.ReflTransGen (Write (.storeRegs x) s) s u) _
      (fun u k v hk ha ⟨hI, h⟩ => ?_) s ⟨rfl, .refl⟩).2
    have e : indexAddr u k = indexAddr s k := congrArg (·.toNat + k) hI
    rw [e] at ha ⊢
    exact ⟨hI, h.tail (.byte v hk ha)⟩
  case loadRegs x =>
    refine load_keeps _ _ (fun u k v hk h => h.tail (.reg v ?_)) s .refl
    have hx := x.isLt
    have : k % 16 ≤ x.val := by omega
    exact this

/-- What each write of an instruction keeps, its whole effect keeps. -/
theorem effect_keeps (P : State → Prop) (i : Instr) (s : State) (hw : ∀ u v, Write i s u v → P u → P v) (h : P s) :
    P (effect i s).final := by
  have hall : ∀ u, Relation.ReflTransGen (Write i s) s u → P u := fun u hu => by
    induction hu with
    | refl => exact h
    | tail _ hv ih => exact hw _ _ hv ih
  exact hall _ (effect_writes i s)

/-- A field that no write of the instruction changes is as before. -/
theorem effect_field {α : Type} (f : State → α) (i : Instr) (s : State) (hw : ∀ u v, Write i s u v → f v = f u) :
    f (effect i s).final = f s :=
  effect_keeps (fun u => f u = f s) i s (fun u v h hu => (hw u v h).trans hu) rfl

/-- The effect leaves `pc` and every field alone that no instruction writes. -/
theorem effect_frame (i : Instr) (s : State) :
    (effect i s).final = { s with
      regs := (effect i s).final.regs, mem := (effect i s).final.mem, index := (effect i s).final.index,
      dt := (effect i s).final.dt, st := (effect i s).final.st, disp := (effect i s).final.disp,
      awaitKey := (effect i s).final.awaitKey, draws := (effect i s).final.draws } :=
  effect_keeps (fun u => u = { s with
    regs := u.regs, mem := u.mem, index := u.index, dt := u.dt, st := u.st, disp := u.disp,
    awaitKey := u.awaitKey, draws := u.draws }) i s
    (fun u v h hu => by rw [h.frame, hu]) rfl

theorem effect_pc (i : Instr) (s : State) : (effect i s).final.pc = s.pc := by rw [effect_frame]

/-! ### The instruction: its effect, then `pc` or the fault -/

/-- How an instruction ends: `pc` goes to `a` when nothing was raised, else the fault is taken (R238, R240). -/
def settle (a : Word) (m : Attempt Unit) : Host.Outcome State Fault Refusal :=
  match m with
  | .done _ u => .next (u.setPc a)
  | .raised c u => .next (u.raise c)

/-- The net line of an instruction that has a skip test (R125). -/
theorem netPc_skip {i : Instr} {s : State} {c : Bool} (h : skips i s = some c) :
    netPc i s = if c then s.pc + 4 else s.pc + 2 := by
  unfold netPc
  split
  · cases h
  · rw [h]; cases c <;> rfl

/-- The net line of a jump (R120). -/
theorem netPc_jp (nnn : Addr12) (s : State) : netPc (.jp nnn) s = addrOperand nnn := BitVec.ofNat_toNat 16 nnn

/-- A handler that is a skip test ends with the net line of the skip (R125). -/
theorem skipIf_settle {i : Instr} {s : State} {c : Bool} (h : skips i s = some c) :
    (.next (s.skipIf c) : Host.Outcome State Fault Refusal) = settle (netPc i s) (.done () s) := by
  rw [skipIf_eq, netPc_skip h]; rfl

/-- A key skip: the fault of an index above 15, else the skip (R180 to R182). -/
theorem skipOnKey_settle {i : Instr} {s : State} {x : Reg} {want : Bool}
    (h : skips i s = some (keyIn s.heldMask (s.reg x).toNat == want)) :
    skipOnKey x want s = settle (netPc i s)
      (if 15 < (s.reg x).toNat then .raised (.outOfBoundsKey (s.reg x)) s else .done () s) := by
  unfold skipOnKey
  split
  · rfl
  · exact skipIf_settle h

/-- A handler made of accesses ends with the net line of an instruction that is no jump and no skip. -/
theorem conclude_settle (i : Instr) (s : State) (hn : netPc i s = s.pc + 2) :
    conclude (effect i s) = settle (netPc i s) (effect i s) := by
  have hpc := effect_pc i s
  rw [hn]
  cases hm : effect i s with
  | done _ u => rw [hm] at hpc; rw [← hpc]; rfl
  | raised c u => rfl

/-- Every instruction is its effect, then the net line of `pc` or the fault (R25, R238, R240). -/
theorem exec_eq (i : Instr) (s : State) : exec i s = settle (netPc i s) (effect i s) := by
  cases i
  case seImm | sneImm | seReg | sneReg => exact skipIf_settle rfl
  case skp | sknp => refine skipOnKey_settle (congrArg some ?_); cases keyIn _ _ <;> rfl
  case jp nnn => rw [netPc_jp]; rfl
  case drw x y n => exact conclude_settle (.drw x y n) s rfl
  case ldBcd x => exact conclude_settle (.ldBcd x) s rfl
  case storeRegs x => exact conclude_settle (.storeRegs x) s rfl
  case loadRegs x => exact conclude_settle (.loadRegs x) s rfl
  all_goals rfl

/-- The state after an instruction is the last one of its effect with `pc` at the net line when nothing was raised, else
with the fault taken. -/
theorem exec_cases {i : Instr} {s t : State} (h : exec i s = .next t) :
    (effect i s = .done () (effect i s).final ∧ t = (effect i s).final.setPc (netPc i s)) ∨
      ∃ c, effect i s = .raised c (effect i s).final ∧ t = (effect i s).final.raise c := by
  rw [exec_eq] at h
  cases hm : effect i s <;> rw [hm] at h <;> cases h
  · exact .inl ⟨rfl, rfl⟩
  · exact .inr ⟨_, rfl, rfl⟩

/-- An instruction leaves every field alone that no write, no change of `pc` and no `raise` touches. -/
theorem exec_frame {i : Instr} {s t : State} (h : exec i s = .next t) :
    t = { s with regs := t.regs, mem := t.mem, index := t.index, pc := t.pc, dt := t.dt, st := t.st, disp := t.disp,
                 awaitKey := t.awaitKey, tick := t.tick, fault := t.fault, draws := t.draws,
                 outputs := t.outputs } := by
  rcases exec_cases h with ⟨-, rfl⟩ | ⟨c, -, rfl⟩ <;> (rw [effect_frame]; rfl)

/-! ### What an instruction raises -/

/-- What every access of a sequence may raise is all that the sequence may raise. -/
theorem forEach_raised (Q : Fault → Prop) (f : Nat → State → Attempt Unit)
    (hf : ∀ k s c u, f k s = .raised c u → Q c) (l : List Nat) (s : State) (c : Fault) (u : State)
    (h : forEach f l s = .raised c u) : Q c := by
  induction l generalizing s with
  | nil => cases h
  | cons k l ih =>
    rw [forEach_cons] at h
    cases hk : f k s with
    | done _ t => rw [hk] at h; exact ih t h
    | raised d t => rw [hk] at h; cases h; exact hf k s _ _ hk

/-- Two accesses in turn raise what the one or the other raises. -/
theorem andThen_raised_inv {α β : Type} {m : Attempt α} {f : α → State → Attempt β} {c : Fault} {u : State}
    (h : m.andThen f = .raised c u) : m = .raised c u ∨ ∃ a t, m = .done a t ∧ f a t = .raised c u := by
  cases m with
  | done a t => exact .inr ⟨a, t, rfl, h⟩
  | raised d t => cases h; exact .inl rfl

theorem memRead_raised {a : Nat} {s u : State} {c : Fault} (h : memRead a s = .raised c u) :
    ∃ a, c = .outOfBoundsMemory a ∧ 4096 ≤ a := by
  by_cases ha : a < 4096
  · rw [memRead_in a s ha] at h; cases h
  · rw [memRead_out a s (Nat.not_lt.mp ha)] at h; cases h; exact ⟨a, rfl, Nat.not_lt.mp ha⟩

theorem memWrite_raised {a : Nat} {v : Byte} {s u : State} {c : Fault} (h : memWrite a v s = .raised c u) :
    ∃ a, c = .outOfBoundsMemory a ∧ 4096 ≤ a := by
  by_cases ha : a < 4096
  · rw [memWrite_in a v s ha] at h; cases h
  · rw [memWrite_out a v s (Nat.not_lt.mp ha)] at h; cases h; exact ⟨a, rfl, Nat.not_lt.mp ha⟩

theorem dispWrite_raised {x y : Nat} {b : Bool} {s u : State} {c : Fault} (h : dispWrite x y b s = .raised c u) :
    ∃ x y, c = .outOfBoundsDisplay x y := by
  unfold dispWrite at h
  split at h <;> cases h
  exact ⟨x, y, rfl⟩

/-- The effect of an instruction raises only the causes R284 gives it. -/
theorem effect_raised {i : Instr} {s u : State} {c : Fault} (h : effect i s = .raised c u) : mayRaise i c := by
  cases i
  case sys | call | jpV0 => cases h; rfl
  case skp x | sknp x =>
    simp only [effect] at h
    split at h <;> cases h
    exact ⟨_, rfl, ‹_›⟩
  case drw =>
    refine forEach_raised _ _ (fun k t c u h => ?_) _ _ _ _ h
    rcases andThen_raised_inv h with h | ⟨b, w, -, h⟩
    · exact .inl (memRead_raised h)
    · exact forEach_raised _ _ (fun _ _ _ _ h => .inr (dispWrite_raised h)) _ _ _ _ h
  case ldBcd =>
    rcases andThen_raised_inv h with h | ⟨_, t, -, h⟩
    · exact memWrite_raised h
    · rcases andThen_raised_inv h with h | ⟨_, u, -, h⟩ <;> exact memWrite_raised h
  case storeRegs => exact forEach_raised _ _ (fun _ _ _ _ h => memWrite_raised h) _ _ _ _ h
  case loadRegs =>
    refine forEach_raised _ _ (fun k t c u h => ?_) _ _ _ _ h
    rcases andThen_raised_inv h with h | ⟨b, w, -, h⟩
    · exact memRead_raised h
    · cases h
  all_goals cases h

end Sys2Proof.Machine
end

section
/-! PROOFS. What the step of the machine can do, said once: the core's steps (`CoreCase`), the moves of the host
(`MoveCase`), and what each of them leaves alone. -/

namespace Sys2Proof.Machine

/-! ### A word that is no instruction -/

/-- The decoder rejects a word as unlisted, never for its family (R100). -/
theorem decodeWord_error {w : Word} {r : WordReject} (h : decodeWord w = .error r) : r = .unlisted w := by
  have hfam := (fieldFam w).isLt
  unfold decodeWord at h
  split at h
  case h_9 => unfold decodeAlu at h; split at h <;> cases h; rfl
  case h_15 => unfold decodeKeySkip at h; split at h <;> cases h; rfl
  case h_16 => unfold decodeMisc at h; split at h <;> cases h; rfl
  case h_17 => simp only [imp_false] at *; omega
  all_goals cases h

/-- What the dispatch of a word can do: its instruction, or the fault of an unlisted word. -/
theorem dispatchWord_cases (w : Word) (s : State) :
    (∃ i, decodeWord w = .ok i ∧ dispatchWord w s = exec i s) ∨
      dispatchWord w s = .next (s.raise (.unimplemented w)) := by
  cases h : decodeWord w with
  | ok i => exact .inl ⟨i, rfl, dispatchWord_ok w i s h⟩
  | error r =>
    obtain rfl := decodeWord_error h
    exact .inr (dispatchWord_unlisted w s h)

/-! ### The core's step -/

/-- The causes that the spec lets arise: all but the codes 5 to 7 (R286). -/
def Fault.arises (c : Fault) : Prop :=
  c ≠ .outOfBoundsStack ∧ c ≠ .outOfBoundsRegister ∧ c ≠ .internalConsistency

theorem mayRaise_arises {i : Instr} {c : Fault} (h : mayRaise i c) : c.arises := by
  cases i
  case sys | call | jpV0 => obtain rfl : c = _ := h; exact ⟨nofun, nofun, nofun⟩
  case skp | sknp => obtain ⟨k, rfl, -⟩ := h; exact ⟨nofun, nofun, nofun⟩
  case ldBcd | storeRegs | loadRegs => obtain ⟨a, rfl, -⟩ := h; exact ⟨nofun, nofun, nofun⟩
  case drw => rcases h with ⟨a, rfl, -⟩ | ⟨x, y, rfl⟩ <;> exact ⟨nofun, nofun, nofun⟩
  all_goals cases h

/-- The core's step from `s` (R244): nothing outside a tick or after a fault; else the loop left early, a key captured,
a fault of the fetch or the dispatch, an instruction run and charged, or the end of the tick. -/
inductive CoreCase (s : State) : State → Prop where
  | rest (h : s.fault ≠ none ∨ s.tick = .idle) : CoreCase s s
  | leave {b : Nat} (ht : s.tick = .looping b) : CoreCase s (s.setTick (.left b))
  | capture {b : Nat} (r : Reg) (ht : s.tick = .looping b) : CoreCase s (s.capture r)
  | raise {b : Nat} {c : Fault} (hf : s.fault = none) (ht : s.tick = .looping b) (hc : c.arises) :
      CoreCase s (s.raise c)
  | run {b : Nat} {i : Instr} {u : State} (hf : s.fault = none) (ht : s.tick = .looping b)
      (hpc : s.pc.toNat + 1 < 4096) (hi : exec i s = .next u) : CoreCase s u.charge
  | endTick (hf : s.fault = none) (ht : s.tick ≠ .idle) : CoreCase s (s.endOfTick.setTick .idle)

/-- A charge changes the budget alone (R239). -/
theorem charge_eq (s : State) : s.charge = s.setTick s.charge.tick := by
  unfold State.charge
  split <;> rfl

/-- Fetch and dispatch in the loop: a fault or an instruction (R237 to R240). -/
theorem fetchDispatch_cases {s t : State} {b : Nat} (hf : s.fault = none) (ht : s.tick = .looping b)
    (h : fetchDispatch s = .next t) : CoreCase s t := by
  by_cases hpc : s.pc.toNat + 1 < 4096
  · rw [fetchDispatch_in s hpc] at h
    rcases dispatchWord_cases (wordOfBytes (s.byteAt s.pc.toNat) (s.byteAt (s.pc.toNat + 1))) s with
      ⟨i, -, hw⟩ | hw <;> rw [hw] at h
    · rw [exec_eq] at h
      have hi := exec_eq i s
      cases hm : effect i s <;> rw [hm] at h hi <;> cases h <;> exact .run hf ht hpc hi
    · cases h
      exact .raise hf ht ⟨nofun, nofun, nofun⟩
  · rw [fetchDispatch_out s (Nat.not_lt.mp hpc)] at h
    cases h
    exact .raise hf ht ⟨nofun, nofun, nofun⟩

/-- An iteration of the loop: left when stopped or without a key, a key captured, or a fetch and dispatch (R233). -/
theorem iterate_cases {s t : State} {b : Nat} (hf : s.fault = none) (ht : s.tick = .looping b)
    (h : iterate b s = .next t) : CoreCase s t := by
  unfold iterate at h
  split at h
  · cases h; exact .leave ht
  · split at h
    · split at h <;> cases h
      · exact .leave ht
      · exact .capture _ ht
    · exact fetchDispatch_cases hf ht h

theorem coreStep_cases {s t : State} (h : coreStep s = .next t) : CoreCase s t := by
  by_cases hf : s.fault = none
  · cases ht : s.tick with
    | idle => simp only [coreStep, ht, ite_self] at h; cases h; exact .rest (.inr ht)
    | looping b =>
      by_cases hb : 2 ≤ b
      · rw [coreStep_looping s b hf ht hb] at h
        exact iterate_cases hf ht h
      · rw [coreStep_spent s b hf ht (Nat.not_le.mp hb)] at h
        cases h
        exact .endTick hf (by rw [ht]; nofun)
    | left b =>
      rw [coreStep_left s b hf ht] at h
      cases h
      exact .endTick hf (by rw [ht]; nofun)
  · rw [coreStep, if_pos (Option.isSome_iff_ne_none.mpr hf)] at h
    cases h
    exact .rest (.inl hf)

/-! ### The moves of the host -/

/-- The state after the host's move, where the move has a step (R245 to R252). -/
inductive MoveCase (s : State) : HostMove → State → Prop where
  | pass {t : State} (h : CoreCase s t) : MoveCase s .pass t
  | reset (h : s.resetAllowed = true) : MoveCase s .reset s.doReset
  | load {image : List Byte} (hb : s.boot = .fresh) (hl : image.length ≤ maxImage) :
      MoveCase s (.load image) { State.copyBytes image progBase s with boot := .loaded }
  | tick (ht : s.tick = .idle) : MoveCase s .tick s.tickStart
  | keyDown (k : Key) : MoveCase s (.keyDown k) (s.keyDown k)
  | keyUp (k : Key) : MoveCase s (.keyUp k) (s.keyUp k)
  | stop : MoveCase s .stop s.stop

theorem hostLoad_cases {image : List Byte} {s t : State} (h : hostLoad image s = .next t) :
    MoveCase s (.load image) t := by
  unfold hostLoad at h
  split at h
  · cases h
  · rename_i hb
    split at h <;> cases h
    exact .load (not_not.mp hb) (of_decide_eq_true ‹_›)

theorem hostTick_cases {s t : State} (h : hostTick s = .next t) : MoveCase s .tick t := by
  unfold hostTick at h
  split at h <;> cases h
  exact .tick ‹_›

theorem hostMove_cases {m : HostMove} {s t : State} (h : hostMove m s = .next t) : MoveCase s m t := by
  cases m with
  | pass => exact .pass (coreStep_cases h)
  | reset =>
    rcases hostReset_cases s with ⟨hr, e⟩ | ⟨-, e⟩ <;> rw [hostMove, e] at h <;> cases h
    exact .reset hr
  | load image => exact hostLoad_cases h
  | tick => exact hostTick_cases h
  | keyDown k => cases h; exact .keyDown k
  | keyUp k => cases h; exact .keyUp k
  | stop => cases h; exact .stop

/-! ### The step of the machine -/

/-- The state without the host move that waits first. -/
def State.popMove (s : State) : State := { s with hostMoves := s.hostMoves.tail }

theorem popMove_nil {s : State} (h : s.hostMoves = []) : s.popMove = s := by
  unfold State.popMove
  rw [h, List.tail_nil, ← h]

/-- The step is the host's oldest waiting move, or, when none waits, a new tick or the core's own step. -/
theorem step_cases {s t : State} (h : step s = .next t) :
    ∃ m, (s.hostMoves.head? = some m ∨ m = .tick ∨ m = .pass) ∧ MoveCase s.popMove m t := by
  cases hm : s.hostMoves with
  | cons m rest =>
    rw [step_move s m rest hm] at h
    refine ⟨m, .inl rfl, hostMove_cases ?_⟩
    rw [State.popMove, hm]; exact h
  | nil =>
    rw [step_auto s hm, autoStep] at h
    rw [popMove_nil hm]
    split at h
    · cases h
    · split at h
      · exact ⟨.tick, .inr (.inl rfl), hostTick_cases h⟩
      all_goals exact ⟨.pass, .inr (.inr rfl), .pass (coreStep_cases h)⟩

/-! ### What a step leaves alone -/

/-- The core's step leaves the configuration, the stack, the held mask, `stopped`, the boot marker and the host's moves
alone. -/
theorem CoreCase.frame {s t : State} (h : CoreCase s t) :
    t = { s with regs := t.regs, mem := t.mem, index := t.index, pc := t.pc, dt := t.dt, st := t.st, disp := t.disp,
                 pressedMask := t.pressedMask, awaitKey := t.awaitKey, tick := t.tick, fault := t.fault,
                 draws := t.draws, outputs := t.outputs } := by
  cases h with
  | run _ _ _ hi => rw [charge_eq, exec_frame hi]; rfl
  | _ => rfl

/-- The core's step keeps the pressed mask, or clears it at the end of a tick (R242). -/
theorem CoreCase.pressedMask {s t : State} (h : CoreCase s t) : t.pressedMask = s.pressedMask ∨ t.pressedMask = 0 := by
  cases h with
  | run _ _ _ hi => rw [charge_eq, exec_frame hi]; exact .inl rfl
  | endTick => exact .inr rfl
  | _ => exact .inl rfl

/-- The start of a tick changes the boot marker and the tick alone (R231). -/
theorem tickStart_eq (s : State) : s.tickStart = { s with boot := .started, tick := s.tickStart.tick } := by
  unfold State.tickStart
  split <;> rfl

/-- A key press changes the two masks alone (R247). -/
theorem keyDown_eq (s : State) (k : Key) :
    s.keyDown k = { s with heldMask := (s.keyDown k).heldMask, pressedMask := (s.keyDown k).pressedMask } := by
  unfold State.keyDown
  split <;> rfl

end Sys2Proof.Machine
end

section
/-! PROOFS. The machine invariant: it holds after every reset, and every single operation, so every effect of an
instruction and every step, keeps it. -/

namespace Sys2Proof.Machine

/-! ### The operations keep the invariant -/

/-- The invariant speaks of the configuration, memory, the display, `pc`, the tick, the fault, the boot marker and the
stack alone. -/
theorem MachineInv.of_untracked {s t : State} (h : MachineInv s)
    (e : t = { s with regs := t.regs, index := t.index, dt := t.dt, st := t.st, heldMask := t.heldMask,
                      pressedMask := t.pressedMask, awaitKey := t.awaitKey, stopped := t.stopped, draws := t.draws,
                      hostMoves := t.hostMoves, outputs := t.outputs }) : MachineInv t := by
  obtain ⟨hmem, hdisp, hpc, hbudget, hidle, hcauses, hboot, hstack⟩ := h
  rw [e]
  exact ⟨hmem, hdisp, hpc, hbudget, hidle, hcauses, hboot, hstack⟩

theorem setPc_inv {s : State} {a : Word} (h : MachineInv s) (ha : a.toNat ≤ 4098) : MachineInv (s.setPc a) :=
  { h with pcBound := ha }

theorem setByte_inv {s : State} {a : Nat} (v : Byte) (h : MachineInv s) (ha : a < 4096) : MachineInv (s.setByte a v) :=
  { h with memory := write_wf s.cfg s.mem a v ha h.memory }

theorem setCell_inv {s : State} {x y : Nat} (b : Bool) (h : MachineInv s) (hx : x < s.cfg.dispW)
    (hy : y < s.cfg.dispH) : MachineInv (s.setCell x y b) :=
  { h with display := displayWrite_wf s.cfg s.disp x y b hx hy h.display }

/-- A tick may go on with any budget of R35, on a core that is not faulted and has been started. -/
theorem setTick_inv {s : State} {p : TickPhase} (h : MachineInv s)
    (hb : ∀ b, p = .looping b ∨ p = .left b → b ≤ 8 ∧ b % 2 = 0) (hf : s.fault ≠ none → p = .idle)
    (hs : p ≠ .idle → s.boot = .started) : MachineInv (s.setTick p) :=
  { h with
    budget := hb
    faultIdle := hf
    bootOrder := fun hp => hp.elim hs (fun hf => h.bootOrder (.inr hf)) }

/-- The end of a tick needs nothing (R241). -/
theorem setTick_idle_inv {s : State} (h : MachineInv s) : MachineInv (s.setTick .idle) :=
  setTick_inv h (by rintro b (e | e) <;> cases e) (fun _ => rfl) (fun hp => absurd rfl hp)

/-- Inside a tick the tick may go on with another budget of R35. -/
theorem setTick_inTick_inv {s : State} {p : TickPhase} (h : MachineInv s) (ht : s.tick ≠ .idle)
    (hb : ∀ b, p = .looping b ∨ p = .left b → b ≤ 8 ∧ b % 2 = 0) : MachineInv (s.setTick p) :=
  setTick_inv h hb (fun hf => absurd (h.faultIdle hf) ht) (fun _ => h.bootOrder (.inl ht))

theorem raise_inv {s : State} {c : Fault} (h : MachineInv s) (hs : s.boot = .started) (hc : c.arises) :
    MachineInv (s.raise c) := by
  obtain ⟨hstack, hreg, hcons⟩ := hc
  exact { h with
    budget := by rintro b (e | e) <;> cases e
    faultIdle := fun _ => rfl
    causes := ⟨by simpa, by simpa, by simpa⟩
    bootOrder := fun _ => hs }

/-- A charge takes 2 from a budget of R35 and leaves one of them (R239). -/
theorem charge_inv {s : State} (h : MachineInv s) : MachineInv s.charge := by
  unfold State.charge
  split
  · exact h
  · rename_i b ht
    have hb := h.budget b (.inl ht)
    refine setTick_inTick_inv h (by rw [ht]; nofun) ?_
    rintro b' (e | e) <;> cases e
    unfold instrCost
    omega
  · exact h

/-! ### An instruction keeps the invariant -/

theorem Write.inv {i : Instr} {s u v : State} (h : Write i s u v) (hu : MachineInv u) : MachineInv v := by
  cases h with
  | byte v _ ha => exact setByte_inv v hu ha
  | cell b hx hy _ => exact setCell_inv b hu hx hy
  | _ => exact hu.of_untracked rfl

theorem effect_inv (i : Instr) {s : State} (h : MachineInv s) : MachineInv (effect i s).final :=
  effect_keeps MachineInv i s (fun _ _ hw => hw.inv) h

/-- From an address that can be fetched the net line of `pc` goes to 4098 at most (R25). -/
theorem netPc_le (i : Instr) {s : State} (h : s.pc.toNat + 1 < 4096) : (netPc i s).toNat ≤ 4098 := by
  have h2 : (s.pc + 2).toNat = s.pc.toNat + 2 := Nat.mod_eq_of_lt (show s.pc.toNat + 2 < 65536 by omega)
  have h4 : (s.pc + 4).toNat = s.pc.toNat + 4 := Nat.mod_eq_of_lt (show s.pc.toNat + 4 < 65536 by omega)
  unfold netPc
  split
  · rename_i nnn
    have := nnn.isLt
    rw [BitVec.toNat_ofNat]
    omega
  · split <;> omega

theorem exec_inv {i : Instr} {s t : State} (h : MachineInv s) (hs : s.boot = .started) (hpc : s.pc.toNat + 1 < 4096)
    (hi : exec i s = .next t) : MachineInv t := by
  have he := effect_inv i h
  rcases exec_cases hi with ⟨-, rfl⟩ | ⟨c, hc, rfl⟩
  · exact setPc_inv he (netPc_le i hpc)
  · exact raise_inv he (by rw [effect_frame]; exact hs) (mayRaise_arises (effect_raised hc))

/-! ### Every step keeps the invariant -/

theorem CoreCase.inv {s t : State} (h : CoreCase s t) (hs : MachineInv s) : MachineInv t := by
  have started {b : Nat} (ht : s.tick = .looping b) : s.boot = .started := hs.bootOrder (.inl (by rw [ht]; nofun))
  cases h with
  | rest => exact hs
  | leave ht =>
    refine setTick_inTick_inv hs (by rw [ht]; nofun) ?_
    rintro b' (e | e) <;> cases e
    exact hs.budget _ (.inl ht)
  | capture => exact hs.of_untracked rfl
  | raise _ ht hc => exact raise_inv hs (started ht) hc
  | run _ ht hpc hi => exact charge_inv (exec_inv hs (started ht) hpc hi)
  | endTick => exact setTick_idle_inv (hs.of_untracked rfl)

/-- The state after a reset has the invariant, whatever was before (R40). -/
theorem doReset_inv (s : State) : MachineInv s.doReset where
  memory := ⟨.nil, nofun⟩
  display := ⟨.nil, nofun⟩
  pcBound := show (512 : Word).toNat ≤ 4098 by decide
  budget := by rintro b (e | e) <;> cases e
  faultIdle := fun _ => rfl
  causes := ⟨nofun, nofun, nofun⟩
  bootOrder := fun h => h.elim (absurd rfl) (absurd rfl)
  stackDead := ⟨rfl, rfl⟩

theorem tickStart_inv {s : State} (h : MachineInv s) : MachineInv s.tickStart := by
  have hb : MachineInv { s with boot := .started } := { h with bootOrder := fun _ => rfl }
  unfold State.tickStart
  split
  · exact hb
  · rename_i hf
    refine setTick_inv hb ?_ (fun hc => absurd ?_ hf) (fun _ => rfl)
    · rintro b (e | e) <;> cases e
      decide
    · rw [Option.isSome_iff_ne_none.mpr hc, Bool.true_or]

/-- An image is loaded before the first tick, so the core is in no tick and not faulted (R246, R301). -/
theorem load_inv {s : State} {image : List Byte} (h : MachineInv s) (hb : s.boot = .fresh)
    (hl : image.length ≤ maxImage) :
    MachineInv { State.copyBytes image progBase s with boot := .loaded } := by
  have hlen : progBase + image.length ≤ 4096 := by unfold progBase; unfold maxImage at hl; omega
  rw [copyBytes_eq]
  exact { h with
    memory := copyBytes_wf image progBase s hlen h.memory
    bootOrder := fun ht => by have := h.bootOrder ht; rw [hb] at this; cases this }

theorem MoveCase.inv {m : HostMove} {s t : State} (h : MoveCase s m t) (hs : MachineInv s) : MachineInv t := by
  cases h with
  | pass h => exact h.inv hs
  | reset => exact doReset_inv s
  | load hb hl => exact load_inv hs hb hl
  | tick => exact tickStart_inv hs
  | keyDown k => rw [keyDown_eq]; exact hs.of_untracked rfl
  | keyUp | stop => exact hs.of_untracked rfl

/-- Settles O60: the step is one of the cases of `step_cases`, and each of them keeps the invariant. -/
theorem everyStepKeepsTheInvariant : Obligations.EveryStepKeepsTheInvariant := by
  unfold Obligations.EveryStepKeepsTheInvariant
  intro s t hs h
  obtain ⟨m, -, hm⟩ := step_cases h
  exact hm.inv (hs.of_untracked rfl)

/-- Settles O59: the reset state is what a reset of it leaves. -/
theorem invariantHoldsAtReset : Obligations.InvariantHoldsAtReset := doReset_inv State.reset

end Sys2Proof.Machine
end

section
/-! PROOFS. The statements about faults, `Reset`, `Stop` and the masks, from the cases of the step. -/

namespace Sys2Proof.Machine

/-- A move that the host does not make first, and that no step makes unasked, is not the move of the step. -/
theorem move_ne {s : State} {m k : HostMove} (hm : s.hostMoves.head? = some m ∨ m = .tick ∨ m = .pass)
    (hk : s.hostMoves.head? ≠ some k) (ht : k ≠ .tick) (hp : k ≠ .pass) : m ≠ k := by
  rintro rfl
  exact hm.elim hk (fun h => h.elim ht hp)

/-! ### A fault is terminal -/

/-- A faulted core that is in no tick has no step of its own (R240, R272). -/
theorem CoreCase.eq_of_faulted {s t : State} (h : CoreCase s t) (hf : s.fault ≠ none) (ht : s.tick = .idle) :
    t = s := by
  cases h with
  | rest => rfl
  | leave h | capture _ h => rw [ht] at h; cases h
  | raise h | run h | endTick h => exact absurd h hf

/-- Nothing starts on a faulted core (R231). -/
theorem tickStart_faulted {s : State} (hf : s.fault ≠ none) : s.tickStart = { s with boot := .started } := by
  rw [State.tickStart, Option.isSome_iff_ne_none.mpr hf, Bool.true_or, if_pos rfl]

/-- Of a faulted core that is in no tick and past its boot, every move of the host but `Reset` leaves all but the masks,
`stopped` and the moves themselves. -/
theorem MoveCase.frame_of_faulted {m : HostMove} {s t : State} (h : MoveCase s m t) (hr : m ≠ .reset)
    (hf : s.fault ≠ none) (ht : s.tick = .idle) (hb : s.boot = .started) :
    t = { s with heldMask := t.heldMask, pressedMask := t.pressedMask, stopped := t.stopped } := by
  cases h with
  | pass h => rw [h.eq_of_faulted hf ht]
  | reset => exact absurd rfl hr
  | load h => rw [hb] at h; cases h
  | tick => rw [tickStart_faulted hf, ← hb]
  | keyDown k => rw [keyDown_eq]
  | keyUp | stop => rfl

/-- Settles O18: with no host move left the step answers the fault; else the move is none that changes such a core. -/
theorem faultIsTerminal : Obligations.FaultIsTerminal := by
  unfold Obligations.FaultIsTerminal
  intro s c hc ht hb
  refine ⟨fun hm => ?_, fun t hr h => ?_⟩
  · rw [step_auto s hm, autoStep, hc]
  · have hf : s.fault ≠ none := by rw [hc]; nofun
    obtain ⟨m, hm, hcase⟩ := step_cases h
    rw [hcase.frame_of_faulted (move_ne hm hr nofun nofun) hf ht hb]
    exact ⟨hc, rfl, rfl, rfl, rfl, rfl, rfl, rfl, rfl, rfl, ht⟩

/-! ### `Reset` -/

/-- After a reset memory is the reset contents of the configuration that stays (R40, log 28). -/
theorem doReset_byteAt (s : State) (a : Nat) : s.doReset.byteAt a = s.cfg.resetByte a := byteAt_nil s.doReset a rfl

/-- Settles O19: the cells by the lemmas of the reset state, the moments by `resetAllowed_iff`. -/
theorem resetZeroesAllState : Obligations.ResetZeroesAllState := by
  unfold Obligations.ResetZeroesAllState
  refine ⟨fun s => ⟨reset_reg, rfl, rfl, rfl, rfl, reset_stack_entry, fun a h => ?_, fun a h => ?_, reset_cellAt, rfl,
    rfl, rfl, rfl, rfl, rfl, rfl⟩, fun s rest hm => ?_⟩
  · rw [doReset_byteAt, resetByte_font _ a h]
  · rw [doReset_byteAt, resetByte_beyond_font _ a h]
  · rw [step_move s _ rest hm, hostMove]
    have hallowed := resetAllowed_iff { s with hostMoves := rest }
    rcases hostReset_cases { s with hostMoves := rest } with ⟨hr, e⟩ | ⟨hr, e⟩ <;> rw [e] <;> rw [hr] at hallowed
    · obtain ⟨hidle, hwhen⟩ := hallowed.mp rfl
      refine ⟨fun _ _ => rfl, fun ht => absurd hidle ht, fun _ hb hs hf => ?_⟩
      rcases hwhen with h | h | h
      · exact absurd hb h
      · rw [hs] at h; cases h
      · exact absurd hf h
    · refine ⟨fun ht hwhen => ?_, fun _ => rfl, fun _ _ _ _ => rfl⟩
      cases hallowed.mpr ⟨ht, hwhen⟩

/-! ### `stopped` -/

/-- No move but `Reset` clears `stopped` (R33, R250, R251). -/
theorem MoveCase.keeps_stopped {m : HostMove} {s t : State} (h : MoveCase s m t) (hr : m ≠ .reset)
    (hs : s.stopped = true) : t.stopped = true := by
  cases h with
  | pass h => rw [h.frame]; exact hs
  | reset => exact absurd rfl hr
  | load => rw [copyBytes_eq]; exact hs
  | tick => rw [tickStart_eq]; exact hs
  | keyDown k => rw [keyDown_eq]; exact hs
  | keyUp => exact hs
  | stop => rfl

/-- Inside a tick a `Tick` has no step (log 3). -/
theorem hostTick_inTick {s : State} (ht : s.tick ≠ .idle) : hostTick s = .refused .tickInProgress := by
  unfold hostTick
  split
  · exact absurd ‹_› ht
  · rfl
  · rfl

/-- Settles O24: `Stop` as the model's move, the instructions by their frame, the steps by their cases. -/
theorem onlyResetClearsStopped : Obligations.OnlyResetClearsStopped := by
  unfold Obligations.OnlyResetClearsStopped
  refine ⟨fun s rest hm => step_move s _ rest hm, fun i s t h => ?_, fun s t hs hr h => ?_, fun s rest hm ht => ?_⟩
  · rw [exec_frame h]
  · obtain ⟨m, hm, hcase⟩ := step_cases h
    exact hcase.keeps_stopped (move_ne hm hr nofun nofun) hs
  · rw [step_move s _ rest hm]
    exact hostTick_inTick ht

/-! ### The masks and the configuration -/

/-- A move that is no key event and no `Reset` keeps the held mask, and keeps or clears the pressed mask. -/
theorem MoveCase.masks {m : HostMove} {s t : State} (h : MoveCase s m t) (hr : m ≠ .reset)
    (hd : ∀ k, m ≠ .keyDown k) (hu : ∀ k, m ≠ .keyUp k) :
    t.heldMask = s.heldMask ∧ (t.pressedMask = s.pressedMask ∨ t.pressedMask = 0) := by
  cases h with
  | pass h => exact ⟨by rw [h.frame], h.pressedMask⟩
  | reset => exact absurd rfl hr
  | load => rw [copyBytes_eq]; exact ⟨rfl, .inl rfl⟩
  | tick => rw [tickStart_eq]; exact ⟨rfl, .inl rfl⟩
  | keyDown k => exact absurd rfl (hd k)
  | keyUp k => exact absurd rfl (hu k)
  | stop => exact ⟨rfl, .inl rfl⟩

/-- No move changes the configuration (R39, log 28). -/
theorem MoveCase.cfg {m : HostMove} {s t : State} (h : MoveCase s m t) : t.cfg = s.cfg := by
  cases h with
  | pass h => rw [h.frame]
  | load => rw [copyBytes_eq]
  | tick => rw [tickStart_eq]
  | keyDown k => rw [keyDown_eq]
  | reset | keyUp | stop => rfl

/-- Settles O25, by the cases of the step. -/
theorem masksChangeByKeyEventsAlone : Obligations.MasksChangeByKeyEventsAlone := by
  unfold Obligations.MasksChangeByKeyEventsAlone
  refine ⟨fun s t h hr hd hu => ?_, fun s t h => ?_⟩ <;> obtain ⟨m, hm, hcase⟩ := step_cases h
  · exact hcase.masks (move_ne hm hr nofun nofun) (fun k => move_ne hm (hd k) nofun nofun)
      (fun k => move_ne hm (hu k) nofun nofun)
  · exact hcase.cfg

end Sys2Proof.Machine
end

section
/-! PROOFS. The frames of every instruction, from its effect and the single writes it is made of. -/

namespace Sys2Proof.Machine

section
variable {i : Instr} {s t : State}

/-- A field that no write of the instruction changes, and that neither `pc` nor the fault is, is as before. -/
theorem exec_field {α : Type} (f : State → α) (h : exec i s = .next t) (hw : ∀ u v, Write i s u v → f v = f u)
    (hpc : ∀ u a, f (u.setPc a) = f u) (hr : ∀ u c, f (u.raise c) = f u) : f t = f s := by
  rcases exec_cases h with ⟨-, rfl⟩ | ⟨c, -, rfl⟩
  · exact (hpc _ _).trans (effect_field f i s hw)
  · exact (hr _ _).trans (effect_field f i s hw)

/-! ### The fields that some instructions write -/

theorem exec_reg (h : exec i s = .next t) (r : Reg) (hn : ¬ writesReg i r) : t.reg r = s.reg r := by
  refine exec_field (·.reg r) h (fun u v hw => ?_) (fun _ _ => rfl) (fun _ _ => rfl)
  cases hw with
  | reg _ hd => exact reg_setReg_other u _ r _ (by rintro rfl; exact hn hd)
  | _ => rfl

theorem exec_index (h : exec i s = .next t) (h₁ : ∀ nnn, i ≠ .ldIndex nnn) (h₂ : ∀ x, i ≠ .addIndex x)
    (h₃ : ∀ x, i ≠ .ldGlyph x) : t.index = s.index := by
  refine exec_field State.index h (fun u v hw => ?_) (fun _ _ => rfl) (fun _ _ => rfl)
  cases hw with
  | index _ hi =>
    rcases hi with ⟨nnn, hi⟩ | ⟨x, hi⟩ | ⟨x, hi⟩
    · exact absurd hi (h₁ nnn)
    · exact absurd hi (h₂ x)
    · exact absurd hi (h₃ x)
  | _ => rfl

theorem exec_dt (h : exec i s = .next t) (hn : ∀ x, i ≠ .ldToDt x) : t.dt = s.dt := by
  refine exec_field State.dt h (fun u v hw => ?_) (fun _ _ => rfl) (fun _ _ => rfl)
  cases hw with
  | dt _ hi => exact absurd hi (not_exists.mpr hn)
  | _ => rfl

theorem exec_st (h : exec i s = .next t) (hn : ∀ x, i ≠ .ldToSt x) : t.st = s.st := by
  refine exec_field State.st h (fun u v hw => ?_) (fun _ _ => rfl) (fun _ _ => rfl)
  cases hw with
  | st _ hi => exact absurd hi (not_exists.mpr hn)
  | _ => rfl

theorem exec_disp (h : exec i s = .next t) (hn : ∀ x y n, i ≠ .drw x y n) : t.disp = s.disp := by
  refine exec_field State.disp h (fun u v hw => ?_) (fun _ _ => rfl) (fun _ _ => rfl)
  cases hw with
  | cell _ _ _ hi => obtain ⟨x, y, n, hi⟩ := hi; exact absurd hi (hn x y n)
  | _ => rfl

theorem exec_awaitKey (h : exec i s = .next t) (hn : ∀ x, i ≠ .ldKey x) : t.awaitKey = s.awaitKey := by
  refine exec_field State.awaitKey h (fun u v hw => ?_) (fun _ _ => rfl) (fun _ _ => rfl)
  cases hw with
  | await _ hi => exact absurd hi (not_exists.mpr hn)
  | _ => rfl

theorem exec_draws (h : exec i s = .next t) (hn : ∀ x kk, i ≠ .rnd x kk) : t.draws = s.draws := by
  refine exec_field State.draws h (fun u v hw => ?_) (fun _ _ => rfl) (fun _ _ => rfl)
  cases hw with
  | draw hi => obtain ⟨x, kk, hi⟩ := hi; exact absurd hi (hn x kk)
  | _ => rfl

/-- An instruction that has not raised has touched neither the fault nor the tick nor the outputs. -/
theorem exec_unraised (h : exec i s = .next t) (hf : t.fault = none) :
    s.fault = none ∧ t.tick = s.tick ∧ t.outputs = s.outputs := by
  rcases exec_cases h with ⟨-, rfl⟩ | ⟨c, -, rfl⟩
  · rw [effect_frame] at hf ⊢
    exact ⟨hf, rfl, rfl⟩
  · cases hf

end

/-! ### The statements -/

/-- Settles O53: `pc` is at the net line after the effect, or where the effect left it when the fault is taken. -/
theorem programCounterRule : Obligations.ProgramCounterRule := by
  unfold Obligations.ProgramCounterRule
  intro i s t hs h
  rcases exec_cases h with ⟨-, rfl⟩ | ⟨c, -, rfl⟩
  · refine ⟨fun _ => rfl, fun hf => absurd ?_ hf⟩
    rw [effect_frame]
    exact hs
  · exact ⟨nofun, fun _ => effect_pc i s⟩

/-- Settles O54: every write of a register is of a destination. -/
theorem registerFrameOfEveryInstruction : Obligations.RegisterFrameOfEveryInstruction := by
  unfold Obligations.RegisterFrameOfEveryInstruction
  exact fun i s t h => exec_reg h

/-- Settles O56: a field with writers by the writes of the effect, the others by the frame of the instruction. -/
theorem specialStateFrameOfEveryInstruction : Obligations.SpecialStateFrameOfEveryInstruction := by
  unfold Obligations.SpecialStateFrameOfEveryInstruction
  intro i s t h
  refine ⟨exec_index h, exec_dt h, exec_st h, exec_disp h, exec_awaitKey h, exec_draws h,
    ?_, ?_, ?_, ?_, ?_, ?_, ?_, ?_, exec_unraised h⟩
  all_goals rw [exec_frame h]

end Sys2Proof.Machine
end

section
/-! PROOFS. What no instruction reads: the sound timer, the stack, its depth, the display and the pressed mask. Two
states that differ in them alone stay so through every access, so through every instruction. -/

namespace Sys2Proof.Machine

/-- The two states differ at most in what no instruction reads. -/
inductive SeenAlike (s : State) : State → Prop where
  | differ (v : Byte) (stk : Vector Word 256) (d : Fin 257) (g : Display) (m : Word) :
      SeenAlike s { s with st := v, stack := stk, sp := d, disp := g, pressedMask := m }

/-- Two attempts end alike: both done with one value, or both raised with one cause, in states seen alike. -/
inductive EndAlike {α : Type} : Attempt α → Attempt α → Prop where
  | done (a : α) {s t : State} (h : SeenAlike s t) : EndAlike (.done a s) (.done a t)
  | raised (c : Fault) {s t : State} (h : SeenAlike s t) : EndAlike (.raised c s) (.raised c t)

section
variable {s t : State}

/-! ### Accesses -/

theorem memRead_alike (a : Nat) (h : SeenAlike s t) : EndAlike (memRead a s) (memRead a t) := by
  by_cases ha : a < 4096
  · rw [memRead_in a s ha, memRead_in a t ha]
    cases h
    exact .done _ (.differ ..)
  · rw [memRead_out a s (Nat.not_lt.mp ha), memRead_out a t (Nat.not_lt.mp ha)]
    exact .raised _ h

theorem memWrite_alike (a : Nat) (v : Byte) (h : SeenAlike s t) : EndAlike (memWrite a v s) (memWrite a v t) := by
  by_cases ha : a < 4096
  · rw [memWrite_in a v s ha, memWrite_in a v t ha]
    cases h
    exact .done _ (.differ ..)
  · rw [memWrite_out a v s (Nat.not_lt.mp ha), memWrite_out a v t (Nat.not_lt.mp ha)]
    exact .raised _ h

/-- A cell is written by its coordinates alone: what the grid holds is not read (R65). -/
theorem dispWrite_alike (x y : Nat) (b : Bool) (h : SeenAlike s t) :
    EndAlike (dispWrite x y b s) (dispWrite x y b t) := by
  cases h
  unfold dispWrite
  split
  · exact .raised _ (.differ ..)
  · exact .done _ (.differ ..)

theorem andThen_alike {α β : Type} {m n : Attempt α} {f g : α → State → Attempt β} (h : EndAlike m n)
    (hf : ∀ a u v, SeenAlike u v → EndAlike (f a u) (g a v)) : EndAlike (m.andThen f) (n.andThen g) := by
  cases h with
  | done a h => exact hf a _ _ h
  | raised c h => exact .raised c h

theorem forEach_alike (f : Nat → State → Attempt Unit)
    (hf : ∀ k u v, SeenAlike u v → EndAlike (f k u) (f k v)) (l : List Nat) (h : SeenAlike s t) :
    EndAlike (forEach f l s) (forEach f l t) := by
  induction l generalizing s t with
  | nil => exact .done () h
  | cons k l ih => exact andThen_alike (hf k s t h) (fun _ _ _ h => ih h)

theorem indexAddr_alike (k : Nat) (h : SeenAlike s t) : indexAddr t k = indexAddr s k := by cases h; rfl

theorem reg_alike (r : Reg) (h : SeenAlike s t) : t.reg r = s.reg r := by cases h; rfl

theorem drawRow_alike (x0 y0 k : Nat) (h : SeenAlike s t) : EndAlike (drawRow x0 y0 k s) (drawRow x0 y0 k t) := by
  unfold drawRow
  rw [indexAddr_alike k h]
  exact andThen_alike (memRead_alike _ h)
    (fun b _ _ h => forEach_alike _ (fun c _ _ h => dispWrite_alike (x0 + c) (y0 + k) (spriteBit b c) h) _ h)

theorem storeOne_alike (k : Nat) (h : SeenAlike s t) : EndAlike (storeOne k s) (storeOne k t) := by
  unfold storeOne
  rw [indexAddr_alike k h, reg_alike _ h]
  exact memWrite_alike _ _ h

theorem loadOne_alike (k : Nat) (h : SeenAlike s t) : EndAlike (loadOne k s) (loadOne k t) := by
  unfold loadOne
  rw [indexAddr_alike k h]
  refine andThen_alike (memRead_alike _ h) (fun b _ _ h => ?_)
  cases h
  exact .done () (.differ ..)

/-! ### Instructions -/

/-- From states seen alike the effect of an instruction ends alike. -/
theorem effect_alike (i : Instr) (h : SeenAlike s t) : EndAlike (effect i s) (effect i t) := by
  cases i
  case skp | sknp =>
    simp only [effect, reg_alike _ h]
    split
    · exact .raised _ h
    · exact .done () h
  case drw =>
    simp only [effect, reg_alike _ h]
    exact forEach_alike _ (fun k _ _ h => drawRow_alike _ _ k h) _ h
  case ldBcd =>
    simp only [effect, reg_alike _ h, indexAddr_alike _ h]
    exact andThen_alike (memWrite_alike _ _ h) (fun _ _ _ h =>
      andThen_alike (memWrite_alike _ _ h) (fun _ _ _ h => memWrite_alike _ _ h))
  case storeRegs => exact forEach_alike _ (fun k _ _ h => storeOne_alike k h) _ h
  case loadRegs => exact forEach_alike _ (fun k _ _ h => loadOne_alike k h) _ h
  case sys | call | jpV0 => exact .raised _ h
  all_goals
    cases h
    exact .done () (.differ ..)

theorem netPc_alike (i : Instr) (h : SeenAlike s t) : netPc i t = netPc i s := by
  cases h
  cases i <;> rfl

/-- From states seen alike an instruction answers states seen alike. -/
theorem exec_alike {i : Instr} {u : State} (h : SeenAlike s u) (hi : exec i s = .next t) :
    ∃ w, exec i u = .next w ∧ SeenAlike t w := by
  have he := effect_alike i h
  rw [exec_eq] at hi
  rw [exec_eq, netPc_alike i h]
  generalize effect i s = m, effect i u = n at he hi
  cases he with
  | done _ h => cases hi; cases h; exact ⟨_, rfl, .differ ..⟩
  | raised c h => cases hi; cases h; exact ⟨_, rfl, .differ ..⟩

end

/-- Settles O57: the two states are seen alike, so the answers are, and what the statement compares is seen. -/
theorem unreadableStateStaysUnread : Obligations.UnreadableStateStaysUnread := by
  unfold Obligations.UnreadableStateStaysUnread
  intro i s t v stk d g m h
  obtain ⟨u, hu, halike⟩ := exec_alike (.differ v stk d g m) h
  refine ⟨u, hu, ?_⟩
  cases halike
  exact ⟨rfl, rfl, rfl, rfl, rfl, rfl, rfl, rfl⟩

end Sys2Proof.Machine
end

section
/-! PROOFS. The statements about memory: the fetch beyond it, the frame of every instruction, and what `LD B`, `LD [I]`
and `LD Vx, [I]` store and load from `I` on, up to the end of memory and within it. -/

namespace Sys2Proof.Machine

/-- Settles O11: such a step is a fetch, and the fetch takes its fault. -/
theorem fetchBeyondMemoryRaises : Obligations.FetchBeyondMemoryRaises := by
  unfold Obligations.FetchBeyondMemoryRaises
  intro s b h hpc
  exact ⟨_, (step_canDispatch s b h).trans (fetchDispatch_out s (Nat.succ_le_succ hpc)), rfl⟩

/-- Settles O55: every write of memory is of a byte that the instruction stores. -/
theorem memoryFrameOfEveryInstruction : Obligations.MemoryFrameOfEveryInstruction := by
  unfold Obligations.MemoryFrameOfEveryInstruction
  intro i s t a h ha
  refine exec_field (·.byteAt a) h (fun u v hw => ?_) (fun _ _ => rfl) (fun _ _ => rfl)
  cases hw with
  | byte _ hk _ => exact byteAt_setByte_other u _ a _ (ha _ hk)
  | _ => rfl

/-! ### The answer to an effect -/

/-- An instruction whose effect is done answers its state with `pc` at the net line (R25, R238). -/
theorem exec_done {i : Instr} {s u : State} (h : effect i s = .done () u) :
    exec i s = .next (u.setPc (netPc i s)) := by rw [exec_eq, h]; rfl

/-- An instruction whose effect raises answers its state with the fault taken (R240). -/
theorem exec_raised {i : Instr} {s u : State} {c : Fault} (h : effect i s = .raised c u) :
    exec i s = .next (u.raise c) := by rw [exec_eq, h]; rfl

/-! ### Bytes stored and registers loaded from `I` on -/

/-- `t` is `s` with the `n` bytes from `I` on replaced by `v 0`, `v 1`, ..., and nothing else changed. -/
structure Stored (v : Nat → Byte) (s : State) (n : Nat) (t : State) : Prop where
  frame : t = { s with mem := t.mem }
  byteAt (a : Nat) : t.byteAt a =
    if s.index.toNat ≤ a ∧ a < s.index.toNat + n then v (a - s.index.toNat) else s.byteAt a

/-- `t` is `s` with the first `n` registers loaded from `I` on, and nothing else changed. -/
structure Loaded (s : State) (n : Nat) (t : State) : Prop where
  frame : t = { s with regs := t.regs }
  reg (r : Reg) : t.reg r = if r.val < n then s.byteAt (indexAddr s r.val) else s.reg r

section
variable {v : Nat → Byte} {s t : State} {n : Nat}

theorem Stored.byteAt_inside (h : Stored v s n t) {k : Nat} (hk : k < n) : t.byteAt (indexAddr s k) = v k := by
  rw [h.byteAt, indexAddr, if_pos (by omega), Nat.add_sub_cancel_left]

theorem Stored.byteAt_outside (h : Stored v s n t) {a : Nat} (ha : ∀ k < n, a ≠ indexAddr s k) :
    t.byteAt a = s.byteAt a := by
  rw [h.byteAt, if_neg]
  rintro ⟨h₁, h₂⟩
  exact ha (a - s.index.toNat) (by omega) (Nat.add_sub_of_le h₁).symm

theorem stored_zero (v : Nat → Byte) (s : State) : Stored v s 0 s := ⟨rfl, fun a => by rw [if_neg]; omega⟩

/-- With the next byte from `I` on written too, one more is stored. -/
theorem Stored.succ (h : Stored v s n t) : Stored v s (n + 1) (t.setByte (indexAddr s n) (v n)) := by
  refine ⟨by rw [h.frame]; rfl, fun a => ?_⟩
  rw [byteAt_setByte, h.byteAt, indexAddr]
  by_cases ha : a = s.index.toNat + n
  · rw [if_pos ha, if_pos (by omega), ha, Nat.add_sub_cancel_left]
  · rw [if_neg ha]
    exact if_congr (by omega) rfl rfl

theorem Stored.indexAddr_eq (h : Stored v s n t) (k : Nat) : indexAddr t k = indexAddr s k := by rw [h.frame]; rfl

theorem Loaded.indexAddr_eq (h : Loaded s n t) (k : Nat) : indexAddr t k = indexAddr s k := by rw [h.frame]; rfl

/-- A raise after the stores adds the fault alone (R271). -/
theorem Stored.raise_eq (h : Stored v s n t) (c : Fault) : t.raise c =
    { s with mem := (t.raise c).mem, fault := some c, tick := .idle, outputs := .fault c :: s.outputs } := by
  rw [h.frame]; rfl

/-- A raise after the loads adds the fault alone (R271). -/
theorem Loaded.raise_eq (h : Loaded s n t) (c : Fault) : t.raise c =
    { s with regs := (t.raise c).regs, fault := some c, tick := .idle, outputs := .fault c :: s.outputs } := by
  rw [h.frame]; rfl

end

/-! ### The accesses within memory -/

/-- One write of `LD B`: digit `k` of `b` goes to `I + k`, with the `I` of `s` (R196). -/
def digitOne (s : State) (b : Byte) (k : Nat) (t : State) : Attempt Unit :=
  memWrite (indexAddr s k) (BitVec.ofNat 8 (bcdDigit b k)) t

theorem andThen_done_right (m : Attempt Unit) : m.andThen (fun _ t => .done () t) = m := by cases m <;> rfl

/-- `LD B` writes its three digits in turn (R70, R196). -/
theorem effect_ldBcd (x : Reg) (s : State) :
    effect (.ldBcd x) s = forEach (digitOne s (s.reg x)) (List.range 3) s := by
  change _ = forEach (digitOne s (s.reg x)) [0, 1, 2] s
  simp only [forEach_cons, forEach_nil, andThen_done_right]
  rfl

/-- A digit fits in a byte. -/
theorem toNat_bcdDigit (b : Byte) (k : Nat) : (BitVec.ofNat 8 (bcdDigit b k)).toNat = bcdDigit b k := by
  have hb := b.isLt
  have hlt : bcdDigit b k < 256 := by unfold bcdDigit; split <;> omega
  rw [BitVec.toNat_ofNat, Nat.mod_eq_of_lt hlt]

section
variable {s : State} {n : Nat} (h : ∀ k < n, indexAddr s k < 4096)
include h

theorem digitOne_inside (b : Byte) : ∃ t, forEach (digitOne s b) (List.range n) s = .done () t ∧
    Stored (fun k => BitVec.ofNat 8 (bcdDigit b k)) s n t := by
  induction n with
  | zero => exact ⟨s, rfl, stored_zero _ s⟩
  | succ n ih =>
    obtain ⟨t, ht, hst⟩ := ih (fun k hk => h k (Nat.lt_succ_of_lt hk))
    refine ⟨_, ?_, hst.succ⟩
    rw [forEach_range_succ, ht, andThen_done, digitOne, memWrite_in _ _ _ (h n n.lt_succ_self)]

/-- `storeOne_range` without its bound on `I` when nothing is stored. -/
theorem storeOne_inside (hn : n ≤ 16) : ∃ t, forEach storeOne (List.range n) s = .done () t ∧
    Stored (fun k => s.reg (Fin.ofNat 16 k)) s n t := by
  cases n with
  | zero => exact ⟨s, rfl, stored_zero _ s⟩
  | succ n =>
    obtain ⟨t, ht, hframe, hbytes⟩ := storeOne_range s (n + 1) hn (h n n.lt_succ_self)
    exact ⟨t, ht, hframe, hbytes⟩

/-- `loadOne_range` without its bound on `I` when nothing is loaded. -/
theorem loadOne_inside (hn : n ≤ 16) : ∃ t, forEach loadOne (List.range n) s = .done () t ∧ Loaded s n t := by
  cases n with
  | zero => exact ⟨s, rfl, rfl, fun _ => rfl⟩
  | succ n =>
    obtain ⟨t, ht, hframe, hregs⟩ := loadOne_range s (n + 1) hn (h n n.lt_succ_self)
    exact ⟨t, ht, hframe, hregs⟩

end

/-! ### The end of memory -/

/-- How many bytes from `I` on are in memory. -/
def room (s : State) : Nat := 4096 - s.index.toNat

theorem lt_room {s : State} {k : Nat} : k < room s ↔ indexAddr s k < 4096 := by
  unfold room indexAddr; omega

theorem room_le {s : State} {n : Nat} : room s ≤ n ↔ 4096 ≤ indexAddr s n := by
  unfold room indexAddr; omega

/-- The first address from `I` on that is beyond memory. -/
theorem indexAddr_room (s : State) : indexAddr s (room s) = max 4096 (indexAddr s 0) := by
  unfold room indexAddr; omega

/-- Accesses from `I` on, the last of them beyond memory, end at the first that is: those before it have been done and
those after it have not (R63, R70). -/
theorem forEach_beyond {f : Nat → State → Attempt Unit} {P : Nat → State → Prop} {s : State} {n : Nat}
    (hn : 4096 ≤ indexAddr s n)
    (hin : ∀ k ≤ n, (∀ j < k, indexAddr s j < 4096) → ∃ t, forEach f (List.range k) s = .done () t ∧ P k t)
    (hout : ∀ k t, P k t → 4096 ≤ indexAddr s k → f k t = .raised (.outOfBoundsMemory (indexAddr s k)) t) :
    ∃ t, forEach f (List.range (n + 1)) s = .raised (.outOfBoundsMemory (max 4096 (indexAddr s 0))) t ∧
      P (room s) t := by
  have hroom : room s ≤ n := room_le.mpr hn
  obtain ⟨t, ht, hP⟩ := hin (room s) hroom (fun j hj => lt_room.mp hj)
  have hraise := hout (room s) t hP (room_le.mp (Nat.le_refl _))
  rw [indexAddr_room] at hraise
  exact ⟨t, forEach_range_raised f _ _ (Nat.lt_succ_of_le hroom) s t t _ ht hraise, hP⟩

section
variable {s : State}

theorem digitOne_beyond (b : Byte) (h : 4096 ≤ indexAddr s 2) :
    ∃ t, forEach (digitOne s b) (List.range 3) s = .raised (.outOfBoundsMemory (max 4096 (indexAddr s 0))) t ∧
      Stored (fun k => BitVec.ofNat 8 (bcdDigit b k)) s (room s) t :=
  forEach_beyond h (fun _ _ hk => digitOne_inside hk b) (fun _ t _ hk => memWrite_out _ _ t hk)

theorem storeOne_beyond (x : Reg) (h : 4096 ≤ indexAddr s x.val) :
    ∃ t, forEach storeOne (List.range (x.val + 1)) s = .raised (.outOfBoundsMemory (max 4096 (indexAddr s 0))) t ∧
      Stored (fun k => s.reg (Fin.ofNat 16 k)) s (room s) t := by
  refine forEach_beyond h (fun k hx hk => storeOne_inside hk (by omega)) (fun k t ht hk => ?_)
  rw [storeOne, ht.indexAddr_eq, memWrite_out _ _ t hk]

theorem loadOne_beyond (x : Reg) (h : 4096 ≤ indexAddr s x.val) :
    ∃ t, forEach loadOne (List.range (x.val + 1)) s = .raised (.outOfBoundsMemory (max 4096 (indexAddr s 0))) t ∧
      Loaded s (room s) t := by
  refine forEach_beyond h (fun k hx hk => loadOne_inside hk (by omega)) (fun k t ht hk => ?_)
  rw [loadOne, ht.indexAddr_eq, memRead_out _ t hk, andThen_raised]

/-- With memory stored up to its end, what is no destination or is beyond memory reads as before. -/
theorem Stored.byteAt_beyond {v : Nat → Byte} {t : State} {n a : Nat} (h : Stored v s (room s) t)
    (hn : 4096 ≤ indexAddr s n) (ha : (∀ k ≤ n, a ≠ indexAddr s k) ∨ 4096 ≤ a) : t.byteAt a = s.byteAt a := by
  refine h.byteAt_outside fun k hk => ?_
  rcases ha with ha | ha
  · exact ha k (Nat.le_trans (Nat.le_of_lt hk) (room_le.mpr hn))
  · exact Nat.ne_of_gt (Nat.lt_of_lt_of_le (lt_room.mp hk) ha)

end

/-- Settles O49: each of the three is a sequence of accesses from `I` on, which ends at the first beyond memory. -/
theorem bulkAccessBeyondMemoryRaises : Obligations.BulkAccessBeyondMemoryRaises := by
  unfold Obligations.BulkAccessBeyondMemoryRaises
  refine fun x s => ⟨fun h => ?bcd, fun h => ?store, fun h => ?load⟩
  case bcd =>
    obtain ⟨u, hu, hst⟩ := digitOne_beyond (s.reg x) h
    have hdigit (k : Nat) (hk : indexAddr s k < 4096) : (u.byteAt (indexAddr s k)).toNat = bcdDigit (s.reg x) k := by
      rw [hst.byteAt_inside (lt_room.mpr hk), toNat_bcdDigit]
    exact ⟨_, _, exec_raised ((effect_ldBcd x s).trans hu), rfl, hst.raise_eq _, hdigit 0, hdigit 1,
      fun a ha => hst.byteAt_beyond h (ha.imp_left fun hne k hk => hne k (Nat.lt_succ_of_le hk))⟩
  case store =>
    obtain ⟨u, hu, hst⟩ := storeOne_beyond x h
    refine ⟨_, _, exec_raised hu, rfl, hst.raise_eq _, fun i _ hi => ?_,
      fun a ha => hst.byteAt_beyond h (ha.imp_left fun hne k hk => hne ⟨k, by omega⟩ hk)⟩
    have hbyte := hst.byteAt_inside (lt_room.mpr hi)
    rwa [Fin.ofNat_val_eq_self] at hbyte
  case load =>
    obtain ⟨u, hu, hld⟩ := loadOne_beyond x h
    refine ⟨_, _, exec_raised hu, rfl, hld.raise_eq _, fun i _ hi => ?_, fun r hr => ?_⟩
    · exact (hld.reg i).trans (if_pos (lt_room.mpr hi))
    · refine (hld.reg r).trans (if_neg fun hlt => hr ⟨?_, lt_room.mp hlt⟩)
      exact Nat.le_trans (Nat.le_of_lt hlt) (room_le.mpr h)

/-! ### Coherence of stores, reads and fetches -/

/-- Addresses from `I` on are in memory up to the last that is. -/
theorem indexAddr_lt_of_last {s : State} {n : Nat} (h : indexAddr s n < 4096) (k : Nat) (hk : k < n + 1) :
    indexAddr s k < 4096 := Nat.lt_of_le_of_lt (Nat.add_le_add_left (Nat.le_of_lt_succ hk) _) h

/-- A fetch, wherever it is, sees all that is stored (R74). -/
theorem Stored.fetchSees {v : Nat → Byte} {byte : Nat → Nat} {s t : State} {n : Nat} (h : Stored v s (n + 1) t)
    (hv : ∀ k, (v k).toNat = byte k) (a p : Word) (hp : p.toNat + 1 < 4096) :
    FetchSees (t.setPc a) p n (indexAddr s) byte :=
  fetchSees_of_bytes _ p n _ _ hp fun k hk => by
    rw [setPc_byteAt, h.byteAt_inside (Nat.lt_succ_of_le hk), hv]

/-- Settles O58: reads after a write by the laws of memory, the fetch by the bytes that both instructions have stored. -/
theorem storedBytesAreReadAndFetched : Obligations.StoredBytesAreReadAndFetched := by
  unfold Obligations.StoredBytesAreReadAndFetched
  refine ⟨fun s a v ha => ?write, fun s a v ha => ⟨memWrite_out a v s ha, memRead_out a s ha⟩,
    fun x s h => ?store, fun x s h => ?bcd⟩
  case write =>
    refine ⟨s.setByte a v, memWrite_in a v s ha, ?_, fun b hb hne => ?_⟩
    · rw [memRead_in a _ ha, byteAt_setByte_same]
    · rw [memRead_in b _ hb, byteAt_setByte_other s a b v hne]
  case store =>
    obtain ⟨u, hu, hst⟩ := storeOne_inside (indexAddr_lt_of_last h) x.isLt
    exact ⟨_, exec_done hu, hst.fetchSees (fun _ => rfl) _⟩
  case bcd =>
    obtain ⟨u, hu, hst⟩ := digitOne_inside (indexAddr_lt_of_last h) (s.reg x)
    exact ⟨_, exec_done ((effect_ldBcd x s).trans hu), hst.fetchSees (toNat_bcdDigit _) _⟩

end Sys2Proof.Machine
end

section
/-! PROOFS. The decoder, the encoder and the opcode map (R90 to R97): the decoder and the encoder are inverse to each
other, every word of a row is the word of the row's instruction with the operands of that word, and the unlisted
sub-cases are what is left over. -/

namespace Sys2Proof.Machine

/-! ### From an instruction to its word and back -/

/-- The decoder reads from the word of an instruction that instruction: the family decides, and in families 8, E and F
the low nibble or the low byte that the encoder has put there (R94, R95). -/
theorem decodeWord_encode (i : Instr) : decodeWord (encode i) = .ok i := by
  cases i
  case ldReg | orReg | andReg | xorReg | addReg | subReg | shr | subn | shl => simp [encode, decodeWord, decodeAlu]
  case skp | sknp => simp [encode, decodeWord, decodeKeySkip]
  case ldFromDt | ldKey | ldToDt | ldToSt | addIndex | ldGlyph | ldBcd | storeRegs | loadRegs =>
    simp [encode, decodeWord, decodeMisc]
  all_goals simp [encode, decodeWord]

/-- Settles O1: the two bytes make the instruction's word again, and its word decodes to it. -/
theorem decodeOfEncodeIsIdentity : Obligations.DecodeOfEncodeIsIdentity := by
  unfold Obligations.DecodeOfEncodeIsIdentity
  intro i rest _
  rw [encodeBytes, bytesOfWord, List.cons_append, List.cons_append, List.nil_append]
  simp only [decode, wordOfBytes_bytes, decodeWord_encode]

/-! ### From a word to its instruction and back -/

/-- An encoding of format `XY` with the word's own registers and its low nibble is the word. -/
theorem encodeXYN_field_nibble (w : Word) (f n : Nibble) (hf : (fieldFam w).toNat = f.toNat)
    (hn : (fieldN w).toNat = n.toNat) : encodeXYN f (fieldX w) (fieldY w) n = w := by
  rw [← BitVec.eq_of_toNat_eq hn, encodeXYN_field w f hf]

/-- An encoding of format `XS` with the word's own register and its low byte is the word. -/
theorem encodeXK_field_byte (w : Word) (f : Nibble) (k : Byte) (hf : (fieldFam w).toNat = f.toNat)
    (hk : (fieldKK w).toNat = k.toNat) : encodeXK f (fieldX w) k = w := by
  rw [← BitVec.eq_of_toNat_eq hk, encodeXK_field w f hf]

theorem encode_of_decodeAlu {w : Word} {i : Instr} (hf : (fieldFam w).toNat = 8) (h : decodeAlu w = .ok i) :
    encode i = w := by
  unfold decodeAlu at h
  split at h <;> cases h <;> exact encodeXYN_field_nibble w _ _ hf ‹_›

theorem encode_of_decodeKeySkip {w : Word} {i : Instr} (hf : (fieldFam w).toNat = 14) (h : decodeKeySkip w = .ok i) :
    encode i = w := by
  unfold decodeKeySkip at h
  split at h <;> cases h <;> exact encodeXK_field_byte w _ _ hf ‹_›

theorem encode_of_decodeMisc {w : Word} {i : Instr} (hf : (fieldFam w).toNat = 15) (h : decodeMisc w = .ok i) :
    encode i = w := by
  unfold decodeMisc at h
  split at h <;> cases h <;> exact encodeXK_field_byte w _ _ hf ‹_›

/-- A word that decodes is the word of its instruction, family by family (R95). -/
theorem encode_of_decodeWord {w : Word} {i : Instr} (h : decodeWord w = .ok i) : encode i = w := by
  unfold decodeWord at h
  split at h
  case h_9 hf => exact encode_of_decodeAlu hf h
  case h_15 hf => exact encode_of_decodeKeySkip hf h
  case h_16 hf => exact encode_of_decodeMisc hf h
  case h_17 => cases h
  all_goals cases h
  case h_1 hf | h_2 hf | h_3 hf | h_11 hf | h_12 hf => exact encodeA_field w _ hf
  case h_4 hf | h_5 hf | h_7 hf | h_8 hf | h_13 hf => exact encodeXK_field w _ hf
  case h_6 hf | h_10 hf | h_14 hf => exact encodeXYN_field w _ hf

/-- Settles O2, from the fields of the word in the family that the decoder took. -/
theorem encodeOfDecodeIsIdentity : Obligations.EncodeOfDecodeIsIdentity := by
  unfold Obligations.EncodeOfDecodeIsIdentity
  exact fun _ _ => encode_of_decodeWord

/-! ### The rows of the opcode map -/

/-- The instruction of the same row that has the operands of `w` (R92). -/
def withOperandsOf (w : Word) : Instr → Instr
  | .sys _ => .sys (opNNN w)
  | .jp _ => .jp (opNNN w)
  | .call _ => .call (opNNN w)
  | .seImm _ _ => .seImm (opX w) (opKK w)
  | .sneImm _ _ => .sneImm (opX w) (opKK w)
  | .seReg _ _ _ => .seReg (opX w) (opY w) (opN w)
  | .ldImm _ _ => .ldImm (opX w) (opKK w)
  | .addImm _ _ => .addImm (opX w) (opKK w)
  | .ldReg _ _ => .ldReg (opX w) (opY w)
  | .orReg _ _ => .orReg (opX w) (opY w)
  | .andReg _ _ => .andReg (opX w) (opY w)
  | .xorReg _ _ => .xorReg (opX w) (opY w)
  | .addReg _ _ => .addReg (opX w) (opY w)
  | .subReg _ _ => .subReg (opX w) (opY w)
  | .shr _ _ => .shr (opX w) (opY w)
  | .subn _ _ => .subn (opX w) (opY w)
  | .shl _ _ => .shl (opX w) (opY w)
  | .sneReg _ _ _ => .sneReg (opX w) (opY w) (opN w)
  | .ldIndex _ => .ldIndex (opNNN w)
  | .jpV0 _ => .jpV0 (opNNN w)
  | .rnd _ _ => .rnd (opX w) (opKK w)
  | .drw _ _ _ => .drw (opX w) (opY w) (opN w)
  | .skp _ => .skp (opX w)
  | .sknp _ => .sknp (opX w)
  | .ldFromDt _ => .ldFromDt (opX w)
  | .ldKey _ => .ldKey (opX w)
  | .ldToDt _ => .ldToDt (opX w)
  | .ldToSt _ => .ldToSt (opX w)
  | .addIndex _ => .addIndex (opX w)
  | .ldGlyph _ => .ldGlyph (opX w)
  | .ldBcd _ => .ldBcd (opX w)
  | .storeRegs _ => .storeRegs (opX w)
  | .loadRegs _ => .loadRegs (opX w)

/-- A word of a sub-opcode row is the encoding of its own registers with the sub-opcode. -/
theorem encodeXYN_of_mask {w p : Word} {f n : Nibble} (hp : p.toNat = f.toNat * 4096 + n.toNat)
    (h : w &&& 0xF00F = p) : encodeXYN f (fieldX w) (fieldY w) n = w := by
  obtain ⟨hf, hn⟩ := famNibble_of_mask w p _ _ n.isLt hp h
  exact encodeXYN_field_nibble w f n hf hn

/-- A word of a selector row is the encoding of its own register with the selector. -/
theorem encodeXK_of_mask {w p : Word} {f : Nibble} {k : Byte} (hp : p.toNat = f.toNat * 4096 + k.toNat)
    (h : w &&& 0xF0FF = p) : encodeXK f (fieldX w) k = w := by
  obtain ⟨hf, hk⟩ := famByte_of_mask w p _ _ k.isLt hp h
  exact encodeXK_field_byte w f k hf hk

theorem rowOf_withOperandsOf (w : Word) (i : Instr) : rowOf (withOperandsOf w i) = rowOf i := by cases i <;> rfl

/-- A word of the row of an instruction is the word of that instruction with the operands of the word (R94, R95). -/
theorem encode_withOperandsOf {w : Word} (i : Instr) (h : w &&& (rowOf i).mask = (rowOf i).pattern) :
    encode (withOperandsOf w i) = w := by
  cases i <;>
    simp only [withOperandsOf, ← fieldX_eq, ← fieldY_eq, ← fieldN_eq, ← fieldKK_eq, ← fieldNNN_eq]
  case sys | jp | call | ldIndex | jpV0 => exact encodeA_field w _ (fam_of_mask w _ _ (by rfl) h)
  case seImm | sneImm | ldImm | addImm | rnd => exact encodeXK_field w _ (fam_of_mask w _ _ (by rfl) h)
  case seReg | sneReg | drw => exact encodeXYN_field w _ (fam_of_mask w _ _ (by rfl) h)
  case ldReg | orReg | andReg | xorReg | addReg | subReg | shr | subn | shl => exact encodeXYN_of_mask rfl h
  all_goals exact encodeXK_of_mask rfl h

/-- Every word of an instruction's row decodes to that instruction with the operands of the word (R95). -/
theorem encodes_rowOf (i : Instr) : Encodes (rowOf i).mask (rowOf i).pattern (withOperandsOf · i) := fun w h =>
  calc decodeWord w = decodeWord (encode (withOperandsOf w i)) := by rw [encode_withOperandsOf i h]
    _ = .ok (withOperandsOf w i) := decodeWord_encode _

/-- The word of an instruction is of its row (R95). -/
theorem isOf_rowOf_encode (i : Instr) : (rowOf i).isOf (encode i) = true := by
  cases i
  case sys | jp | call | ldIndex | jpV0 => exact Laws.encodeA_isOf _ _ _ rfl
  case seImm | sneImm | ldImm | addImm | rnd => exact Laws.encodeXK_isOf _ _ _ _ rfl
  case seReg | sneReg | drw => exact Laws.encodeXYN_isOf _ _ _ _ _ rfl
  case ldReg | orReg | andReg | xorReg | addReg | subReg | shr | subn | shl =>
    exact Laws.encodeXY_isOf _ _ _ _ _ rfl
  all_goals exact Laws.encodeXS_isOf _ _ _ _ rfl

theorem rowOf_mem_opcodeRows (i : Instr) : rowOf i ∈ opcodeRows := by
  cases i <;> simp [rowOf, opcodeRows, opcodeRowsLow, opcodeRowsAlu, opcodeRowsHigh, opcodeRowsSelector]

/-- The pattern of a row, taken as a word, decodes to an instruction of the row. -/
theorem decodeWord_pattern : ∀ r ∈ opcodeRows, (decodeWord r.pattern).toOption.map rowOf = some r := by decide

/-- Every row of the opcode map is the row of an instruction. -/
theorem exists_rowOf_eq {r : OpcodeRow} (h : r ∈ opcodeRows) : ∃ i, rowOf i = r := by
  obtain ⟨i, -, hi⟩ := Option.map_eq_some_iff.mp (decodeWord_pattern r h)
  exact ⟨i, hi⟩

/-- A word of a row decodes to an instruction of the row. -/
theorem decodeWord_of_isOf {w : Word} {r : OpcodeRow} (hr : r ∈ opcodeRows) (h : r.isOf w = true) :
    ∃ i, decodeWord w = .ok i ∧ rowOf i = r := by
  obtain ⟨i, rfl⟩ := exists_rowOf_eq hr
  exact ⟨withOperandsOf w i, encodes_rowOf i w (beq_iff_eq.mp h), rowOf_withOperandsOf w i⟩

/-- A word that decodes is of the row of its instruction. -/
theorem isOf_of_decodeWord {w : Word} {i : Instr} (h : decodeWord w = .ok i) : (rowOf i).isOf w = true := by
  rw [← encode_of_decodeWord h]; exact isOf_rowOf_encode i

/-- Settles O3: a word of a row is the word of an instruction of the row, and a word that decodes is the word of its
instruction. -/
theorem opcodeRowsAgreeWithDecoder : Obligations.OpcodeRowsAgreeWithDecoder := by
  unfold Obligations.OpcodeRowsAgreeWithDecoder
  exact ⟨fun _ _ => decodeWord_of_isOf, fun _ i h => ⟨rowOf_mem_opcodeRows i, isOf_of_decodeWord h⟩⟩

/-! ### The unlisted sub-cases -/

theorem decodeAlu_unlisted_iff (w : Word) :
    decodeAlu w = .error (.unlisted w) ↔ (fieldN w).toNat ∈ [8, 9, 10, 11, 12, 13, 15] := by
  have hn := (fieldN w).isLt
  unfold decodeAlu
  split
  case h_10 =>
    simp only [imp_false, List.mem_cons, List.not_mem_nil, or_false, true_iff] at *
    omega
  all_goals simp [*]

theorem decodeKeySkip_unlisted_iff (w : Word) :
    decodeKeySkip w = .error (.unlisted w) ↔ (fieldKK w).toNat ∉ [0x9E, 0xA1] := by
  unfold decodeKeySkip
  split <;> simp_all

theorem decodeMisc_unlisted_iff (w : Word) :
    decodeMisc w = .error (.unlisted w) ↔
      (fieldKK w).toNat ∉ [0x07, 0x0A, 0x15, 0x18, 0x1E, 0x29, 0x33, 0x55, 0x65] := by
  unfold decodeMisc
  split <;> simp_all

/-- The decoder rejects as unlisted exactly the sub-cases of families 8, E and F that no row has (R97). -/
theorem decodeWord_unlisted_iff (w : Word) : decodeWord w = .error (.unlisted w) ↔ IsUnlisted w := by
  rw [IsUnlisted, ← fieldFam_toNat, ← fieldN_toNat, ← fieldKK_toNat]
  unfold decodeWord
  split
  case h_9 hf => simp [hf, decodeAlu_unlisted_iff]
  case h_15 hf => simp [hf, decodeKeySkip_unlisted_iff]
  case h_16 hf => simp [hf, decodeMisc_unlisted_iff]
  case h_17 => simp_all
  all_goals simp [*]

/-- Settles O5, family by family; for its family no word is rejected. -/
theorem exactlyTheUnlistedWordsAreRejected : Obligations.ExactlyTheUnlistedWordsAreRejected := by
  unfold Obligations.ExactlyTheUnlistedWordsAreRejected
  exact ⟨decodeWord_unlisted_iff, fun _ _ => decodeWord_error⟩

/-- Two rows that match one word have equal patterns under the mask of both. -/
theorem pattern_and_mask_eq {w : Word} {r q : OpcodeRow} (hr : r.isOf w = true) (hq : q.isOf w = true) :
    r.pattern &&& q.mask = q.pattern &&& r.mask := by
  rw [← beq_iff_eq.mp hr, ← beq_iff_eq.mp hq, BitVec.and_assoc, BitVec.and_assoc, BitVec.and_comm r.mask]

/-- Different rows differ under the mask of both (R96). -/
theorem opcodeRows_apart :
    ∀ r ∈ opcodeRows, ∀ q ∈ opcodeRows, r.pattern &&& q.mask = q.pattern &&& r.mask → r = q := by decide

/-- A word is of no row exactly when it is unlisted: otherwise it decodes, and a word that decodes is of a row. -/
theorem isOf_none_iff (w : Word) : (∀ r ∈ opcodeRows, r.isOf w = false) ↔ IsUnlisted w := by
  rw [← decodeWord_unlisted_iff]
  constructor
  · intro h
    cases hd : decodeWord w with
    | error e => rw [decodeWord_error hd]
    | ok i => exact absurd (isOf_of_decodeWord hd) (by simp [h _ (rowOf_mem_opcodeRows i)])
  · intro h r hr
    by_contra hw
    obtain ⟨i, hi, -⟩ := decodeWord_of_isOf hr (Bool.eq_true_of_not_eq_false hw)
    rw [h] at hi; cases hi

/-- Settles O4: by the masks, and by what the decoder rejects. -/
theorem opcodeRowsNeverOverlap : Obligations.OpcodeRowsNeverOverlap := by
  unfold Obligations.OpcodeRowsNeverOverlap
  exact ⟨fun _ r q hr hq h h' => opcodeRows_apart r hr q hq (pattern_and_mask_eq h h'), isOf_none_iff⟩

/-- Settles O6: the decoder evaluated on these words. -/
theorem writtenOutWordsDecode : Obligations.WrittenOutWordsDecode := by
  unfold Obligations.WrittenOutWordsDecode
  decide

end Sys2Proof.Machine
end

section
/-! PROOFS. The dispatch of an unlisted word, the skips on two registers, and the answer of every instruction. -/

namespace Sys2Proof.Machine

/-- Settles O10: such a step dispatches the word to its fault, and nothing is charged after a fault. -/
theorem unlistedWordRaisesUnimplemented : Obligations.UnlistedWordRaisesUnimplemented := by
  unfold Obligations.UnlistedWordRaisesUnimplemented
  intro s b h hpc hw
  refine ⟨_, ?step, rfl⟩
  rw [step_canDispatch s b h, fetchDispatch_in s hpc, dispatchWord_unlisted _ s ((decodeWord_unlisted_iff _).mpr hw),
    chargeOutcome_next, charge_idle _ (raise_tick _ _)]
  rfl

/-- An instruction that is a skip test and nothing else writes `pc` alone: 4 more when the test holds, else 2 (R125). -/
theorem exec_skip {i : Instr} {s : State} {c : Bool} (hi : effect i s = .done () s) (hc : skips i s = some c) :
    exec i s = .next (s.setPc (if c then s.pc + 4 else s.pc + 2)) := by
  rw [exec_done hi, netPc_skip hc]

/-- The same with the test told by propositions: `P` where it holds, `Q` where it does not. -/
theorem exec_skip_spec {i : Instr} {s : State} {c : Bool} {P Q : Prop} (hi : effect i s = .done () s)
    (hc : skips i s = some c) (hP : P → c = true) (hQ : Q → c = false) :
    ∃ t, exec i s = .next t ∧ OnlyPc s t ∧ (P → t.pc = s.pc + 4) ∧ (Q → t.pc = s.pc + 2) :=
  ⟨_, exec_skip hi hc, rfl, fun h => by rw [hP h]; rfl, fun h => by rw [hQ h]; rfl⟩

/-- Settles O29: both are skip tests of their registers, and their words by the rows of families 5 and 9. -/
theorem skipsOnTwoRegisters : Obligations.SkipsOnTwoRegisters := by
  unfold Obligations.SkipsOnTwoRegisters
  refine ⟨fun x y ign s => exec_skip_spec rfl rfl ?_ ?_, fun x y ign s => exec_skip_spec rfl rfl ?_ ?_,
    encodes_rowOf (.seReg 0 0 0), encodes_rowOf (.sneReg 0 0 0)⟩
  all_goals simp [BitVec.toNat_inj]

/-- Settles O51: an effect that is done is followed by the net line, one that raises by the fault. -/
theorem everyInstructionAnswersANextState : Obligations.EveryInstructionAnswersANextState := by
  unfold Obligations.EveryInstructionAnswersANextState
  intro i s
  cases h : effect i s with
  | done _ u => exact ⟨_, exec_done h⟩
  | raised c u => exact ⟨_, exec_raised h⟩

end Sys2Proof.Machine
end

section
/-! PROOFS. The jump and the skips on a constant (`spec/40_jump_and_skip.md` R120 to R122). -/

namespace Sys2Proof.Machine

/-! ### The jump -/

/-- The address operand widened to `pc` is the same number, at most 4095 (R93). -/
@[simp] theorem addrOperand_toNat (nnn : Addr12) : (addrOperand nnn).toNat = nnn.toNat :=
  BitVec.toNat_setWidth_of_le (by decide)

/-- `JP` writes `pc` alone: it is rerouted, and nothing is added (R120). -/
theorem exec_jp (nnn : Addr12) (s : State) : exec (.jp nnn) s = .next (s.setPc (addrOperand nnn)) := by
  rw [exec_done rfl, netPc_jp]

/-- At the last address of memory the word's low byte is already out of memory (R63, R237). -/
theorem fetch_at_last (s : State) (h : s.pc.toNat = 4095) : fetch s = .raised (.outOfBoundsMemory 4096) s := by
  rw [fetch_out s (by rw [h]), h]

/-- Settles O26: the jump as one write of `pc`, which leaves the tick to be charged and reaches 4095; and its words by
the row of family 1. -/
theorem jumpGoesToItsAddress : Obligations.JumpGoesToItsAddress := by
  unfold Obligations.JumpGoesToItsAddress
  refine ⟨fun nnn s => ⟨_, exec_jp nnn s, addrOperand_toNat nnn, rfl, ?cost, ?last⟩, encodes_rowOf (.jp 0)⟩
  case cost =>
    intro b hb
    rw [charge_looping _ b ((setPc_tick s _).trans hb), setTick_tick]
  case last =>
    rintro rfl
    exact fetch_at_last _ rfl

/-! ### The skips on a constant -/

/-- Settles O27: a skip test of its register, and its words by the row of family 3. -/
theorem skipIfEqualConstant : Obligations.SkipIfEqualConstant := by
  unfold Obligations.SkipIfEqualConstant
  refine ⟨fun x kk s => exec_skip_spec rfl rfl ?equal ?different, encodes_rowOf (.seImm 0 0)⟩
  case equal => exact fun h => beq_iff_eq.mpr (BitVec.eq_of_toNat_eq h)
  case different => exact fun h => beq_false_of_ne (ne_of_apply_ne BitVec.toNat h)

/-- Settles O28: the opposite skip test, and its words by the row of family 4. -/
theorem skipIfNotEqualConstant : Obligations.SkipIfNotEqualConstant := by
  unfold Obligations.SkipIfNotEqualConstant
  refine ⟨fun x kk s => exec_skip_spec rfl rfl ?different ?equal, encodes_rowOf (.sneImm 0 0)⟩
  case different => exact fun h => bne_iff_ne.mpr (ne_of_apply_ne BitVec.toNat h)
  case equal => exact fun h => bne_eq_false_iff_eq.mpr (BitVec.eq_of_toNat_eq h)

end Sys2Proof.Machine
end

section
/-! PROOFS. The writes of one register, and the constant operations (`spec/41_constant_ops.md` R130, R131). -/

namespace Sys2Proof.Machine

/-- An instruction whose one effect is to give `v` to `V[x]`, and that does not reroute `pc`: it writes that register and
`pc`, and no flag. -/
theorem exec_setReg_spec {i : Instr} {s : State} {x : Reg} {v : Byte} (he : effect i s = .done () (s.setReg x v))
    (hpc : netPc i s = s.pc + 2) :
    ∃ t, exec i s = .next t ∧ t.reg x = v ∧ RegsKept s t (· = x) ∧ t.pc = s.pc + 2 ∧ OnlyRegsPc s t :=
  ⟨_, exec_done he, reg_setReg_same s x v, fun r hr => reg_setReg_other s x r v hr, hpc, rfl⟩

/-- The 8-bit sum is the sum modulo 256. -/
@[simp] theorem addResult_toNat (a b : Byte) : (addResult a b).toNat = (a.toNat + b.toNat) % 256 :=
  BitVec.toNat_ofNat _ _

/-- Settles O30: one write of its register, and its words by the row of family 6. -/
theorem setRegisterToConstant : Obligations.SetRegisterToConstant := by
  unfold Obligations.SetRegisterToConstant
  exact ⟨fun x kk s => exec_setReg_spec rfl rfl, encodes_rowOf (.ldImm 0 0)⟩

/-- Settles O31: one write of its register with the 8-bit sum, and its words by the row of family 7. -/
theorem addConstantWrapsWithoutFlag : Obligations.AddConstantWrapsWithoutFlag := by
  unfold Obligations.AddConstantWrapsWithoutFlag
  refine ⟨fun x kk s => ?_, encodes_rowOf (.addImm 0 0)⟩
  obtain ⟨t, hexec, hx, hframe⟩ := exec_setReg_spec (i := .addImm x kk) (s := s) rfl rfl
  exact ⟨t, hexec, by rw [hx, addResult_toNat], hframe⟩

end Sys2Proof.Machine
end

section
/-! PROOFS. The register-to-register ALU (`spec/42_alu.md` R140 to R150): the copy and the bitwise operations as writes
of one register, the arithmetic and the shifts as writes of a result and then the flag. -/

namespace Sys2Proof.Machine

/-! ### The operations without a flag -/

/-- Settles O32: one write of its register, and its words by the row of `8xy0`. -/
theorem copyRegister : Obligations.CopyRegister := by
  unfold Obligations.CopyRegister
  exact ⟨fun x y s => exec_setReg_spec rfl rfl, encodes_rowOf (.ldReg 0 0)⟩

/-- An instruction whose one effect is to give `V[x]` a byte, told bit by bit. -/
theorem exec_setReg_bits {i : Instr} {s : State} {x : Reg} {v : Byte} {bit : Nat → Bool}
    (he : effect i s = .done () (s.setReg x v)) (hpc : netPc i s = s.pc + 2) (hv : ∀ k, v.getLsbD k = bit k) :
    ∃ t, exec i s = .next t ∧ (∀ k < 8, (t.reg x).getLsbD k = bit k) ∧ RegsKept s t (· = x) ∧ t.pc = s.pc + 2 ∧
      OnlyRegsPc s t := by
  obtain ⟨t, hexec, hx, hframe⟩ := exec_setReg_spec he hpc
  exact ⟨t, hexec, fun k _ => by rw [hx, hv], hframe⟩

/-- Settles O33: each is one write of its register with the bits of the operation, and its words by its row. -/
theorem logicLeavesTheFlagAlone : Obligations.LogicLeavesTheFlagAlone := by
  unfold Obligations.LogicLeavesTheFlagAlone
  exact ⟨fun x y s => exec_setReg_bits rfl rfl fun _ => BitVec.getLsbD_or,
    fun x y s => exec_setReg_bits rfl rfl fun _ => BitVec.getLsbD_and,
    fun x y s => exec_setReg_bits rfl rfl fun _ => BitVec.getLsbD_xor,
    encodes_rowOf (.orReg 0 0), encodes_rowOf (.andReg 0 0), encodes_rowOf (.xorReg 0 0)⟩

/-! ### The operations that write the flag last -/

/-- An instruction whose one effect is to give `u` to `V[x]` and then `v` to the flag, and that does not reroute `pc`:
the flag is `v` even when it is the destination (R149). -/
theorem exec_setResultFlag_spec {i : Instr} {s : State} {x : Reg} {u v : Byte}
    (he : effect i s = .done () (s.setResultFlag x u v)) (hpc : netPc i s = s.pc + 2) :
    ∃ t, exec i s = .next t ∧ (x ≠ 15 → t.reg x = u) ∧ t.reg 15 = v ∧ RegsKept s t (fun r => r = x ∨ r = 15) ∧
      t.pc = s.pc + 2 ∧ OnlyRegsPc s t := by
  refine ⟨_, exec_done he, fun hx => ?result, reg_setResultFlag_flag s x u v, fun r hr => ?kept, hpc, rfl⟩
  case result => rw [setPc_reg, reg_setResultFlag_other s x x u v hx, if_pos rfl]
  case kept =>
    obtain ⟨hx, hflag⟩ := not_or.mp hr
    rw [setPc_reg, reg_setResultFlag_other s x r u v hflag, if_neg hx]

/-! ### Addition -/

theorem carryFlag_of_gt {a b : Byte} (h : a.toNat + b.toNat > 255) : carryFlag a b = 1 := if_pos h

theorem carryFlag_of_le {a b : Byte} (h : a.toNat + b.toNat ≤ 255) : carryFlag a b = 0 := if_neg (Nat.not_lt.mpr h)

/-- Settles O34: the 8-bit sum and then its carry, and its words by the row of `8xy4`. -/
theorem addSetsCarry : Obligations.AddSetsCarry := by
  unfold Obligations.AddSetsCarry
  refine ⟨fun x y s => ?_, encodes_rowOf (.addReg 0 0)⟩
  obtain ⟨t, hexec, hx, hflag, hframe⟩ := exec_setResultFlag_spec (i := .addReg x y) (s := s) rfl rfl
  exact ⟨t, hexec, fun h => by rw [hx h, addResult_toNat], fun h => hflag.trans (carryFlag_of_gt h),
    fun h => hflag.trans (carryFlag_of_le h), hframe⟩

/-! ### Subtraction -/

/-- The exact difference modulo 256, told without a negative number. -/
@[simp] theorem subResult_toNat (a b : Byte) : (subResult a b).toNat = (a.toNat + (256 - b.toNat)) % 256 := by
  have hb := b.isLt
  rw [subResult, exactDiff, BitVec.toNat_ofInt]
  omega

theorem positiveFlag_of_lt {a b : Byte} (h : b.toNat < a.toNat) : positiveFlag a b = 1 :=
  if_pos (Int.sub_pos.mpr (Int.ofNat_lt.mpr h))

theorem positiveFlag_of_le {a b : Byte} (h : a.toNat ≤ b.toNat) : positiveFlag a b = 0 :=
  if_neg (Int.not_lt.mpr (Int.sub_nonpos_of_le (Int.ofNat_le.mpr h)))

/-- An instruction that subtracts `b` from `a` into `V[x]`, whichever registers they come from (R145, R147). -/
theorem exec_subtract_spec {i : Instr} {s : State} {x : Reg} {a b : Byte}
    (he : effect i s = .done () (s.setResultFlag x (subResult a b) (positiveFlag a b)))
    (hpc : netPc i s = s.pc + 2) :
    ∃ t, exec i s = .next t ∧ (x ≠ 15 → (t.reg x).toNat = (a.toNat + (256 - b.toNat)) % 256) ∧
      (b.toNat < a.toNat → t.reg 15 = 1) ∧ (a.toNat ≤ b.toNat → t.reg 15 = 0) ∧
      RegsKept s t (fun r => r = x ∨ r = 15) ∧ t.pc = s.pc + 2 ∧ OnlyRegsPc s t := by
  obtain ⟨t, hexec, hx, hflag, hframe⟩ := exec_setResultFlag_spec he hpc
  exact ⟨t, hexec, fun h => by rw [hx h, subResult_toNat], fun h => hflag.trans (positiveFlag_of_lt h),
    fun h => hflag.trans (positiveFlag_of_le h), hframe⟩

/-- Settles O35: one subtraction for each order of the operands, and their words by the rows of `8xy5` and `8xy7`. -/
theorem subtractFlagIsStrictlyPositive : Obligations.SubtractFlagIsStrictlyPositive := by
  unfold Obligations.SubtractFlagIsStrictlyPositive
  exact ⟨fun x y s => exec_subtract_spec rfl rfl, fun x y s => exec_subtract_spec rfl rfl,
    encodes_rowOf (.subReg 0 0), encodes_rowOf (.subn 0 0)⟩

/-! ### Shifts -/

/-- The source of a shift by the setting of `SHIFT_SRC` (R150). -/
theorem shiftSource_eq (x y : Reg) (s : State) :
    shiftSource x y s = if s.cfg.shiftSrc = .x then s.reg x else s.reg y := by
  unfold shiftSource
  cases s.cfg.shiftSrc <;> rfl

@[simp] theorem shrResult_toNat (a : Byte) : (shrResult a).toNat = a.toNat / 2 := by
  rw [shrResult, BitVec.toNat_ushiftRight, Nat.shiftRight_one]

@[simp] theorem shrFlag_toNat (a : Byte) : (shrFlag a).toNat = a.toNat % 2 :=
  (BitVec.toNat_and a 1).trans (Nat.and_one_is_mod a.toNat)

@[simp] theorem shlResult_toNat (a : Byte) : (shlResult a).toNat = a.toNat * 2 % 256 := by
  rw [shlResult, BitVec.toNat_shiftLeft, Nat.shiftLeft_eq]

/-- The flag of `SHL` is the top bit, left at position 3 (R148). -/
theorem shlFlag_eq (a : Byte) : shlFlag a = if 128 ≤ a.toNat then 8 else 0 := by
  have htop : a.getLsbD 7 = decide (128 ≤ a.toNat) := a.msb_eq_getLsbD_last.symm.trans a.msb_eq_decide
  have hmask : a &&& 0x80 = if a.getLsbD 7 then 0x80 else 0 := BitVec.and_twoPow a 7
  rw [shlFlag, hmask, htop]
  by_cases h : 128 ≤ a.toNat <;> simp [h]

theorem shr_spec (x y : Reg) (s : State) {src : Byte} (hsrc : src = shiftSource x y s) :
    ∃ t, exec (.shr x y) s = .next t ∧ (x ≠ 15 → (t.reg x).toNat = src.toNat / 2) ∧
      (t.reg 15).toNat = src.toNat % 2 ∧ RegsKept s t (fun r => r = x ∨ r = 15) ∧ t.pc = s.pc + 2 ∧
      OnlyRegsPc s t := by
  subst hsrc
  obtain ⟨t, hexec, hx, hflag, hframe⟩ := exec_setResultFlag_spec (i := .shr x y) (s := s) rfl rfl
  exact ⟨t, hexec, fun h => by rw [hx h, shrResult_toNat], by rw [hflag, shrFlag_toNat], hframe⟩

theorem shl_spec (x y : Reg) (s : State) {src : Byte} (hsrc : src = shiftSource x y s) :
    ∃ t, exec (.shl x y) s = .next t ∧ (x ≠ 15 → (t.reg x).toNat = src.toNat * 2 % 256) ∧
      (128 ≤ src.toNat → t.reg 15 = 8) ∧ (src.toNat < 128 → t.reg 15 = 0) ∧
      RegsKept s t (fun r => r = x ∨ r = 15) ∧ t.pc = s.pc + 2 ∧ OnlyRegsPc s t := by
  subst hsrc
  obtain ⟨t, hexec, hx, hflag, hframe⟩ := exec_setResultFlag_spec (i := .shl x y) (s := s) rfl rfl
  rw [shlFlag_eq] at hflag
  exact ⟨t, hexec, fun h => by rw [hx h, shlResult_toNat], fun h => by rw [hflag, if_pos h],
    fun h => by rw [hflag, if_neg (Nat.not_le.mpr h)], hframe⟩

/-- Settles O36: both shifts, of the source that `SHIFT_SRC` selects, and their words by their rows. -/
theorem shiftsForBothSources : Obligations.ShiftsForBothSources := by
  unfold Obligations.ShiftsForBothSources
  refine ⟨fun x y s src hsrc => ?_, encodes_rowOf (.shr 0 0), encodes_rowOf (.shl 0 0)⟩
  rw [← shiftSource_eq] at hsrc
  exact ⟨shr_spec x y s hsrc, shl_spec x y s hsrc⟩

end Sys2Proof.Machine
end

section
/-! PROOFS. The write of the index register and the random draw (`spec/43_index_random.md` R160, R161). -/

namespace Sys2Proof.Machine

/-- An instruction whose one effect is to give `a` to `I`, and that does not reroute `pc`: it writes `I` and `pc`, and no
register. -/
theorem exec_setIndex_spec {i : Instr} {s : State} {a : Word} (he : effect i s = .done () (s.setIndex a))
    (hpc : netPc i s = s.pc + 2) :
    ∃ t, exec i s = .next t ∧ t.index = a ∧ t.pc = s.pc + 2 ∧ OnlyIndexPc s t :=
  ⟨_, exec_done he, setIndex_index s a, hpc, rfl⟩

/-- Settles O37: one write of `I` with the widened address, and its words by the row of family A. -/
theorem setIndexRegister : Obligations.SetIndexRegister := by
  unfold Obligations.SetIndexRegister
  refine ⟨fun nnn s => ?_, encodes_rowOf (.ldIndex 0)⟩
  obtain ⟨t, hexec, hindex, hframe⟩ := exec_setIndex_spec (i := .ldIndex nnn) (s := s) rfl rfl
  exact ⟨t, hexec, by rw [hindex, addrOperand_toNat], hframe⟩

/-- `RND` counts its draw and writes one register with the masked byte of that draw (R161). -/
theorem exec_rnd (x : Reg) (kk : Byte) (s : State) :
    exec (.rnd x kk) s = .next ((s.countDraw.setReg x (s.randomByte &&& kk)).setPc (s.pc + 2)) :=
  exec_done rfl

/-- Settles O38: the byte drawn is the one at the count before the draw, masked bit by bit, and its words by the row of
family C. -/
theorem randomIsMasked : Obligations.RandomIsMasked := by
  unfold Obligations.RandomIsMasked
  refine ⟨fun x kk s => ⟨_, exec_rnd x kk s, fun k _ => ?masked, fun r hr => ?kept, rfl, rfl, rfl⟩,
    encodes_rowOf (.rnd 0 0)⟩
  case masked => rw [setPc_reg, reg_setReg_same, BitVec.getLsbD_and, State.randomByte]
  case kept => rw [setPc_reg, reg_setReg_other _ x r _ hr, countDraw_reg]

end Sys2Proof.Machine
end

section
/-! PROOFS. The draw (`spec/44_draw.md` R170 to R172), row by row: the rows that fit are drawn in turn, and the first
that does not fit raises. -/

namespace Sys2Proof.Machine

/-- Row `k` of a sprite at `(x0, y0)` can be drawn: its byte is in memory and its eight cells are on the grid (R171). -/
abbrev RowFits (x0 y0 : Nat) (s : State) (k : Nat) : Prop :=
  indexAddr s k < 4096 ∧ x0 + 8 ≤ s.cfg.dispW ∧ y0 + k < s.cfg.dispH

/-- `t` is `s` with the first `n` rows of the sprite at `(x0, y0)` drawn, and nothing else changed. -/
structure Drawn (x0 y0 : Nat) (s : State) (n : Nat) (t : State) : Prop where
  frame : t = { s with disp := t.disp }
  cellAt (cx cy : Nat) : t.cellAt cx cy =
    if InSprite x0 y0 n cx cy then (s.byteAt (indexAddr s (cy - y0))).getLsbD (7 - (cx - x0)) else s.cellAt cx cy

/-! ### The rows that fit -/

section
variable {x0 y0 n : Nat} {s t : State}

theorem drawn_zero (x0 y0 : Nat) (s : State) : Drawn x0 y0 s 0 s := ⟨rfl, fun cx cy => by rw [if_neg]; omega⟩

theorem Drawn.indexAddr_eq (h : Drawn x0 y0 s n t) (k : Nat) : indexAddr t k = indexAddr s k := by rw [h.frame]; rfl

theorem Drawn.byteAt_eq (h : Drawn x0 y0 s n t) (a : Nat) : t.byteAt a = s.byteAt a := by rw [h.frame]; rfl

theorem Drawn.cfg_eq (h : Drawn x0 y0 s n t) : t.cfg = s.cfg := by rw [h.frame]

/-- Drawing leaves it open whether a row fits. -/
theorem Drawn.rowFits_iff (h : Drawn x0 y0 s n t) (k : Nat) : RowFits x0 y0 t k ↔ RowFits x0 y0 s k := by
  rw [RowFits, h.indexAddr_eq, h.cfg_eq]

/-- With the next row drawn too, one more is drawn. -/
theorem Drawn.succ (h : Drawn x0 y0 s n t) (hfit : RowFits x0 y0 s n) :
    ∃ u, drawRow x0 y0 n t = .done () u ∧ Drawn x0 y0 s (n + 1) u := by
  obtain ⟨hread, hx, hy⟩ := (h.rowFits_iff n).mpr hfit
  obtain ⟨u, hu, hframe, hcell⟩ := drawRowCells_range x0 (y0 + n) (t.byteAt (indexAddr t n)) t hx hy 8 (by omega)
  refine ⟨u, ?row, by rw [hframe, h.frame], fun cx cy => ?cells⟩
  case row => rw [drawRow, memRead_in _ _ hread, andThen_done, drawRowCells, hu]
  case cells =>
    rw [hcell, h.cellAt, h.byteAt_eq, h.indexAddr_eq]
    by_cases hnew : x0 ≤ cx ∧ cx < x0 + 8 ∧ cy = y0 + n
    · rw [if_pos hnew, if_pos (by omega), hnew.2.2, Nat.add_sub_cancel_left]
    · rw [if_neg hnew]
      exact if_congr (by omega) rfl rfl

theorem draw_inside (h : ∀ k < n, RowFits x0 y0 s k) :
    ∃ t, forEach (drawRow x0 y0) (List.range n) s = .done () t ∧ Drawn x0 y0 s n t := by
  induction n with
  | zero => exact ⟨s, rfl, drawn_zero x0 y0 s⟩
  | succ n ih =>
    obtain ⟨t, ht, hdrawn⟩ := ih fun k hk => h k (Nat.lt_succ_of_lt hk)
    obtain ⟨u, hu, hnext⟩ := hdrawn.succ (h n n.lt_succ_self)
    exact ⟨u, by rw [forEach_range_succ, ht, andThen_done, hu], hnext⟩

end

/-- Settles O39: all rows fit, and its words by the row of family D. -/
theorem drawOverwritesItsRectangle : Obligations.DrawOverwritesItsRectangle := by
  unfold Obligations.DrawOverwritesItsRectangle
  refine ⟨fun x y n s h => ?_, encodes_rowOf (.drw 0 0 0)⟩
  have hfit : ∀ k < n.toNat, RowFits (s.reg x).toNat (s.reg y).toNat s k := by
    rcases h with rfl | ⟨hread, hx, hy⟩
    · exact fun k hk => absurd hk k.not_lt_zero
    · exact fun k hk => ⟨Nat.lt_of_lt_of_le (Nat.add_lt_add_left hk _) hread, hx,
        Nat.lt_of_lt_of_le (Nat.add_lt_add_left hk _) hy⟩
  obtain ⟨t, ht, hdrawn⟩ := draw_inside hfit
  refine ⟨_, exec_done ht, rfl, ?frame, fun cx cy hin => ?inside, fun cx cy hout => ?outside⟩
  case frame => rw [hdrawn.frame]; rfl
  case inside => exact (hdrawn.cellAt cx cy).trans (if_pos hin)
  case outside => exact (hdrawn.cellAt cx cy).trans (if_neg hout)

/-! ### The first row that does not fit -/

/-- Two accesses in turn are done when both are. -/
theorem andThen_done_inv {α β : Type} {m : Attempt α} {f : α → State → Attempt β} {b : β} {u : State}
    (h : m.andThen f = .done b u) : ∃ a t, m = .done a t ∧ f a t = .done b u := by
  cases m with
  | done a t => exact ⟨a, t, rfl, h⟩
  | raised c t => cases h

theorem dispWrite_cfg (x y : Nat) (b : Bool) (s : State) : (dispWrite x y b s).final.cfg = s.cfg := by
  rcases dispWrite_final x y b s with h | ⟨-, -, h⟩ <;> rw [h]
  rfl

/-- A row with a cell off the grid raises at one of its cells: at the last of them if at none before (R65). -/
theorem drawRowCells_off (x0 y : Nat) (b : Byte) (s : State) (h : s.cfg.dispW < x0 + 8 ∨ s.cfg.dispH ≤ y) :
    ∃ px py u, drawRowCells x0 y b s = .raised (.outOfBoundsDisplay px py) u := by
  cases hm : drawRowCells x0 y b s with
  | raised c u =>
    obtain ⟨px, py, rfl⟩ := forEach_raised _ _ (fun _ _ _ _ => dispWrite_raised) _ _ _ _ hm
    exact ⟨px, py, u, rfl⟩
  | done _ u =>
    rw [drawRowCells, forEach_range_succ] at hm
    obtain ⟨_, t, hbefore, hlast⟩ := andThen_done_inv hm
    have hcfg := forEach_keeps (fun w => w.cfg = s.cfg) _
      (fun col w hw => (dispWrite_cfg (x0 + col) y (spriteBit b col) w).trans hw) (List.range 7) s rfl
    rw [hbefore, final_done] at hcfg
    rw [dispWrite_out _ _ _ _ (by rw [hcfg]; omega)] at hlast
    cases hlast

/-- The class of the cause of row `k` that does not fit, its read being tried before its cells (R172). -/
structure RowCause (s : State) (k : Nat) (c : Fault) : Prop where
  beyond (h : 4096 ≤ indexAddr s k) : ∃ a, c = .outOfBoundsMemory a
  within (h : indexAddr s k < 4096) : ∃ px py, c = .outOfBoundsDisplay px py

theorem drawRow_raises {x0 y0 k : Nat} {s : State} (h : ¬ RowFits x0 y0 s k) :
    ∃ c u, drawRow x0 y0 k s = .raised c u ∧ RowCause s k c := by
  by_cases hread : indexAddr s k < 4096
  · obtain ⟨px, py, u, hu⟩ := drawRowCells_off x0 (y0 + k) (s.byteAt (indexAddr s k)) s (by omega)
    refine ⟨_, u, ?_, fun hout => absurd hread (Nat.not_lt.mpr hout), fun _ => ⟨px, py, rfl⟩⟩
    rw [drawRow, memRead_in _ _ hread, andThen_done, hu]
  · refine ⟨.outOfBoundsMemory (indexAddr s k), s, ?_, fun _ => ⟨_, rfl⟩, fun hin => absurd hin hread⟩
    rw [drawRow, memRead_out _ _ (Nat.not_lt.mp hread), andThen_raised]

/-- The rows drawn before leave the class of a row's cause as it was. -/
theorem Drawn.rowCause {x0 y0 n k : Nat} {s t : State} {c : Fault} (h : Drawn x0 y0 s n t) (hc : RowCause t k c) :
    RowCause s k c :=
  ⟨fun hout => hc.beyond (by rwa [h.indexAddr_eq]), fun hin => hc.within (by rwa [h.indexAddr_eq])⟩

/-- Row `m` is the first row that does not fit. -/
structure FirstMisfit (x0 y0 : Nat) (s : State) (m : Nat) : Prop where
  misfit : ¬ RowFits x0 y0 s m
  before : ∀ j < m, RowFits x0 y0 s j

/-- A draw with a row that does not fit raises at the first such row (R172). -/
theorem draw_raises {x0 y0 n k : Nat} {s : State} (hk : k < n) (h : ¬ RowFits x0 y0 s k) :
    ∃ m c u, forEach (drawRow x0 y0) (List.range n) s = .raised c u ∧ RowCause s m c ∧ FirstMisfit x0 y0 s m := by
  have hex : ∃ m, ¬ RowFits x0 y0 s m := ⟨k, h⟩
  have hbefore : ∀ j < Nat.find hex, RowFits x0 y0 s j := fun j hj => not_not.mp (Nat.find_min hex hj)
  obtain ⟨t, ht, hdrawn⟩ := draw_inside hbefore
  obtain ⟨c, u, hu, hc⟩ := drawRow_raises ((hdrawn.rowFits_iff _).not.mpr (Nat.find_spec hex))
  exact ⟨_, c, u, forEach_range_raised _ n _ (Nat.lt_of_le_of_lt (Nat.find_min' hex h) hk) s t u c ht hu,
    hdrawn.rowCause hc, Nat.find_spec hex, hbefore⟩

section
variable {x0 y0 m : Nat} {s : State} (hm : FirstMisfit x0 y0 s m)
include hm

/-- Where the columns do not fit the grid, row 0 is the first that does not fit. -/
theorem FirstMisfit.eq_zero_of_wide (hwide : s.cfg.dispW < x0 + 8) : m = 0 := by
  by_contra hne
  obtain ⟨-, hx, -⟩ := hm.before 0 (Nat.pos_of_ne_zero hne)
  exact absurd hx (Nat.not_le.mpr hwide)

/-- Where memory ends no later than the grid, the first row that does not fit is beyond memory. -/
theorem FirstMisfit.beyond (hx : x0 + 8 ≤ s.cfg.dispW) (hroom : room s ≤ s.cfg.dispH - y0) :
    4096 ≤ indexAddr s m := by
  by_contra hread
  have hlt : m < room s := lt_room.mpr (Nat.not_le.mp hread)
  exact hm.misfit ⟨Nat.not_le.mp hread, hx, by omega⟩

/-- Where the grid ends before memory, the first row that does not fit is within memory. -/
theorem FirstMisfit.within (hroom : s.cfg.dispH - y0 < room s) : indexAddr s m < 4096 := by
  refine lt_room.mp (Nat.lt_of_le_of_lt (Nat.not_lt.mp fun hlt => ?_) hroom)
  obtain ⟨-, -, hy⟩ := hm.before _ hlt
  omega

/-- The class of the cause, told by the bounds alone (R172). -/
theorem FirstMisfit.cause {c : Fault} (hc : RowCause s m c) :
    if 4096 ≤ s.index.toNat then ∃ a, c = .outOfBoundsMemory a
    else if s.cfg.dispW < x0 + 8 then ∃ px py, c = .outOfBoundsDisplay px py
    else if 4096 - s.index.toNat ≤ s.cfg.dispH - y0 then ∃ a, c = .outOfBoundsMemory a
    else ∃ px py, c = .outOfBoundsDisplay px py := by
  split_ifs with hindex hwide hroom
  · exact hc.beyond (Nat.le_trans hindex (Nat.le_add_right _ _))
  · obtain rfl := hm.eq_zero_of_wide hwide
    exact hc.within (Nat.not_le.mp hindex)
  · exact hc.beyond (hm.beyond (Nat.not_lt.mp hwide) hroom)
  · exact hc.within (hm.within (Nat.not_le.mp hroom))

end

/-- A draw, done or raised, changes the display alone. -/
theorem draw_frame (x0 y0 n : Nat) (s : State) :
    (forEach (drawRow x0 y0) (List.range n) s).final =
      { s with disp := (forEach (drawRow x0 y0) (List.range n) s).final.disp } :=
  draw_keeps (fun t => t = { s with disp := t.disp }) (fun t _ _ _ _ _ ht => by rw [ht]; rfl) x0 y0 n s rfl

/-- Settles O40: the last row does not fit, so the first that does not raises. -/
theorem drawOffTheGridRaises : Obligations.DrawOffTheGridRaises := by
  unfold Obligations.DrawOffTheGridRaises
  intro x y n s hn h
  have hpos : n.toNat ≠ 0 := fun h0 => hn (BitVec.eq_of_toNat_eq h0)
  have hlast : ¬ RowFits (s.reg x).toNat (s.reg y).toNat s (n.toNat - 1) := by unfold RowFits indexAddr; omega
  obtain ⟨m, c, u, hu, hc, hm⟩ := draw_raises (n := n.toNat) (by omega) hlast
  have hframe := draw_frame (s.reg x).toNat (s.reg y).toNat n.toNat s
  rw [hu] at hframe
  have hframe : u = { s with disp := u.disp } := hframe
  refine ⟨u.raise c, c, exec_raised hu, ?_, hm.cause hc⟩
  rw [hframe]; rfl

end Sys2Proof.Machine
end

section
/-! PROOFS. The skips on a key (`spec/45_key_skip.md` R180 to R182). -/

namespace Sys2Proof.Machine

section
variable {i : Instr} {x : Reg} {s : State}

/-- With the key index up to 15 a key skip has no effect apart from `pc` (R180, R181). -/
theorem effect_keySkip_inside (hi : i = .skp x ∨ i = .sknp x) (h : (s.reg x).toNat ≤ 15) :
    effect i s = .done () s := by
  rcases hi with rfl | rfl <;> exact if_neg (Nat.not_lt.mpr h)

/-- With the key index above 15 a key skip raises before it changes anything (R182). -/
theorem effect_keySkip_above (hi : i = .skp x ∨ i = .sknp x) (h : 15 < (s.reg x).toNat) :
    effect i s = .raised (.outOfBoundsKey (s.reg x)) s := by
  rcases hi with rfl | rfl <;> exact if_pos h

theorem exec_keySkip_above (hi : i = .skp x ∨ i = .sknp x) (h : 15 < (s.reg x).toNat) :
    ∃ t, exec i s = .next t ∧ RaisedOnly s t (.outOfBoundsKey (s.reg x)) :=
  ⟨_, exec_raised (effect_keySkip_above hi h), rfl⟩

end

/-- Settles O41: with such an index both are skip tests of that bit of the held mask, `SKNP` of its complement; and their
words by the two rows of family E. -/
theorem keySkipsTestTheHeldMask : Obligations.KeySkipsTestTheHeldMask := by
  unfold Obligations.KeySkipsTestTheHeldMask
  refine ⟨fun x s h => ⟨?skp, ?sknp⟩, encodes_rowOf (.skp 0), encodes_rowOf (.sknp 0)⟩
  case skp => exact exec_skip_spec (effect_keySkip_inside (.inl rfl) h) rfl id id
  case sknp =>
    exact exec_skip_spec (effect_keySkip_inside (.inr rfl) h) rfl (congrArg Bool.not) (congrArg Bool.not)

/-- Settles O42: both raise on such an index. -/
theorem keyIndexAboveFifteenRaises : Obligations.KeyIndexAboveFifteenRaises := by
  unfold Obligations.KeyIndexAboveFifteenRaises
  exact fun x s h => ⟨exec_keySkip_above (.inl rfl) h, exec_keySkip_above (.inr rfl) h⟩

end Sys2Proof.Machine
end

section
/-! PROOFS. The timers, the key wait, the index register and the transfers from `I` on within memory
(`spec/46_timer_memory_group.md` R190 to R198). -/

namespace Sys2Proof.Machine

/-! ### Timers -/

/-- Settles O43: one write of a register, of `dt` or of `st`, the decrement being of `dt` as written; and their words by
the rows of family F. -/
theorem timerTransfers : Obligations.TimerTransfers := by
  unfold Obligations.TimerTransfers
  refine ⟨fun x s => exec_setReg_spec rfl rfl, fun x s => ⟨_, exec_done rfl, rfl, ?decrement⟩,
    fun x s => exec_done (u := s.setSt (s.reg x)) rfl, encodes_rowOf (.ldFromDt 0), encodes_rowOf (.ldToDt 0),
    encodes_rowOf (.ldToSt 0)⟩
  case decrement => rw [endOfTick_dt, setPc_dt, setDt_dt]

/-! ### The key wait -/

/-- `LD Vx, K` latches its register and advances (R191). -/
theorem exec_ldKey (x : Reg) (s : State) : exec (.ldKey x) s = .next ((s.setAwait (some x)).setPc (s.pc + 2)) :=
  exec_done rfl

/-- The step of a core that can dispatch is the instruction at `pc`, charged (R237 to R239). -/
theorem step_decoded {s : State} {b : Nat} {i : Instr} (h : CanDispatch s b) (hpc : s.pc.toNat + 1 < 4096)
    (hi : decodeWord (wordOfBytes (s.byteAt s.pc.toNat) (s.byteAt (s.pc.toNat + 1))) = .ok i) :
    step s = chargeOutcome (exec i s) := by
  rw [step_canDispatch s b h, fetchDispatch_in s hpc, dispatchWord_ok _ i s hi]

/-- `s` with `LD Vx, K` done and charged in a tick with budget `b`. -/
def State.latched (s : State) (x : Reg) (b : Nat) : State :=
  ((s.setAwait (some x)).setPc (s.pc + 2)).setTick (.looping (b - 2))

theorem step_ldKey {s : State} {b : Nat} {x : Reg} (h : CanDispatch s b) (hpc : s.pc.toNat + 1 < 4096)
    (hi : decodeWord (wordOfBytes (s.byteAt s.pc.toNat) (s.byteAt (s.pc.toNat + 1))) = .ok (.ldKey x)) :
    step s = .next (s.latched x b) := by
  rw [step_decoded h hpc hi, exec_ldKey, chargeOutcome_next]
  obtain ⟨-, -, -, ht, -, -⟩ := h
  exact congrArg Host.Outcome.next (charge_looping ((s.setAwait (some x)).setPc (s.pc + 2)) b ht)

/-- A core that waits for a key fetches nothing: without a press it leaves the loop, with one it captures (R235,
R236). -/
theorem step_awaiting {s : State} {b : Nat} {r : Reg} (hf : s.fault = none) (hs : s.stopped = false)
    (ha : s.awaitKey = some r) (ht : s.tick = .looping b) (hb : 2 ≤ b) (hm : s.hostMoves = []) :
    step s = if s.pressedMask = 0 then .next (s.setTick (.left b)) else .next (s.capture r) := by
  rw [step_auto s hm]
  simp only [autoStep, hf, ht]
  rw [coreStep_looping s b hf ht hb]
  simp [iterate, hs, ha]

/-- A capture writes the latched register and no other (R236). -/
theorem capture_reg_other (s : State) (x r : Reg) (h : r ≠ x) : (s.capture x).reg r = s.reg r := by
  rw [State.capture, setAwait_reg, reg_setReg_other _ _ _ _ h]

/-- Settles O44: the first step latches the register, and the next is that of a core that waits, with the mask as it
was; the words by their row of family F. -/
theorem keyWaitSuspendsDispatch : Obligations.KeyWaitSuspendsDispatch := by
  unfold Obligations.KeyWaitSuspendsDispatch
  refine ⟨exec_ldKey, fun x s t b h hb hpc hi ht => ?_, encodes_rowOf (.ldKey 0)⟩
  rw [step_ldKey h hpc hi] at ht
  cases ht
  obtain ⟨hf, hs, -, -, -, hm⟩ := h
  have hnext : step (s.latched x b) = _ := step_awaiting hf hs rfl rfl (by omega) hm
  by_cases hpressed : s.pressedMask = 0
  · refine ⟨_, hnext.trans (if_pos hpressed), rfl, fun _ _ => rfl, fun _ => ⟨rfl, rfl, rfl⟩, absurd hpressed⟩
  · exact ⟨_, hnext.trans (if_neg hpressed), rfl, capture_reg_other _ x, fun h => absurd h hpressed,
      fun _ => ⟨rfl, rfl⟩⟩

/-! ### The index register -/

@[simp] theorem indexPlus_toNat (x : Reg) (s : State) :
    (indexPlus x s).toNat = (s.index.toNat + (s.reg x).toNat) % 65536 := BitVec.toNat_ofNat _ _

/-- The address of a glyph is at most 1275, so it needs no reduction (R195). -/
@[simp] theorem glyphAddr_toNat (x : Reg) (s : State) : (glyphAddr x s).toNat = (s.reg x).toNat * 5 := by
  have hv := (s.reg x).isLt
  rw [glyphAddr, glyphHeight, BitVec.toNat_ofNat]
  omega

/-- Settles O45: both are one write of `I`, and their words by their rows of family F. -/
theorem indexArithmetic : Obligations.IndexArithmetic := by
  unfold Obligations.IndexArithmetic
  refine ⟨fun x s => ?plus, fun x s => ?glyph, encodes_rowOf (.addIndex 0), encodes_rowOf (.ldGlyph 0)⟩
  case plus =>
    obtain ⟨t, hexec, hindex, hframe⟩ := exec_setIndex_spec (i := .addIndex x) (s := s) rfl rfl
    exact ⟨t, hexec, by rw [hindex, indexPlus_toNat], hframe⟩
  case glyph =>
    obtain ⟨t, hexec, hindex, hframe⟩ := exec_setIndex_spec (i := .ldGlyph x) (s := s) rfl rfl
    exact ⟨t, hexec, by rw [hindex, glyphAddr_toNat], hframe⟩

/-! ### Transfers within memory -/

/-- Stores and then the advance change memory and `pc` alone. -/
theorem Stored.onlyMemPc {v : Nat → Byte} {s t : State} {n : Nat} (h : Stored v s n t) (a : Word) :
    OnlyMemPc s (t.setPc a) := by
  rw [h.frame]; rfl

/-- Loads and then the advance change the registers and `pc` alone. -/
theorem Loaded.onlyRegsPc {s t : State} {n : Nat} (h : Loaded s n t) (a : Word) : OnlyRegsPc s (t.setPc a) := by
  rw [h.frame]; rfl

/-- Settles O46: three digits stored from `I` on, and its words by their row of family F. -/
theorem bcdStoresThreeDigits : Obligations.BcdStoresThreeDigits := by
  unfold Obligations.BcdStoresThreeDigits
  refine ⟨fun x s h => ?_, encodes_rowOf (.ldBcd 0)⟩
  obtain ⟨u, hu, hst⟩ := digitOne_inside (indexAddr_lt_of_last h) (s.reg x)
  have hdigit (k : Nat) (hk : k < 3) : (u.byteAt (indexAddr s k)).toNat = bcdDigit (s.reg x) k := by
    rw [hst.byteAt_inside hk, toNat_bcdDigit]
  exact ⟨_, exec_done ((effect_ldBcd x s).trans hu), hdigit 0 (by decide), hdigit 1 (by decide),
    hdigit 2 (by decide), fun a ha => hst.byteAt_outside ha, rfl, hst.onlyMemPc _⟩

/-- Settles O47: registers 0 to X stored from `I` on, and its words by their row of family F. -/
theorem bulkStoreWritesUpToX : Obligations.BulkStoreWritesUpToX := by
  unfold Obligations.BulkStoreWritesUpToX
  refine ⟨fun x s h => ?_, encodes_rowOf (.storeRegs 0)⟩
  obtain ⟨u, hu, hst⟩ := storeOne_inside (indexAddr_lt_of_last h) x.isLt
  refine ⟨_, exec_done hu, fun i hi => ?stored, fun a ha => ?kept, rfl, hst.onlyMemPc _⟩
  case stored =>
    have hbyte := hst.byteAt_inside (Nat.lt_succ_of_le hi)
    rwa [Fin.ofNat_val_eq_self] at hbyte
  case kept => exact hst.byteAt_outside fun k hk => ha ⟨k, by omega⟩ (Nat.le_of_lt_succ hk)

/-- Settles O48: registers 0 to X loaded from `I` on, and its words by their row of family F. -/
theorem bulkLoadReadsUpToX : Obligations.BulkLoadReadsUpToX := by
  unfold Obligations.BulkLoadReadsUpToX
  refine ⟨fun x s h => ?_, encodes_rowOf (.loadRegs 0)⟩
  obtain ⟨u, hu, hld⟩ := loadOne_inside (indexAddr_lt_of_last h) x.isLt
  refine ⟨_, exec_done hu, fun i hi => ?loaded, fun r hr => ?kept, rfl, hld.onlyRegsPc _⟩
  case loaded => exact (hld.reg i).trans (if_pos (Nat.lt_succ_of_le hi))
  case kept => exact (hld.reg r).trans (if_neg fun hlt => hr (Nat.le_of_lt_succ hlt))

end Sys2Proof.Machine
end

section
/-! PROOFS. The scheduler's single steps (`spec/48_tick_scheduler.md` R231 to R243): the fetch, the start of a tick, the
instruction that is run and charged, the loop left early, the key captured and the end of a tick. -/

namespace Sys2Proof.Machine

/-! ### The fetch and the instruction it finds -/

/-- Settles O7: the word of the two bytes as a number, and the fault beyond memory. -/
theorem fetchIsBigEndianAndNeverWraps : Obligations.FetchIsBigEndianAndNeverWraps := by
  unfold Obligations.FetchIsBigEndianAndNeverWraps
  exact fun s => ⟨fun h => ⟨_, fetch_in s h, wordOfBytes_toNat _ _⟩, fetch_out s⟩

/-- Two bytes that decode with nothing left are a word that decodes. -/
theorem decodeWord_of_decode {hi lo : Byte} {i : Instr} (h : decode [hi, lo] = .ok (i, [])) :
    decodeWord (wordOfBytes hi lo) = .ok i := by
  cases hw : decodeWord (wordOfBytes hi lo) with
  | ok j => rw [decode, hw] at h; cases h; rfl
  | error r => rw [decode, hw] at h; cases h

/-- The core's step in the loop is the instruction at `pc`, charged (R237 to R239). -/
theorem coreStep_decoded {s : State} {b : Nat} {i : Instr} (hf : s.fault = none) (hs : s.stopped = false)
    (ha : s.awaitKey = none) (ht : s.tick = .looping b) (hb : 2 ≤ b) (hpc : s.pc.toNat + 1 < 4096)
    (hi : decodeWord (wordOfBytes (s.byteAt s.pc.toNat) (s.byteAt (s.pc.toNat + 1))) = .ok i) :
    coreStep s = chargeOutcome (exec i s) := by
  rw [coreStep_looping s b hf ht hb, iterate_dispatch b s hs ha, fetchDispatch_in s hpc, dispatchWord_ok _ i s hi]

/-- Settles O8: such a step is the decoded instruction, and `pass` is the core's own step. -/
theorem stepRunsTheDecodedInstruction : Obligations.StepRunsTheDecodedInstruction := by
  unfold Obligations.StepRunsTheDecodedInstruction
  intro s b i h hpc _ hdecode
  have hi := decodeWord_of_decode hdecode
  refine ⟨step_decoded h hpc hi, fun rest => ?pass⟩
  obtain ⟨hf, hs, ha, ht, hb, -⟩ := h
  exact (step_move _ .pass rest rfl).trans
    (coreStep_decoded (s := { s with hostMoves := rest }) hf hs ha ht hb hpc hi)

/-- The effect itself takes no fault: that is left to the end of the instruction (R240). -/
theorem effect_fault (i : Instr) (s : State) : (effect i s).final.fault = s.fault := by rw [effect_frame]

/-- An instruction that has raised has left the tick (R240). -/
theorem exec_tick_of_raised {i : Instr} {s t : State} (h : exec i s = .next t) (hs : s.fault = none)
    (hf : t.fault ≠ none) : t.tick = .idle := by
  rcases exec_cases h with ⟨-, rfl⟩ | ⟨c, -, rfl⟩
  · exact absurd ((effect_fault i s).trans hs) hf
  · rfl

/-- Settles O9: what raised nothing is still in the loop with the whole budget, what raised is in no tick. -/
theorem everyInstructionCostsTwo : Obligations.EveryInstructionCostsTwo := by
  unfold Obligations.EveryInstructionCostsTwo
  intro i s t b hs ht h
  refine ⟨fun hf => ?returned, fun hf => ?raised⟩
  case returned =>
    obtain ⟨-, htick, -⟩ := exec_unraised h hf
    rw [charge_looping t b (htick.trans ht), setTick_tick]
  case raised =>
    have hidle := exec_tick_of_raised h hs hf
    rw [charge_idle t hidle, hidle]

/-! ### The start of a tick -/

/-- Nothing starts on a stopped core (R231). -/
theorem tickStart_stopped {s : State} (hs : s.stopped = true) : s.tickStart = { s with boot := .started } := by
  rw [State.tickStart, hs, Bool.or_true, if_pos rfl]

/-- On any other core the loop starts with the full budget (R231). -/
theorem tickStart_running {s : State} (hf : s.fault = none) (hs : s.stopped = false) :
    s.tickStart = { s with boot := .started, tick := .looping 8 } := by
  rw [State.tickStart, hf, hs]; rfl

theorem hostTick_idle {s : State} (ht : s.tick = .idle) : hostTick s = .next s.tickStart := by
  rw [hostTick, ht]

/-- With no host move waiting, an unfaulted core in no tick gets its next tick (R249). -/
theorem step_newTick {s : State} (hm : s.hostMoves = []) (hf : s.fault = none) (ht : s.tick = .idle) :
    step s = .next s.tickStart := by
  rw [step_auto s hm, autoStep]
  simp only [hf, ht, hostTick_idle]

/-- Settles O12: the tick, raised by the host or unasked, is `tickStart`, of a faulted, a stopped or any other core. -/
theorem tickStartSetsTheBudget : Obligations.TickStartSetsTheBudget := by
  unfold Obligations.TickStartSetsTheBudget
  refine ⟨fun s rest hm ht => ?move, fun s hm hf ht => ?unasked⟩
  case move =>
    have hstep : step s = .next (State.tickStart { s with hostMoves := rest }) :=
      (step_move s .tick rest hm).trans (hostTick_idle ht)
    rw [hstep]
    refine ⟨fun h => congrArg _ ?_, fun hf hs => congrArg _ (tickStart_running hf hs)⟩
    rcases h with hf | hs
    · exact tickStart_faulted hf
    · exact tickStart_stopped hs
  case unasked =>
    exact ⟨fun hs => by rw [step_newTick hm hf ht, tickStart_stopped hs],
      fun hs => by rw [step_newTick hm hf ht, tickStart_running hf hs]⟩

/-! ### The loop left, a key captured, and the end of a tick -/

section
variable {s : State} {b : Nat} (hm : s.hostMoves = []) (hf : s.fault = none)
include hm hf

/-- Inside a tick an unfaulted core takes its own step when no host move waits. -/
theorem step_inTick (ht : s.tick ≠ .idle) : step s = coreStep s := by
  rw [step_auto s hm, autoStep, hf]
  cases h : s.tick with
  | idle => exact absurd h ht
  | looping b => rfl
  | left b => rfl

/-- While the budget can pay, that step is an iteration of the loop (R232, R244). -/
theorem step_looping (ht : s.tick = .looping b) (hb : 2 ≤ b) : step s = iterate b s := by
  rw [step_inTick hm hf (by rw [ht]; nofun), coreStep_looping s b hf ht hb]

/-- With the budget spent it is the end of the tick (R232, R244). -/
theorem step_spent (ht : s.tick = .looping b) (hb : b < 2) : step s = .next (s.endOfTick.setTick .idle) := by
  rw [step_inTick hm hf (by rw [ht]; nofun), coreStep_spent s b hf ht hb]

/-- With the loop left it is the end of the tick (R244). -/
theorem step_left (ht : s.tick = .left b) : step s = .next (s.endOfTick.setTick .idle) := by
  rw [step_inTick hm hf (by rw [ht]; nofun), coreStep_left s b hf ht]

end

/-- An iteration of a stopped core leaves the loop (R234). -/
theorem iterate_stopped (b : Nat) {s : State} (hs : s.stopped = true) : iterate b s = .next (s.setTick (.left b)) := by
  rw [iterate, if_pos hs]

/-- Settles O13: an iteration of a stopped core, and then the end of the tick. -/
theorem stopLeavesTheLoop : Obligations.StopLeavesTheLoop := by
  unfold Obligations.StopLeavesTheLoop
  intro s b hm hf hs ht hb
  exact ⟨(step_looping hm hf ht hb).trans (iterate_stopped b hs), step_left (b := b) hm hf rfl⟩

/-- Settles O14: the step of a waiting core, and then the end of the tick, with no press left to clear. -/
theorem waitingWithoutAKeyEndsTheTick : Obligations.WaitingWithoutAKeyEndsTheTick := by
  unfold Obligations.WaitingWithoutAKeyEndsTheTick
  intro s b r hm hf hs ht hb ha hp
  refine ⟨(step_awaiting hf hs ha ht hb hm).trans (if_pos hp), ?_⟩
  rw [step_left (s := { s with tick := .left b }) hm hf rfl, hp]; rfl

/-- A capture writes the lowest pressed index to the latched register (R236). -/
theorem capture_reg_same (s : State) (r : Reg) :
    ((s.capture r).reg r).toNat = (lowestSetIndex s.pressedMask).val := by
  rw [State.capture, setAwait_reg, reg_setReg_same, BitVec.toNat_ofNat]
  omega

/-- Settles O15: the step of a waiting core with a press is the capture, and its index is the lowest. -/
theorem captureTakesTheLowestPressedKey : Obligations.CaptureTakesTheLowestPressedKey := by
  unfold Obligations.CaptureTakesTheLowestPressedKey
  intro s b r hm hf hs ht hb ha hp
  obtain ⟨hset, hlower⟩ := lowestSetIndex_spec s.pressedMask hp
  exact ⟨s.capture r, _, (step_awaiting hf hs ha ht hb hm).trans (if_neg hp), (lowestSetIndex s.pressedMask).isLt,
    hset, hlower, capture_reg_same s r, capture_reg_other s r, rfl⟩

/-- A timer goes down by 1 modulo 256 (R241). -/
theorem sub_one_toNat (v : Byte) : (v - 1).toNat = (v.toNat + 255) % 256 := by
  rw [BitVec.toNat_sub, Nat.add_comm]; rfl

/-- Settles O16: with the budget spent or the loop left the step is the end of the tick. -/
theorem endOfTickActions : Obligations.EndOfTickActions := by
  unfold Obligations.EndOfTickActions
  intro s b hm hf h
  have hstep : step s = .next (s.endOfTick.setTick .idle) :=
    h.elim (fun ⟨ht, hb⟩ => step_spent hm hf ht hb) (step_left hm hf)
  exact ⟨_, hstep, sub_one_toNat s.dt, sub_one_toNat s.st, rfl, rfl⟩

end Sys2Proof.Machine
end

section
/-! PROOFS. The tick as one procedure and as small steps (R230, R244). No access reads the tick, so an instruction does
in the loop what it does outside; each iteration of the procedure's loop is then one small step, and the loop ends with
the end-of-tick actions or with the fault. -/

namespace Sys2Proof.Machine

/-! ### No instruction reads the tick -/

/-- The attempt as it would have ended with the tick at `p`. -/
def Attempt.withTick {α : Type} (p : TickPhase) (m : Attempt α) : Attempt α :=
  match m with
  | .done a s => .done a (s.setTick p)
  | .raised c s => .raised c (s.setTick p)

section
variable (p : TickPhase) (s : State)

theorem memRead_setTick (a : Nat) : memRead a (s.setTick p) = (memRead a s).withTick p := by
  by_cases ha : a < 4096
  · rw [memRead_in a _ ha, memRead_in a s ha]; rfl
  · rw [memRead_out a _ (Nat.not_lt.mp ha), memRead_out a s (Nat.not_lt.mp ha)]; rfl

theorem memWrite_setTick (a : Nat) (v : Byte) : memWrite a v (s.setTick p) = (memWrite a v s).withTick p := by
  by_cases ha : a < 4096
  · rw [memWrite_in a v _ ha, memWrite_in a v s ha]; rfl
  · rw [memWrite_out a v _ (Nat.not_lt.mp ha), memWrite_out a v s (Nat.not_lt.mp ha)]; rfl

theorem dispWrite_setTick (x y : Nat) (b : Bool) :
    dispWrite x y b (s.setTick p) = (dispWrite x y b s).withTick p := by
  by_cases h : s.cfg.dispW ≤ x ∨ s.cfg.dispH ≤ y
  · rw [dispWrite_out x y b (s.setTick p) h, dispWrite_out x y b s h]; rfl
  · obtain ⟨hx, hy⟩ := not_or.mp h
    rw [dispWrite_in x y b (s.setTick p) (Nat.not_le.mp hx) (Nat.not_le.mp hy),
      dispWrite_in x y b s (Nat.not_le.mp hx) (Nat.not_le.mp hy)]
    rfl

variable {p}

theorem andThen_withTick {α β : Type} {f : α → State → Attempt β}
    (hf : ∀ a t, f a (t.setTick p) = (f a t).withTick p) (m : Attempt α) :
    (m.withTick p).andThen f = (m.andThen f).withTick p := by
  cases m with
  | done a t => exact hf a t
  | raised c t => rfl

theorem forEach_setTick {f : Nat → State → Attempt Unit} (hf : ∀ k t, f k (t.setTick p) = (f k t).withTick p)
    (l : List Nat) : forEach f l (s.setTick p) = (forEach f l s).withTick p := by
  induction l generalizing s with
  | nil => rfl
  | cons k l ih =>
    rw [forEach_cons, forEach_cons, hf]
    exact andThen_withTick (fun _ t => ih t) (f k s)

variable (p)

theorem drawRowCells_setTick (x0 y : Nat) (b : Byte) :
    drawRowCells x0 y b (s.setTick p) = (drawRowCells x0 y b s).withTick p :=
  forEach_setTick s (fun col t => dispWrite_setTick p t (x0 + col) y (spriteBit b col)) _

theorem drawRow_setTick (x0 y0 k : Nat) : drawRow x0 y0 k (s.setTick p) = (drawRow x0 y0 k s).withTick p := by
  unfold drawRow
  rw [memRead_setTick]
  exact andThen_withTick (fun b t => drawRowCells_setTick p t x0 (y0 + k) b) _

theorem storeOne_setTick (k : Nat) : storeOne k (s.setTick p) = (storeOne k s).withTick p :=
  memWrite_setTick p s _ _

theorem loadOne_setTick (k : Nat) : loadOne k (s.setTick p) = (loadOne k s).withTick p := by
  unfold loadOne
  rw [memRead_setTick]
  exact andThen_withTick (fun _ _ => rfl) _

theorem effect_keySkip_setTick {i : Instr} {x : Reg} (hi : i = .skp x ∨ i = .sknp x) :
    effect i (s.setTick p) = (effect i s).withTick p := by
  by_cases hx : (s.reg x).toNat ≤ 15
  · rw [effect_keySkip_inside (s := s.setTick p) hi hx, effect_keySkip_inside hi hx]; rfl
  · rw [effect_keySkip_above (s := s.setTick p) hi (Nat.not_le.mp hx), effect_keySkip_above hi (Nat.not_le.mp hx)]
    rfl

/-- The effect of an instruction with the tick at `p` is its effect, with the tick at `p`. -/
theorem effect_setTick (i : Instr) : effect i (s.setTick p) = (effect i s).withTick p := by
  cases i
  case skp x => exact effect_keySkip_setTick p s (.inl rfl)
  case sknp x => exact effect_keySkip_setTick p s (.inr rfl)
  case drw x y n => exact forEach_setTick s (fun k t => drawRow_setTick p t _ _ k) _
  case ldBcd x =>
    rw [effect_ldBcd, effect_ldBcd]
    exact forEach_setTick s (fun k t => memWrite_setTick p t _ _) _
  case storeRegs x => exact forEach_setTick s (fun k t => storeOne_setTick p t k) _
  case loadRegs x => exact forEach_setTick s (fun k t => loadOne_setTick p t k) _
  all_goals rfl

theorem netPc_setTick (i : Instr) : netPc i (s.setTick p) = netPc i s := by cases i <;> rfl

end

/-! ### An instruction in the loop -/

/-- The core as the procedure has it between two iterations of its loop, with no host move waiting. The procedure keeps
its budget beside the state, whose own tick stays idle. -/
structure LoopReady (s : State) : Prop where
  fault : s.fault = none
  stopped : s.stopped = false
  tick : s.tick = .idle
  hostMoves : s.hostMoves = []

theorem LoopReady.of_exec {i : Instr} {s t : State} (h : LoopReady s) (hi : exec i s = .next t)
    (hf : t.fault = none) : LoopReady t := by
  obtain ⟨-, htick, -⟩ := exec_unraised hi hf
  refine ⟨hf, ?_, htick.trans h.tick, ?_⟩ <;> rw [exec_frame hi]
  · exact h.stopped
  · exact h.hostMoves

/-- An instruction in the loop does what it does outside it, and is charged unless it raises (R239, R240). -/
theorem exec_charged {i : Instr} {s : State} (h : LoopReady s) (b : Nat) : ∃ t, exec i s = .next t ∧
    ((LoopReady t ∧
        chargeOutcome (exec i (s.setTick (.looping b))) = .next (t.setTick (.looping (b - 2)))) ∨
      (t.fault ≠ none ∧ chargeOutcome (exec i (s.setTick (.looping b))) = .next t)) := by
  have htick := effect_setTick (.looping b) s i
  have hfault := effect_fault i s
  cases hm : effect i s with
  | done _ u =>
    rw [hm] at htick hfault
    refine ⟨_, exec_done hm, .inl ⟨h.of_exec (exec_done hm) (hfault.trans h.fault), ?_⟩⟩
    rw [exec_done htick, netPc_setTick]; rfl
  | raised c u =>
    rw [hm] at htick
    exact ⟨_, exec_raised hm, .inr ⟨nofun, by rw [exec_raised htick]; rfl⟩⟩

/-- The dispatch of a word in the loop does what it does outside it, and is charged unless it raises (R238 to R240). -/
theorem dispatchWord_charged (w : Word) {s : State} (h : LoopReady s) (b : Nat) : ∃ t, dispatchWord w s = .next t ∧
    ((LoopReady t ∧
        chargeOutcome (dispatchWord w (s.setTick (.looping b))) = .next (t.setTick (.looping (b - 2)))) ∨
      (t.fault ≠ none ∧ chargeOutcome (dispatchWord w (s.setTick (.looping b))) = .next t)) := by
  cases hw : decodeWord w with
  | ok i => rw [dispatchWord_ok w i _ hw, dispatchWord_ok w i _ hw]; exact exec_charged h b
  | error r =>
    obtain rfl := decodeWord_error hw
    rw [dispatchWord_unlisted w _ hw, dispatchWord_unlisted w _ hw]
    exact ⟨_, rfl, .inr ⟨nofun, rfl⟩⟩

/-! ### One iteration of the loop, as a step -/

section
variable {s : State} (fuel : Nat) {b : Nat}

theorem tickLoop_spent (hb : b < 2) : tickLoop (fuel + 1) b s = .next s := if_pos hb

section
variable (hb : 2 ≤ b) (hs : s.stopped = false)
include hb hs

/-- A waiting core captures a key or leaves the loop (R235, R236). -/
theorem tickLoop_awaiting {r : Reg} (ha : s.awaitKey = some r) :
    tickLoop (fuel + 1) b s = if s.pressedMask = 0 then .next s else tickLoop fuel b (s.capture r) := by
  simp [tickLoop, instrCost, Nat.not_lt.mpr hb, hs, ha]

/-- A fetched word is dispatched, and the loop goes on unless that raised (R238 to R240). -/
theorem tickLoop_dispatch (ha : s.awaitKey = none) (hpc : s.pc.toNat + 1 < 4096) {t : State}
    (ht : dispatchWord (wordOfBytes (s.byteAt s.pc.toNat) (s.byteAt (s.pc.toNat + 1))) s = .next t) :
    tickLoop (fuel + 1) b s = if t.fault.isSome then .next t else tickLoop fuel (b - 2) t := by
  simp [tickLoop, instrCost, Nat.not_lt.mpr hb, hs, ha, fetch_in s hpc, ht]

/-- A fetch beyond memory ends the loop with its fault (R237, R240). -/
theorem tickLoop_fetch_out (ha : s.awaitKey = none) (hpc : 4096 ≤ s.pc.toNat + 1) :
    tickLoop (fuel + 1) b s = .next (s.raise (.outOfBoundsMemory (s.pc.toNat + 1))) := by
  simp [tickLoop, instrCost, Nat.not_lt.mpr hb, hs, ha, fetch_out s hpc, takeFault_eq]

end

end

/-- What may still happen in the loop: the budget, and the capture that a waiting core needs before it (R236). Every
iteration that goes on makes it less. -/
def loopMeasure (b : Nat) (s : State) : Nat := b + s.awaitKey.toList.length

theorem le_loopMeasure (b : Nat) (s : State) : b ≤ loopMeasure b s := Nat.le_add_right _ _

theorem loopMeasure_le (b : Nat) (s : State) : loopMeasure b s ≤ b + 1 := by
  unfold loopMeasure
  cases s.awaitKey <;> simp

/-- A capture ends the wait, so less may still happen. -/
theorem loopMeasure_capture (b : Nat) {s : State} {r : Reg} (ha : s.awaitKey = some r) :
    loopMeasure b (s.capture r) < loopMeasure b s := by
  simp [loopMeasure, ha]

/-- One iteration of the procedure's loop beside the small step from the same state. -/
inductive Iteration (fuel b : Nat) (s : State) : Prop where
  | goesOn {b' : Nat} {t : State} (hready : LoopReady t) (hless : loopMeasure b' t < loopMeasure b s)
      (hloop : tickLoop (fuel + 1) b s = tickLoop fuel b' t)
      (hstep : step (s.setTick (.looping b)) = .next (t.setTick (.looping b')))
  | raises {t : State} (hfault : t.fault ≠ none) (hloop : tickLoop (fuel + 1) b s = .next t)
      (hstep : step (s.setTick (.looping b)) = .next t)
  | spent (hloop : tickLoop (fuel + 1) b s = .next s)
      (hstep : step (s.setTick (.looping b)) = .next (s.endOfTick.setTick .idle))
  | leaves (hloop : tickLoop (fuel + 1) b s = .next s)
      (hstep : step (s.setTick (.looping b)) = .next (s.setTick (.left b)))

section
variable {s : State} (h : LoopReady s) (fuel : Nat) {b : Nat}
include h

theorem LoopReady.iteration_spent (hb : b < 2) : Iteration fuel b s :=
  .spent (tickLoop_spent fuel hb) (step_spent (s := s.setTick (.looping b)) h.hostMoves h.fault rfl hb)

theorem LoopReady.iteration_awaiting (hb : 2 ≤ b) {r : Reg} (ha : s.awaitKey = some r) : Iteration fuel b s := by
  have hloop := tickLoop_awaiting fuel hb h.stopped ha
  have hstep := step_awaiting (s := s.setTick (.looping b)) h.fault h.stopped ha rfl hb h.hostMoves
  by_cases hp : s.pressedMask = 0
  · exact .leaves (hloop.trans (if_pos hp)) (hstep.trans (if_pos hp))
  · have hready : LoopReady (s.capture r) := ⟨h.fault, h.stopped, h.tick, h.hostMoves⟩
    exact .goesOn hready (loopMeasure_capture b ha) (hloop.trans (if_neg hp)) (hstep.trans (if_neg hp))

theorem LoopReady.iteration_dispatch (hb : 2 ≤ b) (ha : s.awaitKey = none) : Iteration fuel b s := by
  have hstep : step (s.setTick (.looping b)) = fetchDispatch (s.setTick (.looping b)) :=
    step_canDispatch _ b ⟨h.fault, h.stopped, ha, rfl, hb, h.hostMoves⟩
  by_cases hpc : s.pc.toNat + 1 < 4096
  · have hfetch := fetchDispatch_in (s.setTick (.looping b)) hpc
    obtain ⟨t, ht, hcharged⟩ :=
      dispatchWord_charged (wordOfBytes (s.byteAt s.pc.toNat) (s.byteAt (s.pc.toNat + 1))) h b
    have hloop := tickLoop_dispatch fuel hb h.stopped ha hpc ht
    rcases hcharged with ⟨hready, hc⟩ | ⟨hf, hc⟩
    · have hless : loopMeasure (b - 2) t < loopMeasure b s := by
        have hafter := loopMeasure_le (b - 2) t
        have hbefore := le_loopMeasure b s
        omega
      exact .goesOn hready hless (hloop.trans (if_neg (by rw [hready.fault]; nofun))) (hstep.trans (hfetch.trans hc))
    · exact .raises hf (hloop.trans (if_pos (Option.isSome_iff_ne_none.mpr hf))) (hstep.trans (hfetch.trans hc))
  · have hout := Nat.not_lt.mp hpc
    have hfault : (s.raise (.outOfBoundsMemory (s.pc.toNat + 1))).fault ≠ none := nofun
    exact .raises hfault (tickLoop_fetch_out fuel hb h.stopped ha hout) (hstep.trans (fetchDispatch_out _ hout))

/-- The budget is spent, or the core waits, or it fetches (R232, R233). -/
theorem LoopReady.iteration : Iteration fuel b s := by
  by_cases hb : 2 ≤ b
  · cases ha : s.awaitKey with
    | some r => exact h.iteration_awaiting fuel hb ha
    | none => exact h.iteration_dispatch fuel hb ha
  · exact h.iteration_spent fuel (Nat.not_le.mp hb)

end

/-! ### The whole tick -/

/-- A run goes on from the state that its first step answers. -/
theorem run_succ {M : Host.Core} {s t : M.State} (h : M.step s = .next t) (n : Nat) :
    M.run (n + 1) s = M.run n t := by
  rw [Host.Core.run, h]

/-- What the procedure does with the state its loop ends in: nothing after a fault, else the end-of-tick actions. -/
def afterLoop (o : Host.Outcome State Fault Refusal) : Host.Outcome State Fault Refusal :=
  match o with
  | .next t => if t.fault.isSome then .next t else .next t.endOfTick
  | .fault c => .fault c
  | .refused r => .refused r

theorem afterLoop_faulted {t : State} (hf : t.fault ≠ none) : afterLoop (.next t) = .next t :=
  if_pos (Option.isSome_iff_ne_none.mpr hf)

theorem afterLoop_ended {t : State} (hf : t.fault = none) : afterLoop (.next t) = .next t.endOfTick :=
  if_neg (by rw [hf]; nofun)

theorem LoopReady.endOfTick_setTick {s : State} (h : LoopReady s) : s.endOfTick.setTick .idle = s.endOfTick := by
  rw [← h.tick]; rfl

/-- Where the fuel is enough, small steps from the loop do what the procedure's loop and its end do, in no more steps
than the fuel and one for the end of the tick. -/
theorem run_tickLoop (fuel b : Nat) (s : State) (h : LoopReady s) (hfuel : loopMeasure b s < fuel) :
    ∃ n ≤ fuel + 1, Host.Core.run core n (s.setTick (.looping b)) = afterLoop (tickLoop fuel b s) := by
  induction fuel generalizing b s with
  | zero => exact absurd hfuel (Nat.not_lt_zero _)
  | succ fuel ih =>
    have hended : afterLoop (.next s) = .next (s.endOfTick.setTick .idle) := by
      rw [afterLoop_ended h.fault, h.endOfTick_setTick]
    cases h.iteration fuel (b := b) with
    | goesOn hready hless hloop hstep =>
      obtain ⟨n, hn, hrun⟩ := ih _ _ hready (Nat.lt_of_lt_of_le hless (Nat.le_of_lt_succ hfuel))
      rw [hloop]
      exact ⟨n + 1, Nat.succ_le_succ hn, (run_succ (M := core) hstep n).trans hrun⟩
    | raises hfault hloop hstep =>
      rw [hloop, afterLoop_faulted hfault]
      exact ⟨1, by omega, run_succ (M := core) hstep 0⟩
    | spent hloop hstep =>
      rw [hloop, hended]
      exact ⟨1, by omega, run_succ (M := core) hstep 0⟩
    | leaves hloop hstep =>
      rw [hloop, hended]
      have hend := step_left (s := s.setTick (.left b)) h.hostMoves h.fault rfl
      exact ⟨2, by omega, (run_succ (M := core) hstep 1).trans (run_succ (M := core) hend 0)⟩

theorem tickProcedure_stopped {s : State} (hs : s.stopped = true) : tickProcedure s = .next s := by
  rw [tickProcedure, hs, Bool.or_true, if_pos rfl]

theorem tickProcedure_running {s : State} (hf : s.fault = none) (hs : s.stopped = false) :
    tickProcedure s = afterLoop (tickLoop tickFuel cyclesPerTick s) := by
  rw [tickProcedure, hf, hs]; rfl

/-- Settles O17: the first step starts the tick; on a stopped core that is all, and on any other the full budget needs
no more iterations than `tickFuel`. -/
theorem smallStepsMakeUpTheTick : Obligations.SmallStepsMakeUpTheTick := by
  unfold Obligations.SmallStepsMakeUpTheTick
  intro s hf hm ht
  have hstart := step_newTick hm hf ht
  rcases Bool.eq_false_or_eq_true s.stopped with hs | hs
  · rw [tickStart_stopped hs] at hstart
    rw [tickProcedure_stopped (s := { s with boot := .started }) hs]
    exact ⟨1, by decide, by decide, run_succ (M := core) hstart 0⟩
  · rw [tickStart_running hf hs] at hstart
    rw [tickProcedure_running (s := { s with boot := .started }) hf hs]
    have hfuel := Nat.lt_succ_of_le (loopMeasure_le cyclesPerTick { s with boot := .started })
    obtain ⟨n, hn, hrun⟩ :=
      run_tickLoop tickFuel cyclesPerTick { s with boot := .started } ⟨hf, hs, ht, hm⟩ hfuel
    exact ⟨n + 1, n.succ_pos, Nat.succ_le_succ hn, (run_succ (M := core) hstart n).trans hrun⟩

end Sys2Proof.Machine
end

section
/-! PROOFS. The moves of the host that load an image and press or release a key (R246 to R248). -/

namespace Sys2Proof.Machine

/-! ### `Load` -/

/-- The bound on an image as a number (R246). -/
theorem imageFits_iff (image : List Byte) : imageFits image = true ↔ image.length ≤ 3584 := decide_eq_true_iff

section
variable {s : State} {image : List Byte}

theorem hostLoad_fits (hb : s.boot = .fresh) (hl : image.length ≤ 3584) :
    hostLoad image s = .next { State.copyBytes image progBase s with boot := .loaded } := by
  rw [hostLoad, if_neg (not_not.mpr hb), if_pos ((imageFits_iff image).mpr hl)]

theorem hostLoad_tooLong (hb : s.boot = .fresh) (hl : 3584 < image.length) :
    hostLoad image s = .refused .imageTooLong := by
  rw [hostLoad, if_neg (not_not.mpr hb), if_neg (mt (imageFits_iff image).mp (Nat.not_le.mpr hl))]

theorem hostLoad_late (hb : s.boot ≠ .fresh) : hostLoad image s = .refused .loadNotAllowed := if_pos hb

end

/-- Settles O21: the move as a copy to 512, by the lemmas of the copy, and as its two refusals. -/
theorem loadCopiesTheImageVerbatim : Obligations.LoadCopiesTheImageVerbatim := by
  unfold Obligations.LoadCopiesTheImageVerbatim
  intro s image rest hm
  have hstep : step s = hostLoad image { s with hostMoves := rest } := step_move s _ rest hm
  refine ⟨fun hb hl => ⟨_, hstep.trans (hostLoad_fits hb hl), ?inside, ?outside, ?frame⟩,
    fun hb hl => hstep.trans (hostLoad_tooLong hb hl), fun hb => hstep.trans (hostLoad_late hb)⟩
  case inside => exact copyBytes_inside image 512 _
  case outside => exact fun a => copyBytes_outside image 512 a _
  case frame => rw [copyBytes_eq]

/-! ### Keys -/

section
variable {s : State} {k : Key}

theorem keyDown_up (h : s.heldMask.getLsbD k.val = false) :
    s.keyDown k = { s with heldMask := s.heldMask ||| keyBit k, pressedMask := s.pressedMask ||| keyBit k } :=
  if_neg (by rw [keyIn, h]; nofun)

theorem keyDown_down (h : s.heldMask.getLsbD k.val = true) : s.keyDown k = s := if_pos h

end

theorem or_keyBit_getLsbD (m : Word) (k : Key) (j : Nat) :
    (m ||| keyBit k).getLsbD j = (m.getLsbD j || decide (j = k.val)) := by
  rw [BitVec.getLsbD_or, keyBit_getLsbD]

theorem andNot_keyBit_getLsbD (m : Word) (k : Key) (j : Nat) :
    (m &&& ~~~keyBit k).getLsbD j = (m.getLsbD j && !decide (j = k.val)) := by
  rw [BitVec.getLsbD_and, BitVec.getLsbD_not, keyBit_getLsbD]
  by_cases hj : j < 16
  · rw [decide_eq_true hj, Bool.true_and]
  · rw [BitVec.getLsbD_of_ge m j (Nat.not_lt.mp hj), Bool.false_and, Bool.false_and]

/-- Settles O22: on a key that is up the two masks with its bit, on a key that is down the state as it was. -/
theorem keyDownSetsBothMasks : Obligations.KeyDownSetsBothMasks := by
  unfold Obligations.KeyDownSetsBothMasks
  intro s k rest hm
  have hstep : step s = .next (State.keyDown { s with hostMoves := rest } k) := step_move s _ rest hm
  cases hk : s.heldMask.getLsbD k.val with
  | false =>
    refine ⟨_, hstep.trans (congrArg _ (keyDown_up hk)), rfl, or_keyBit_getLsbD _ k, fun j => ?_⟩
    rw [or_keyBit_getLsbD, Bool.not_false, Bool.and_true]
  | true =>
    refine ⟨_, hstep.trans (congrArg _ (keyDown_down hk)), rfl, fun j => ?held, fun j => ?pressed⟩
    case held =>
      by_cases hj : j = k.val
      · rw [decide_eq_true hj, Bool.or_true, hj]; exact hk
      · rw [decide_eq_false hj, Bool.or_false]
    case pressed => rw [Bool.not_true, Bool.and_false, Bool.or_false]

/-- Settles O23: the move is one clearing of a bit of the held mask. -/
theorem keyUpClearsTheHeldBit : Obligations.KeyUpClearsTheHeldBit := by
  unfold Obligations.KeyUpClearsTheHeldBit
  exact fun s k rest hm => ⟨_, step_move s _ rest hm, rfl, andNot_keyBit_getLsbD s.heldMask k⟩

end Sys2Proof.Machine
end

section
/-! PROOFS. The unimplemented families (`spec/47_unimplemented.md` R210 to R212) and the causes of every instruction
(`spec/60_exceptions.md` R284). -/

namespace Sys2Proof.Machine

/-- An instruction whose effect is to raise `Unimplemented` with its own word raises it with every word of its row. -/
theorem unimplemented_spec {i : Instr} (he : ∀ w s, effect (withOperandsOf w i) s =
      .raised (.unimplemented (encode (withOperandsOf w i))) s) {w : Word}
    (hw : w &&& (rowOf i).mask = (rowOf i).pattern) :
    decodeWord w = .ok (withOperandsOf w i) ∧
      ∀ s, ∃ t, exec (withOperandsOf w i) s = .next t ∧ RaisedOnly s t (.unimplemented w) := by
  refine ⟨encodes_rowOf i w hw, fun s => ⟨_, exec_raised (he w s), ?_⟩⟩
  rw [encode_withOperandsOf i hw]; rfl

/-- Settles O50: the rows of families 0, 2 and B, and the effect of each. -/
theorem unimplementedFamiliesRaise : Obligations.UnimplementedFamiliesRaise := by
  unfold Obligations.UnimplementedFamiliesRaise
  exact ⟨fun w => unimplemented_spec (i := .sys 0) fun _ _ => rfl,
    fun w => unimplemented_spec (i := .call 0) fun _ _ => rfl,
    fun w => unimplemented_spec (i := .jpV0 0) fun _ _ => rfl⟩

/-- Settles O52: an instruction that raised nothing has no fault still, and what its effect raises R284 gives it. -/
theorem instructionsRaiseOnlyTheirCauses : Obligations.InstructionsRaiseOnlyTheirCauses := by
  unfold Obligations.InstructionsRaiseOnlyTheirCauses
  intro i s t c hs h hc
  rcases exec_cases h with ⟨-, rfl⟩ | ⟨d, hd, rfl⟩
  · rw [setPc_fault, effect_fault, hs] at hc
    cases hc
  · cases hc
    exact effect_raised hd

end Sys2Proof.Machine
end
